-- ==== Sys2Proof/Word.lean ====
section
/-! DEFINITION. The word types of the CRTP core: bytes, byte sequences, the 32-bit command word (spec 00_scope.md R17, R18; 30_encoding.md R101). -/
namespace Sys2Proof

/-- A byte, bit 7 most significant (R17). -/
abbrev Byte := BitVec 8

/-- A byte sequence; index 0 comes first on every wire and operand (R17). -/
abbrev Bytes := List Byte

/-- A 32-bit word: the command word, a response value, one s32 result (R101, R103). -/
abbrev Word := BitVec 32

end Sys2Proof
end

