-- ==== Sys2Proof/Syntax.lean ====
section
/-! DEFINITION. The command set as data: one constructor per row of spec/opcode_table.json (30_encoding.md R105), with the fields of the command word the row reads (R108). Operands that travel beside the word are state, not syntax (R100). -/
namespace Sys2Proof

/-- The sample-width selector A: 0 selects 8-bit PCM, 1 selects 16-bit PCM (R101, R108). -/
inductive SampleWidth where
  | bits8
  | bits16
deriving DecidableEq, Repr

/-- The channel selector B: 0 selects 1 channel, 1 selects 2 channels (R101, R108). -/
inductive Channels where
  | one
  | two
deriving DecidableEq, Repr

/-- The fifteen commands (R105). -/
inductive Instr where
  /-- FRM_FEED (R150). -/
  | frmFeed
  /-- FRM_FRAME (R160). -/
  | frmFrame
  /-- RTP_PARSE (R180). -/
  | rtpParse
  /-- RTP_SERIALIZE (R190). -/
  | rtpSerialize
  /-- JB_START with the interval field; 0 stands for the default (R220). -/
  | jbStart (interval : BitVec 16)
  /-- JB_STOP (R222). -/
  | jbStop
  /-- JB_ADD (R230). -/
  | jbAdd
  /-- JB_TICK (R232). -/
  | jbTick
  /-- ULAW_ENC of a signed 16-bit sample (R260). -/
  | ulawEnc (sample : BitVec 16)
  /-- ULAW_DEC of a mu-law byte (R265). -/
  | ulawDec (u : Byte)
  /-- ULAW_ENC_STREAM (R272). -/
  | ulawEncStream (width : SampleWidth) (channels : Channels)
  /-- ULAW_DEC_STREAM (R270). -/
  | ulawDecStream (width : SampleWidth) (channels : Channels)
  /-- MIX (R290). -/
  | mix (width : SampleWidth)
  /-- SUB16 (R300). -/
  | sub16
  /-- RD_REG of a register number; 0 to 5 are registers (R320, R321). -/
  | rdReg (n : BitVec 16)
deriving DecidableEq, Repr

end Sys2Proof
end

