-- ==== Sys2Proof/WellFormed.lean ====
section
/-! DEFINITION. Which commands the opcode map holds: the one constraint of 30_encoding.md R105 that the fields' types do not already carry is RD_REG's register number (R106, R321). -/
namespace Sys2Proof

/-- A command the opcode map holds: RD_REG names one of the registers 0 to 5 (R105, R321);
every other constructor's fields admit exactly what its row admits. -/
def Instr.wellFormed : Instr → Bool
  | .frmFeed => true
  | .frmFrame => true
  | .rtpParse => true
  | .rtpSerialize => true
  | .jbStart _ => true
  | .jbStop => true
  | .jbAdd => true
  | .jbTick => true
  | .ulawEnc _ => true
  | .ulawDec _ => true
  | .ulawEncStream _ _ => true
  | .ulawDecStream _ _ => true
  | .mix _ => true
  | .sub16 => true
  | .rdReg n => decide (n.toNat ≤ 5)

end Sys2Proof
end

