-- ==== Sys2Proof/Decode.lean ====
section
/-! DEFINITION. The command word: its fields (30_encoding.md R101), the decoder (R105, R106, R128), the encoder, the match and mask table (R106), and the host's entry point decodeTableWord. -/
namespace Sys2Proof

/-! ## Fields (R101) -/

/-- OPC, bits 7 to 0. -/
def fieldOpc (w : Word) : BitVec 8 := w.extractLsb' 0 8

/-- A, bits 11 to 8. -/
def fieldA (w : Word) : BitVec 4 := w.extractLsb' 8 4

/-- B, bits 15 to 12. -/
def fieldB (w : Word) : BitVec 4 := w.extractLsb' 12 4

/-- IMM16, bits 31 to 16. -/
def fieldImm (w : Word) : BitVec 16 := w.extractLsb' 16 16

/-- A command word from its four fields, IMM16 highest (R101). -/
def packWord (opc : BitVec 8) (a b : BitVec 4) (imm : BitVec 16) : Word :=
  imm ++ b ++ a ++ opc

/-! ## Decoding -/

/-- Why a word is outside the opcode map (R128). -/
inductive DecodeError where
  /-- OPC is none of the fifteen values of R105. -/
  | unknownOpcode (opc : BitVec 8)
  /-- A field the row marks 0 is not 0. -/
  | nonzeroField
  /-- A is 2 to 15 in a command with a sample width. -/
  | badSampleWidth (a : BitVec 4)
  /-- B is 2 to 15 in a command with a channel count. -/
  | badChannels (b : BitVec 4)
  /-- ULAW_DEC with IMM16[15:8] not 0. -/
  | ulawByteTooWide
  /-- RD_REG with a register number above 5 (R321). -/
  | reservedRegister (n : BitVec 16)
deriving DecidableEq, Repr

/-- The sample width A selects; 2 to 15 are illegal (R101). -/
def decodeWidth (a : BitVec 4) : Except DecodeError SampleWidth :=
  match a.toNat with
  | 0 => .ok .bits8
  | 1 => .ok .bits16
  | _ => .error (.badSampleWidth a)

/-- The channel count B selects; 2 to 15 are illegal (R101). -/
def decodeChannels (b : BitVec 4) : Except DecodeError Channels :=
  match b.toNat with
  | 0 => .ok .one
  | 1 => .ok .two
  | _ => .error (.badChannels b)

/-- A row whose A and B are 0 and whose IMM16 is read (R105). -/
def decodeImmRow (w : Word) (i : Instr) : Except DecodeError Instr :=
  if fieldA w = 0 ∧ fieldB w = 0 then .ok i else .error .nonzeroField

/-- A row whose fields other than OPC are all 0 (R105). -/
def decodePlainRow (w : Word) (i : Instr) : Except DecodeError Instr :=
  if fieldImm w = 0 then decodeImmRow w i else .error .nonzeroField

/-- A row with a sample width and a channel count, IMM16 = 0 (R105). -/
def decodeStreamRow (w : Word) (mk : SampleWidth → Channels → Instr) : Except DecodeError Instr :=
  match decodeWidth (fieldA w), decodeChannels (fieldB w) with
  | .error e, _ => .error e
  | .ok _, .error e => .error e
  | .ok width, .ok ch => if fieldImm w = 0 then .ok (mk width ch) else .error .nonzeroField

/-- MIX: a sample width, B = 0, IMM16 = 0 (R105). -/
def decodeMixRow (w : Word) : Except DecodeError Instr :=
  match decodeWidth (fieldA w) with
  | .error e => .error e
  | .ok width =>
    if fieldB w = 0 ∧ fieldImm w = 0 then .ok (.mix width) else .error .nonzeroField

/-- ULAW_DEC: the byte in IMM16[7:0], IMM16[15:8] = 0 (R105). -/
def decodeUlawDecRow (w : Word) : Except DecodeError Instr :=
  if (fieldImm w).extractLsb' 8 8 = 0 then
    decodeImmRow w (.ulawDec ((fieldImm w).extractLsb' 0 8))
  else .error .ulawByteTooWide

/-- RD_REG: the register number in IMM16, 0 to 5 (R105, R321). -/
def decodeRdRegRow (w : Word) : Except DecodeError Instr :=
  if (fieldImm w).toNat ≤ 5 then decodeImmRow w (.rdReg (fieldImm w))
  else .error (.reservedRegister (fieldImm w))

/-- The command a word stands for, or why it stands for none (R105, R107, R128). Total. -/
def decode (w : Word) : Except DecodeError Instr :=
  match (fieldOpc w).toNat with
  | 0x01 => decodePlainRow w .frmFeed
  | 0x02 => decodePlainRow w .frmFrame
  | 0x10 => decodePlainRow w .rtpParse
  | 0x11 => decodePlainRow w .rtpSerialize
  | 0x20 => decodeImmRow w (.jbStart (fieldImm w))
  | 0x21 => decodePlainRow w .jbStop
  | 0x22 => decodePlainRow w .jbAdd
  | 0x23 => decodePlainRow w .jbTick
  | 0x30 => decodeImmRow w (.ulawEnc (fieldImm w))
  | 0x31 => decodeUlawDecRow w
  | 0x32 => decodeStreamRow w .ulawEncStream
  | 0x33 => decodeStreamRow w .ulawDecStream
  | 0x40 => decodeMixRow w
  | 0x41 => decodePlainRow w .sub16
  | 0xF0 => decodeRdRegRow w
  | _ => .error (.unknownOpcode (fieldOpc w))

/-- The instruction the decoder reads from a table word: the low nbits bits of w, bit 0 the least
significant bit of the command word, every higher bit 0. The command word is one 32-bit word
(R130); a longer number is no command word (log 17). -/
def decodeTableWord (nbits w : Nat) : Option Instr :=
  if w % 2 ^ nbits < 2 ^ 32 then
    match decode (BitVec.ofNat 32 (w % 2 ^ nbits)) with
    | .ok i => some i
    | .error _ => none
  else none

/-! ## Encoding -/

/-- The opcode of each command (R105). -/
def Instr.opcode : Instr → BitVec 8
  | .frmFeed => 0x01#8
  | .frmFrame => 0x02#8
  | .rtpParse => 0x10#8
  | .rtpSerialize => 0x11#8
  | .jbStart _ => 0x20#8
  | .jbStop => 0x21#8
  | .jbAdd => 0x22#8
  | .jbTick => 0x23#8
  | .ulawEnc _ => 0x30#8
  | .ulawDec _ => 0x31#8
  | .ulawEncStream _ _ => 0x32#8
  | .ulawDecStream _ _ => 0x33#8
  | .mix _ => 0x40#8
  | .sub16 => 0x41#8
  | .rdReg _ => 0xF0#8

/-- The mnemonic of each command, as the opcode table spells it (R105). -/
def Instr.mnemonic : Instr → String
  | .frmFeed => "FRM_FEED"
  | .frmFrame => "FRM_FRAME"
  | .rtpParse => "RTP_PARSE"
  | .rtpSerialize => "RTP_SERIALIZE"
  | .jbStart _ => "JB_START"
  | .jbStop => "JB_STOP"
  | .jbAdd => "JB_ADD"
  | .jbTick => "JB_TICK"
  | .ulawEnc _ => "ULAW_ENC"
  | .ulawDec _ => "ULAW_DEC"
  | .ulawEncStream _ _ => "ULAW_ENC_STREAM"
  | .ulawDecStream _ _ => "ULAW_DEC_STREAM"
  | .mix _ => "MIX"
  | .sub16 => "SUB16"
  | .rdReg _ => "RD_REG"

/-- The selector A of a sample width (R101). -/
def encodeWidth : SampleWidth → BitVec 4
  | .bits8 => 0
  | .bits16 => 1

/-- The selector B of a channel count (R101). -/
def encodeChannels : Channels → BitVec 4
  | .one => 0
  | .two => 1

/-- The field A of a command. -/
def Instr.selectorA : Instr → BitVec 4
  | .ulawEncStream width _ => encodeWidth width
  | .ulawDecStream width _ => encodeWidth width
  | .mix width => encodeWidth width
  | .frmFeed | .frmFrame | .rtpParse | .rtpSerialize | .jbStart _ | .jbStop | .jbAdd | .jbTick
  | .ulawEnc _ | .ulawDec _ | .sub16 | .rdReg _ => 0

/-- The field B of a command. -/
def Instr.selectorB : Instr → BitVec 4
  | .ulawEncStream _ ch => encodeChannels ch
  | .ulawDecStream _ ch => encodeChannels ch
  | .frmFeed | .frmFrame | .rtpParse | .rtpSerialize | .jbStart _ | .jbStop | .jbAdd | .jbTick
  | .ulawEnc _ | .ulawDec _ | .mix _ | .sub16 | .rdReg _ => 0

/-- The field IMM16 of a command (R108). -/
def Instr.imm16 : Instr → BitVec 16
  | .jbStart interval => interval
  | .ulawEnc sample => sample
  | .ulawDec u => u.setWidth 16
  | .rdReg n => n
  | .frmFeed | .frmFrame | .rtpParse | .rtpSerialize | .jbStop | .jbAdd | .jbTick
  | .ulawEncStream _ _ | .ulawDecStream _ _ | .mix _ | .sub16 => 0

/-- The command word of a command (R101, R105). -/
def encode (i : Instr) : Word := packWord i.opcode i.selectorA i.selectorB i.imm16

/-! ## The match and mask table (R106) -/

/-- One row of R106: a word w is the row's command when w AND mask = pattern and, where the row
bounds IMM16, IMM16 is at most the bound. -/
structure TableRow where
  mnemonic : String
  pattern : Word
  mask : Word
  immMax : Nat
deriving DecidableEq, Repr

/-- The rows of R106. Only RD_REG bounds IMM16. -/
def opcodeTable : List TableRow :=
  [ ⟨"FRM_FEED", 0x00000001, 0xFFFFFFFF, 65535⟩,
    ⟨"FRM_FRAME", 0x00000002, 0xFFFFFFFF, 65535⟩,
    ⟨"RTP_PARSE", 0x00000010, 0xFFFFFFFF, 65535⟩,
    ⟨"RTP_SERIALIZE", 0x00000011, 0xFFFFFFFF, 65535⟩,
    ⟨"JB_START", 0x00000020, 0x0000FFFF, 65535⟩,
    ⟨"JB_STOP", 0x00000021, 0xFFFFFFFF, 65535⟩,
    ⟨"JB_ADD", 0x00000022, 0xFFFFFFFF, 65535⟩,
    ⟨"JB_TICK", 0x00000023, 0xFFFFFFFF, 65535⟩,
    ⟨"ULAW_ENC", 0x00000030, 0x0000FFFF, 65535⟩,
    ⟨"ULAW_DEC", 0x00000031, 0xFF00FFFF, 65535⟩,
    ⟨"ULAW_ENC_STREAM", 0x00000032, 0xFFFFEEFF, 65535⟩,
    ⟨"ULAW_DEC_STREAM", 0x00000033, 0xFFFFEEFF, 65535⟩,
    ⟨"MIX", 0x00000040, 0xFFFFFEFF, 65535⟩,
    ⟨"SUB16", 0x00000041, 0xFFFFFFFF, 65535⟩,
    ⟨"RD_REG", 0x000000F0, 0x0000FFFF, 5⟩ ]

/-- A word is the row's command (R106). -/
def TableRow.holds (r : TableRow) (w : Word) : Bool :=
  decide (w &&& r.mask = r.pattern) && decide ((fieldImm w).toNat ≤ r.immMax)

end Sys2Proof
end

