-- ==== Sys2Proof/Config.lean ====
section
/-! DEFINITION. The parameters an instance of the block is built with, and the one value the spec leaves free: the order in which commands of different agents are taken. -/
namespace Sys2Proof

/-- The instance parameters, fixed when the block is built (R11, R13, R14). They are OPEN in the
spec, so they are data of the state, and a claim over every state holds for every instance. -/
structure Params where
  /-- MAX_PACKETS, the jitter buffer's capacity (R11). -/
  maxPackets : Nat
  /-- MAX_OPERAND_BYTES, the longest byte sequence one operand or result may hold (R13). -/
  maxOperandBytes : Nat
  /-- MAX_STREAMS, the most input streams one MIX takes (R14). -/
  maxStreams : Nat
deriving DecidableEq, Repr

namespace Config

/-- The parameters `State.reset` names. DESIGN CHOICE (log 1): the spec leaves them open. -/
def defaultParams : Params :=
  { maxPackets := 4, maxOperandBytes := 1048576, maxStreams := 16 }

/-- Free value (log 3): which of the agents with pending commands is served at the n-th choice
(R85, R353, 93 U9). It has no body, so a claim holds for every order. -/
opaque arbiter : Nat → Nat

end Config
end Sys2Proof
end

