-- ==== Sys2Proof/Machine/State.lean ====
section
/-! DEFINITION. The state of one instance of the block (10_state.md), the values that travel on its ports (30_encoding.md R102, R103, R132), and its reset state (R56, R380). -/
namespace Sys2Proof.Machine

/-- A packet record (R45). It holds no CSRC words and no extension data (R46). -/
structure Packet where
  /-- true for a packet parsed from a full header or supplied by the host -/
  valid : Bool
  version : BitVec 2
  padding : Bool
  extension : Bool
  csrcCount : BitVec 4
  marker : Bool
  payloadType : BitVec 7
  sequenceNumber : BitVec 16
  timestamp : BitVec 32
  sourceId : BitVec 32
  extensionHeaderId : BitVec 16
  extensionLengthInWords : BitVec 16
  headerLength : BitVec 32
  payload : Bytes
deriving DecidableEq, Repr

/-- One operand of a command (R102). -/
inductive Operand where
  /-- `BYTES`: a byte sequence with its length. -/
  | bytes (b : Bytes)
  /-- `PKT`: a packet record. -/
  | pkt (p : Packet)
  /-- `LIST`: an ordered list of byte sequences. -/
  | list (l : List Bytes)
deriving DecidableEq, Repr

/-- A command as an agent issues it: the command word and its ordered operands (R100). -/
structure Command where
  word : Word
  operands : List Operand
deriving DecidableEq, Repr

/-- The three command ports, one per agent (R100, R360). -/
inductive Port where
  | producer
  | tick
  | host
deriving DecidableEq, Repr

/-- The causes of a framing fault (R132, R342). -/
inductive FrameFault where
  | bufOverflow
  | lenTooBig
  | negLength
deriving DecidableEq, Repr

/-- One event of the event channel (R54, R132). -/
inductive Event where
  /-- EV_MSG: one complete message. -/
  | msg (message : Bytes)
  /-- EV_FAULT: a framing fault, its cause only (R342). -/
  | fault (code : FrameFault)
  /-- EV_DATA: a packet leaving the jitter buffer. -/
  | data (p : Packet)
deriving DecidableEq, Repr

/-- The statuses a response carries (R104). Codes 5 to 255 are never returned (93 U5). -/
inductive Status where
  | ok
  | illegalCommand
  | rtpShort
  | rtpTruncated
  | operandLimit
deriving DecidableEq, Repr

/-- A response record (R103). An s32 result is a 32-bit word in two's complement (log 10). -/
structure Response where
  status : Status
  value : Word
  bytes : List Bytes
  ints : List (List Word)
  pkt : Packet
deriving DecidableEq, Repr

/-- One entry of the run's history (R54, R341, R347; log 8). -/
inductive Obs where
  /-- The block takes a command from a port. -/
  | taken (port : Port) (c : Command)
  /-- An event is put on the event channel. -/
  | event (e : Event)
  /-- The response that ends a command. -/
  | response (r : Response)
  /-- The block is reset; a new run begins (R382). -/
  | reset
deriving DecidableEq, Repr

/-- The state of one instance. The `jb` and `frm` fields are the spec's JB and FRM elements
(R32 to R39); `history` is the run's record (R54); the last group is the model's own. -/
structure State where
  /-- MAX_PACKETS, MAX_OPERAND_BYTES, MAX_STREAMS, constant for the instance (R11, R13, R14, R39). -/
  params : Params
  /-- FRM.acc, the accumulation buffer (R32). -/
  frmAcc : Bytes
  /-- JB.queue, oldest first (R33). -/
  jbQueue : List Packet
  /-- JB.filling (R34). -/
  jbFilling : Bool
  /-- JB.overflowing (R35). -/
  jbOverflowing : Bool
  /-- JB.running, also the timer's ARMED signal (R36, R355). -/
  jbRunning : Bool
  /-- JB.lastPacket, the packet most recently emitted (R37). -/
  jbLastPacket : Option Packet
  /-- JB.interval in milliseconds, also the timer's INTERVAL signal (R38, R355). -/
  jbInterval : BitVec 16
  /-- Commands taken, events, responses and resets, oldest first (R54, R341, R347; log 8). -/
  history : List Obs
  /-- The operand list of the command being run; empty between commands (R100; log 9). -/
  operands : List Operand
  /-- Issued on the producer port and not yet taken, oldest first (R85, R360; log 5). -/
  producerPort : List Command
  /-- Issued on the tick port and not yet taken, oldest first (R85, R360; log 5). -/
  tickPort : List Command
  /-- Issued on the host port and not yet taken, oldest first (R85, R360; log 5). -/
  hostPort : List Command
  /-- How many commands have been taken; `Config.arbiter` is applied to it (R85; log 3). -/
  arbCount : Nat
  /-- A reset has been asked for and is taken by the next step (R382; log 7). -/
  resetPending : Bool
deriving DecidableEq, Repr

/-- Why the machine stops with a fault. The block has none: it answers every command and takes the
next one (R324, R344), so this type has no constructor (log 21). -/
inductive Fault : Type
deriving DecidableEq, Repr

/-- Why the model has no meaning to give. -/
inductive Refusal where
  /-- Raised by `exec` for a command without a meaning; no arm raises it. Safe. -/
  | notModelled (mnemonic : String)
  /-- Raised by `step` for an instance whose parameters are not legal (R11, R13, R14): the spec asks
  a model to refuse it. Safe. -/
  | illegalInstance
deriving DecidableEq, Repr

/-- The outcome of a command or a step. -/
abbrev Result := Host.Outcome State Fault Refusal

/-- The state right after reset of an instance with parameters p, with no command pending
(R56, R380; log 5). -/
def State.resetWith (p : Params) : State where
  params := p
  frmAcc := []
  jbQueue := []
  jbFilling := true
  jbOverflowing := false
  jbRunning := false
  jbLastPacket := none
  jbInterval := 20
  history := []
  operands := []
  producerPort := []
  tickPort := []
  hostPort := []
  arbCount := 0
  resetPending := false

/-- The state right after reset (R380) of the instance whose parameters log 1 names. -/
def State.reset : State := State.resetWith Config.defaultParams

end Sys2Proof.Machine
end

