-- ==== Sys2Proof/Machine/Ops.lean ====
section
/-! DEFINITION. The spec's primitives: constants, reads and writes of multi-byte values in byte sequences (00_scope.md R19), integer helpers (R18), codes, and the operations every command is made of: emit, respond, refuse (R20, R347) and raising a framing fault (R345), the block's only form of exception. -/
namespace Sys2Proof.Machine

/-! ## Constants -/

/-- MAX_BUFFER_LENGTH (R10). -/
def maxBufferLength : Nat := 10000

/-- DEFAULT_INTERVAL_MS (R12). -/
def defaultIntervalMs : BitVec 16 := 20

/-- RTP_MIN_HEADER (R15). -/
def rtpMinHeader : Nat := 12

/-- An instance the spec allows: MAX_PACKETS in 2 to 65535 (R11), MAX_OPERAND_BYTES at least 10004
(R13) and below 2^31 (R160), MAX_STREAMS at least 2 (R14). -/
def legalParams (p : Params) : Bool :=
  decide (2 ≤ p.maxPackets) && decide (p.maxPackets ≤ 65535) &&
  decide (10004 ≤ p.maxOperandBytes) && decide (p.maxOperandBytes < 2 ^ 31) &&
  decide (2 ≤ p.maxStreams)

/-! ## Integers (R18) -/

/-- `clamp(v, lo, hi)`. -/
def clamp (v lo hi : Int) : Int := if v < lo then lo else if hi < v then hi else v

/-- Clamp to the signed 16-bit range. -/
def clampS16 (v : Int) : Int := clamp v (-32768) 32767

/-- The arithmetic shift right, floor(a / 2^n). -/
def asr (a : Int) (n : Nat) : Int := a / 2 ^ n

/-- The shift left, a·2^n. -/
def asl (a : Int) (n : Nat) : Int := a * 2 ^ n

/-- A 16-bit number read as two's complement. -/
def signed16 (n : Nat) : Int := if n < 2 ^ 15 then (n : Int) else (n : Int) - 2 ^ 16

/-- A 32-bit number read as two's complement. -/
def signed32 (n : Nat) : Int := if n < 2 ^ 31 then (n : Int) else (n : Int) - 2 ^ 32

/-- An integer as a 32-bit word, mod 2^32 (R103). -/
def toWord (v : Int) : Word := BitVec.ofInt 32 v

/-! ## Reading byte sequences (R19) -/

/-- `S[k]` as a number. An index outside S never occurs in a rule and reads 0 here (log 15). -/
def byteAt (S : Bytes) (k : Nat) : Nat := (S.getD k 0).toNat

/-- `S[a .. b)`. -/
def slice (S : Bytes) (a b : Nat) : Bytes := (S.take b).drop a

def le16 (S : Bytes) (k : Nat) : Nat := byteAt S k + 2 ^ 8 * byteAt S (k + 1)

def be16 (S : Bytes) (k : Nat) : Nat := 2 ^ 8 * byteAt S k + byteAt S (k + 1)

def le32 (S : Bytes) (k : Nat) : Nat :=
  byteAt S k + 2 ^ 8 * byteAt S (k + 1) + 2 ^ 16 * byteAt S (k + 2) + 2 ^ 24 * byteAt S (k + 3)

def be32 (S : Bytes) (k : Nat) : Nat :=
  2 ^ 24 * byteAt S k + 2 ^ 16 * byteAt S (k + 1) + 2 ^ 8 * byteAt S (k + 2) + byteAt S (k + 3)

def sle16 (S : Bytes) (k : Nat) : Int := signed16 (le16 S k)

def sle32 (S : Bytes) (k : Nat) : Int := signed32 (le32 S k)

/-! ## Writing byte sequences (R19) -/

/-- Bits 8·k+7 to 8·k of v mod 2^32 as a byte. -/
def byteOf (v : Int) (k : Nat) : Byte := (toWord v).extractLsb' (8 * k) 8

/-- `LE16(v)`. -/
def putLe16 (v : Int) : Bytes := [byteOf v 0, byteOf v 1]

/-- `BE16(v)`. -/
def putBe16 (v : Int) : Bytes := [byteOf v 1, byteOf v 0]

/-- `LE32(v)`. -/
def putLe32 (v : Int) : Bytes := [byteOf v 0, byteOf v 1, byteOf v 2, byteOf v 3]

/-- `BE32(v)`. -/
def putBe32 (v : Int) : Bytes := [byteOf v 3, byteOf v 2, byteOf v 1, byteOf v 0]

/-! ## Codes (R104, R132, R342) -/

/-- The code of a status (R104). -/
def Status.code : Status → Byte
  | .ok => 0
  | .illegalCommand => 1
  | .rtpShort => 2
  | .rtpTruncated => 3
  | .operandLimit => 4

/-- The code an EV_FAULT carries (R132). -/
def FrameFault.code : FrameFault → Byte
  | .bufOverflow => 1
  | .lenTooBig => 2
  | .negLength => 3

/-- The kind code of an event record (R132). -/
def Event.kindCode : Event → Byte
  | .msg _ => 1
  | .fault _ => 2
  | .data _ => 3

/-! ## Records -/

/-- The empty/default packet (R47). -/
def Packet.empty : Packet where
  valid := false
  version := 0
  padding := false
  extension := false
  csrcCount := 0
  marker := false
  payloadType := 0
  sequenceNumber := 0
  timestamp := 0
  sourceId := 0
  extensionHeaderId := 0
  extensionLengthInWords := 0
  headerLength := 0
  payload := []

/-- A response with a status and every result field empty or 0 (R103). -/
def Response.ofStatus (st : Status) : Response where
  status := st
  value := 0
  bytes := []
  ints := []
  pkt := Packet.empty

/-- A response OK whose only result is a value (R103). -/
def Response.ofValue (v : Word) : Response := { Response.ofStatus .ok with value := v }

/-- A response OK whose only result is one byte sequence (R103). -/
def Response.ofBytes (b : Bytes) : Response := { Response.ofStatus .ok with bytes := [b] }

/-- A response with a status and a packet record (R103). -/
def Response.ofPacket (st : Status) (p : Packet) : Response :=
  { Response.ofStatus st with pkt := p }

/-! ## Events, responses, refusals, framing faults -/

/-- `emit`: append an event to the channel (R20, R341). -/
def State.emit (s : State) (e : Event) : State :=
  { s with history := s.history ++ [.event e] }

/-- `respond`: give the command's response; the command is over (R20, R88). -/
def State.respond (s : State) (r : Response) : State :=
  { s with history := s.history ++ [.response r], operands := [] }

/-- `respond(OK)` with no result. -/
def State.complete (s : State) : State := s.respond (Response.ofStatus .ok)

/-- `refuse(status)`: end the command before any write or emit (R20, R347). -/
def State.refuse (s : State) (st : Status) : State := s.respond (Response.ofStatus st)

/-- `raise FrameFault(code)`: clear FRM.acc, emit EV_FAULT(code), end the command with status OK
(R20, R345). Nothing is saved and nothing returns (R354, R356). -/
def State.raiseFrameFault (s : State) (code : FrameFault) : State :=
  ({ s with frmAcc := [] }.emit (.fault code)).complete

/-! ## Reading the history -/

/-- The event channel of the run in progress: the events since the last reset (R54, R382). -/
def channelOf (h : List Obs) : List Event :=
  h.foldl (fun ch o =>
    match o with
    | .event e => ch ++ [e]
    | .reset => []
    | .taken _ _ => ch
    | .response _ => ch) []

/-- The event channel (R54, R341). -/
def State.channel (s : State) : List Event := channelOf s.history

/-- The responses of the run in progress, oldest first. -/
def responsesOf (h : List Obs) : List Response :=
  h.foldl (fun rs o =>
    match o with
    | .response r => rs ++ [r]
    | .reset => []
    | .taken _ _ => rs
    | .event _ => rs) []

/-- The packets of the EV_DATA events of a channel, in channel order. -/
def dataPackets : List Event → List Packet
  | [] => []
  | .data p :: es => p :: dataPackets es
  | .msg _ :: es => dataPackets es
  | .fault _ :: es => dataPackets es

end Sys2Proof.Machine
end

