-- ==== Sys2Proof/Machine/Operands.lean ====
section
/-! DEFINITION. Operands: the shape each command's operand list must have (30_encoding.md R105, R107), the size check (45_control.md R323), the check order (R322), and access to the operands. -/
namespace Sys2Proof.Machine

/-- The shapes of operand lists in R105. -/
inductive OperandShape where
  /-- no operand -/
  | none
  /-- one `BYTES` -/
  | bytes
  /-- one `PKT` -/
  | pkt
  /-- one `LIST` -/
  | list
  /-- two `BYTES` -/
  | bytesBytes
deriving DecidableEq, Repr

/-- The operand shape of each command (R105). -/
def shapeOf : Instr → OperandShape
  | .frmFeed => .bytes
  | .frmFrame => .bytes
  | .rtpParse => .bytes
  | .rtpSerialize => .pkt
  | .jbStart _ => .none
  | .jbStop => .none
  | .jbAdd => .pkt
  | .jbTick => .none
  | .ulawEnc _ => .none
  | .ulawDec _ => .none
  | .ulawEncStream _ _ => .bytes
  | .ulawDecStream _ _ => .bytes
  | .mix _ => .list
  | .sub16 => .bytesBytes
  | .rdReg _ => .none

/-- `shape_ok`: the operand list has the shape (R107, R322). -/
def shapeOk (sh : OperandShape) (ops : List Operand) : Bool :=
  match sh, ops with
  | .none, [] => true
  | .bytes, [.bytes _] => true
  | .pkt, [.pkt _] => true
  | .list, [.list _] => true
  | .bytesBytes, [.bytes _, .bytes _] => true
  | _, _ => false

/-- One operand is within the instance's limits (R102, R323). -/
def operandFits (p : Params) : Operand → Bool
  | .bytes b => decide (b.length ≤ p.maxOperandBytes)
  | .pkt q => decide (q.payload.length ≤ p.maxOperandBytes)
  | .list l => decide (l.length ≤ p.maxStreams) && l.all fun b => decide (b.length ≤ p.maxOperandBytes)

/-- `size_ok`: every operand is within the limits (R323). -/
def sizeOk (p : Params) (ops : List Operand) : Bool := ops.all (operandFits p)

/-- The check order every command passes before its own rule runs: ILLEGAL_COMMAND for a wrong
operand shape, then OPERAND_LIMIT, then the rule (R322, R352). The block always has a next state. -/
def checked (sh : OperandShape) (s : State) (rule : State → State) : Result :=
  if shapeOk sh s.operands = false then .next (s.refuse .illegalCommand)
  else if sizeOk s.params s.operands = false then .next (s.refuse .operandLimit)
  else .next (rule s)

/-! ## Access to the operands of a list of the right shape -/

/-- The only or first `BYTES` operand. -/
def bytesArg : List Operand → Bytes
  | .bytes b :: _ => b
  | _ => []

/-- The second `BYTES` operand. -/
def bytesArg2 : List Operand → Bytes
  | _ :: .bytes b :: _ => b
  | _ => []

/-- The `PKT` operand. -/
def pktArg : List Operand → Packet
  | .pkt p :: _ => p
  | _ => Packet.empty

/-- The `LIST` operand. -/
def listArg : List Operand → List Bytes
  | .list l :: _ => l
  | _ => []

/-- Operands of a shape with nothing in them: what `withFetchWord` sends beside a word (log 6). -/
def emptyOperands : OperandShape → List Operand
  | .none => []
  | .bytes => [.bytes []]
  | .pkt => [.pkt Packet.empty]
  | .list => [.list []]
  | .bytesBytes => [.bytes [], .bytes []]

/-! ## Operands in the command word (R108) -/

/-- `bits / 8` of a sample width (R108). -/
def sampleBytes : SampleWidth → Nat
  | .bits8 => 1
  | .bits16 => 2

/-- The channel count (R108). -/
def channelCount : Channels → Nat
  | .one => 1
  | .two => 2

end Sys2Proof.Machine
end

