-- ==== Sys2Proof/Machine/Flags.lean ====
section
/-! DEFINITION. The flags of the block and how they are computed (10_state.md R34 to R43): the jitter buffer's tests and the read-only register view. -/
namespace Sys2Proof.Machine

/-- H = MAX_PACKETS div 2, the half-full threshold (R39). -/
def halfFull (s : State) : Nat := s.params.maxPackets / 2

/-- JB.lastPacket exists and has payload data (R236). -/
def lastHasPayload (s : State) : Bool :=
  match s.jbLastPacket with
  | none => false
  | some p => decide (0 < p.payload.length)

/-- JB_ADD admits its packet: not overflowing, and at most MAX_PACKETS packets queued (R230). -/
def jbAdmits (s : State) : Bool :=
  !s.jbOverflowing && decide (s.jbQueue.length ≤ s.params.maxPackets)

/-- JB.overflowing after step 1 of a tick: cleared when the queue holds at most H packets (R233). -/
def overflowAfterRecovery (s : State) : Bool :=
  s.jbOverflowing && !decide (s.jbQueue.length ≤ halfFull s)

/-- A tick that finds the buffer filling with fewer than H packets emits nothing (R234). -/
def stillFilling (s : State) : Bool :=
  s.jbFilling && decide (s.jbQueue.length < halfFull s)

/-- JB.filling after a tick that finds the queue empty: re-entered after a packet with payload
(R236). -/
def fillingAfterEmpty (s : State) : Bool := s.jbFilling || lastHasPayload s

/-- JB_STATUS (R43): bit 0 FILLING, 1 OVERFLOWING, 2 RUNNING, 3 LAST_VALID, 4 LAST_HAS_PAYLOAD. -/
def jbStatus (s : State) : Word :=
  (BitVec.ofBool (lastHasPayload s) ++ BitVec.ofBool s.jbLastPacket.isSome ++
    BitVec.ofBool s.jbRunning ++ BitVec.ofBool s.jbOverflowing ++
    BitVec.ofBool s.jbFilling).setWidth 32

/-- The register view (R43, R320): the value of register n, none for a reserved number (R44).
Lengths are taken mod 2^32 (log 22). -/
def regValue (s : State) (n : Nat) : Option Word :=
  match n with
  | 0 => some (toWord s.frmAcc.length)
  | 1 => some (jbStatus s)
  | 2 => some (toWord s.jbQueue.length)
  | 3 => some (toWord s.params.maxPackets)
  | 4 => some (s.jbInterval.setWidth 32)
  | 5 => some (toWord maxBufferLength)
  | _ => none

/-- ARMED, the signal to the timer (R355). -/
def State.armed (s : State) : Bool := s.jbRunning

/-- INTERVAL, the period in milliseconds asked of the timer (R355). -/
def State.tickInterval (s : State) : Nat := s.jbInterval.toNat

end Sys2Proof.Machine
end

