-- ==== Sys2Proof/Machine/Control.lean ====
section
/-! DEFINITION. Control (45_control.md): RD_REG, and the answer to a word outside the opcode map. -/
namespace Sys2Proof.Machine

/-- RD_REG of register n; a reserved number is refused (R320, R321). -/
def rdReg (n : BitVec 16) (s : State) : State :=
  match regValue s n.toNat with
  | some v => s.respond (Response.ofValue v)
  | none => s.refuse .illegalCommand

/-- RD_REG (R320). A reserved register number is part of the first check, before the operand sizes
(R322); with no operands to size the order makes no difference. -/
def execRdReg (n : BitVec 16) (s : State) : Result := checked .none s fun s => rdReg n s

/-- A command word that is no row of the opcode map (R128, R322). -/
def refuseIllegalWord (s : State) : Result := .next (s.refuse .illegalCommand)

end Sys2Proof.Machine
end

