-- ==== Sys2Proof/Machine/Framer.lean ====
section
/-! DEFINITION. FRM, the length-prefixed stream framer (40_framer.md): FRM_FEED and FRM_FRAME. -/
namespace Sys2Proof.Machine

/-- One turn of the emission loop that finds a whole frame of length L: emit its payload and remove
the frame from the front of FRM.acc (R153). -/
def frmTakeFrame (L : Int) (s : State) : State :=
  { s.emit (.msg (slice s.frmAcc 4 (4 + L.toNat))) with
    frmAcc := s.frmAcc.drop (L + 4).toNat }

/-- The emission loop of FRM_FEED (R153 to R155), entered with a length L already read. A length read
again inside the loop is not compared with 10000 (R155). Each turn removes at least 4 bytes, so a
bound of len(FRM.acc) turns never ends it (log 14). -/
def frmLoop : Nat → Int → State → State
  | 0, _, s => s.complete
  | turns + 1, L, s =>
    if (s.frmAcc.length : Int) < L + 4 then s.complete
    else if L < 0 then s.raiseFrameFault .negLength
    else
      if (frmTakeFrame L s).frmAcc.length < 4 then (frmTakeFrame L s).complete
      else frmLoop turns (sle32 (frmTakeFrame L s).frmAcc 0) (frmTakeFrame L s)

/-- What FRM_FEED does once the chunk is appended (R151, R152): the overflow test, the first length
read and its test, then the emission loop. -/
def frmParse (s : State) : State :=
  if maxBufferLength < s.frmAcc.length then s.raiseFrameFault .bufOverflow
  else if s.frmAcc.length < 4 then s.complete
  else if (maxBufferLength : Int) < sle32 s.frmAcc 0 then s.raiseFrameFault .lenTooBig
  else frmLoop s.frmAcc.length (sle32 s.frmAcc 0) s

/-- FRM_FEED of a chunk (R150). -/
def frmFeed (chunk : Bytes) (s : State) : State :=
  frmParse { s with frmAcc := s.frmAcc ++ chunk }

/-- The frame of a payload (R110, R160). -/
def frameOf (payload : Bytes) : Bytes := putLe32 payload.length ++ payload

/-- FRM_FRAME of a payload (R160). -/
def frmFrame (payload : Bytes) (s : State) : State :=
  if s.params.maxOperandBytes < payload.length + 4 then s.refuse .operandLimit
  else s.respond (Response.ofBytes (frameOf payload))

/-- FRM_FEED (R150). -/
def execFrmFeed (s : State) : Result :=
  checked .bytes s fun s => frmFeed (bytesArg s.operands) s

/-- FRM_FRAME (R160). -/
def execFrmFrame (s : State) : Result :=
  checked .bytes s fun s => frmFrame (bytesArg s.operands) s

end Sys2Proof.Machine
end

