-- ==== Sys2Proof/Machine/Jitter.lean ====
section
/-! DEFINITION. JB, the tick-driven jitter buffer (42_jitter.md): JB_START, JB_STOP, JB_ADD and JB_TICK. -/
namespace Sys2Proof.Machine

/-- The interval JB_START stores: 0 stands for the default (R108, R220). -/
def startInterval (imm : BitVec 16) : BitVec 16 := if imm = 0 then defaultIntervalMs else imm

/-- JB_START (R220, R221). -/
def jbStart (imm : BitVec 16) (s : State) : State :=
  { s with jbInterval := startInterval imm, jbRunning := true, jbFilling := true }.complete

/-- JB_STOP (R222, R223). -/
def jbStop (s : State) : State :=
  { s with jbRunning := false, jbQueue := [] }.complete

/-- JB_ADD: append, or drop and mark the overflow; the response is the same (R230, R231). -/
def jbAdd (p : Packet) (s : State) : State :=
  if jbAdmits s then { s with jbQueue := s.jbQueue ++ [p] }.complete
  else { s with jbOverflowing := true }.complete

/-- Step 2 of a tick: take the oldest packet, remember it, emit it (R234, R235). -/
def jbEmitOldest (p : Packet) (rest : List Packet) (s : State) : State :=
  ({ s with jbFilling := false, jbQueue := rest, jbLastPacket := some p }.emit (.data p)).complete

/-- Step 3 of a tick: the queue is empty (R236). -/
def jbDrained (s : State) : State :=
  { s with jbOverflowing := false, jbFilling := fillingAfterEmpty s }.complete

/-- Steps 2 and 3 of a tick, on the state after step 1 (R234 to R236). -/
def jbPace (s : State) : State :=
  match s.jbQueue with
  | [] => jbDrained s
  | p :: rest => if stillFilling s then s.complete else jbEmitOldest p rest s

/-- JB_TICK (R232): ignored while stopped; else overflow recovery, then steps 2 and 3. -/
def jbTick (s : State) : State :=
  if s.jbRunning then jbPace { s with jbOverflowing := overflowAfterRecovery s }
  else s.complete

/-- JB_START (R220). -/
def execJbStart (imm : BitVec 16) (s : State) : Result := checked .none s fun s => jbStart imm s

/-- JB_STOP (R222). -/
def execJbStop (s : State) : Result := checked .none s fun s => jbStop s

/-- JB_ADD (R230). -/
def execJbAdd (s : State) : Result := checked .pkt s fun s => jbAdd (pktArg s.operands) s

/-- JB_TICK (R232). -/
def execJbTick (s : State) : Result := checked .none s fun s => jbTick s

end Sys2Proof.Machine
end

