-- ==== Sys2Proof/Machine/Mixer.lean ====
section
/-! DEFINITION. MIX, the saturating mixer (44_mixer.md): MIX and SUB16. -/
namespace Sys2Proof.Machine

/-- The length of the longest stream, 0 for no stream (R291, R297). -/
def longest (streams : List Bytes) : Nat := streams.foldl (fun m s => max m s.length) 0

/-- The 16-bit sample of a stream at position i; a stream that does not hold both its bytes
contributes 0 (R296, R301). -/
def sampleOr0 (S : Bytes) (i : Nat) : Int := if 2 * i + 2 ≤ S.length then sle16 S (2 * i) else 0

/-- The unsigned byte of a stream at position i, 0 beyond its end (R295, R296). -/
def byteOr0 (S : Bytes) (i : Nat) : Int := if i < S.length then (byteAt S i : Int) else 0

/-- The 16-bit sum at position i, clamped after every addition, in list order (R292). -/
def mixSum16 (streams : List Bytes) (i : Nat) : Int :=
  streams.foldl (fun acc s => clampS16 (acc + sampleOr0 s i)) 0

/-- The 8-bit sum at position i, clamped to 0 to 255 after every addition (R295). -/
def mixSum8 (streams : List Bytes) (i : Nat) : Int :=
  streams.foldl (fun acc s => clamp (acc + byteOr0 s i) 0 255) 0

/-- The per-position sums (R291, R294, R295). -/
def mixSums (width : SampleWidth) (streams : List Bytes) : List Int :=
  match width with
  | .bits16 => (List.range (longest streams / 2)).map (mixSum16 streams)
  | .bits8 => (List.range (longest streams)).map (mixSum8 streams)

/-- The mixed bytes: Lmax bytes, an odd last byte 0x00 in 16-bit mode (R291). -/
def mixBytes (width : SampleWidth) (streams : List Bytes) : Bytes :=
  match width with
  | .bits16 =>
    (mixSums .bits16 streams).flatMap putLe16 ++ List.replicate (longest streams % 2) 0
  | .bits8 => (mixSums .bits8 streams).map fun v => byteOf v 0

/-- The absolute values of the sums; 8-bit mode has none (R294, R295). -/
def mixAbs (width : SampleWidth) (streams : List Bytes) : List Int :=
  match width with
  | .bits16 => (mixSums .bits16 streams).map fun v => (v.natAbs : Int)
  | .bits8 => []

/-- The largest sum, at least 0 (R293). -/
def mixPeak (width : SampleWidth) (streams : List Bytes) : Int :=
  (mixSums width streams).foldl max 0

/-- The response of MIX (R290, R103). -/
def mixResponse (width : SampleWidth) (streams : List Bytes) : Response :=
  { Response.ofBytes (mixBytes width streams) with
    value := toWord (mixPeak width streams)
    ints := [(mixSums width streams).map toWord, (mixAbs width streams).map toWord] }

/-- The result of SUB16: a clamped difference per source sample, a missing toSubtract sample is 0,
an odd last byte 0x00 (R300 to R302). -/
def sub16Bytes (src sub : Bytes) : Bytes :=
  (List.range (src.length / 2)).flatMap
    (fun i => putLe16 (clampS16 (sle16 src (2 * i) - sampleOr0 sub i))) ++
    List.replicate (src.length % 2) 0

/-- MIX (R290). -/
def execMix (width : SampleWidth) (s : State) : Result :=
  checked .list s fun s => s.respond (mixResponse width (listArg s.operands))

/-- SUB16 (R300). -/
def execSub16 (s : State) : Result :=
  checked .bytesBytes s fun s =>
    s.respond (Response.ofBytes (sub16Bytes (bytesArg s.operands) (bytesArg2 s.operands)))

end Sys2Proof.Machine
end

