-- ==== Sys2Proof/Machine/Mulaw.lean ====
section
/-! DEFINITION. ULAW, the G.711 mu-law codec (43_mulaw.md): ULAW_ENC, ULAW_DEC and the two stream commands. The details CRTP omits are those the spec marks as general knowledge (93_implementation_defined.md G1 to G4; log 11). -/
namespace Sys2Proof.Machine

/-- The eight segment boundaries (43_mulaw.md, constants). -/
def segEnd : List Nat := [0x3F, 0x7F, 0xFF, 0x1FF, 0x3FF, 0x7FF, 0xFFF, 0x1FFF]

/-- CLIP (43_mulaw.md, constants). -/
def ulawClip : Nat := 8159

/-- BIAS = 0x84 (43_mulaw.md, constants). -/
def ulawBias : Nat := 0x84

/-- The sign mask of a shifted sample: 0x7F if negative, else 0xFF (R261). -/
def ulawMask (v : Int) : Nat := if v < 0 then 0x7F else 0xFF

/-- The clipped and biased magnitude of a shifted sample, 33 to 8192 (R261, R262). -/
def ulawMagnitude (v : Int) : Nat := min v.natAbs ulawClip + ulawBias / 4

/-- The first segment whose boundary is at least v, 8 if there is none (R263). -/
def ulawSegment (v : Nat) : Nat := segEnd.findIdx fun e => decide (v ≤ e)

/-- The byte before the sign mask: segment and quantized mantissa; a segment above 7 clips to 0x7F
(R264). -/
def ulawPack (v : Nat) : Nat :=
  if ulawSegment v = 8 then 0x7F
  else (ulawSegment v <<< 4) ||| ((v >>> (ulawSegment v + 1)) &&& 0xF)

/-- The mu-law byte of a linear sample (R260). -/
def ulawEncode (x : Int) : Byte :=
  BitVec.ofNat 8 (ulawPack (ulawMagnitude (asr x 2)) ^^^ ulawMask (asr x 2))

/-- The magnitude of a segment and a mantissa (R266). -/
def ulawExpand (seg mant : Nat) : Int :=
  asl (asl (mant : Int) 3 + ulawBias) seg - ulawBias

/-- The linear sample of a mu-law byte (R265): invert all bits; bit 7 is the sign, bits 6 to 4 the
segment, bits 3 to 0 the mantissa. -/
def ulawDecode (u : Byte) : Int :=
  let t := ~~~u
  let mag := ulawExpand (t.extractLsb' 4 3).toNat (t.extractLsb' 0 4).toNat
  if t.getLsbD 7 then -mag else mag

/-- One decoded sample in the stream's format: s16 little-endian, or 8-bit offset binary
(R115, R116, R270). -/
def pcmSample (width : SampleWidth) (s : Int) : Bytes :=
  match width with
  | .bits16 => putLe16 s
  | .bits8 => [byteOf (asr s 8 + 128) 0]

/-- ULAW_DEC_STREAM: every decoded sample once per channel (R270, R271). -/
def ulawDecodeStream (width : SampleWidth) (ch : Channels) (mu : Bytes) : Bytes :=
  mu.flatMap fun u => (List.replicate (channelCount ch) (pcmSample width (ulawDecode u))).flatten

/-- The bytes of one PCM frame: 1, 2 or 4 (R272). -/
def pcmFrameBytes (width : SampleWidth) (ch : Channels) : Nat := sampleBytes width * channelCount ch

/-- The sample of channel 0 in the PCM frame at offset k (R116, R272). -/
def pcmSampleAt (width : SampleWidth) (pcm : Bytes) (k : Nat) : Int :=
  match width with
  | .bits16 => sle16 pcm k
  | .bits8 => asl ((byteAt pcm k : Int) - 128) 8

/-- ULAW_ENC_STREAM: one mu-law byte per whole PCM frame, from channel 0 (R272, R273). -/
def ulawEncodeStream (width : SampleWidth) (ch : Channels) (pcm : Bytes) : Bytes :=
  (List.range (pcm.length / pcmFrameBytes width ch)).map fun k =>
    ulawEncode (pcmSampleAt width pcm (k * pcmFrameBytes width ch))

/-- ULAW_DEC_STREAM with its result-size check (R270, R323). -/
def ulawDecStream (width : SampleWidth) (ch : Channels) (mu : Bytes) (s : State) : State :=
  if s.params.maxOperandBytes < mu.length * channelCount ch * sampleBytes width then
    s.refuse .operandLimit
  else s.respond (Response.ofBytes (ulawDecodeStream width ch mu))

/-- ULAW_ENC (R260). -/
def execUlawEnc (x : BitVec 16) (s : State) : Result :=
  checked .none s fun s => s.respond (Response.ofValue ((ulawEncode x.toInt).setWidth 32))

/-- ULAW_DEC (R265). -/
def execUlawDec (u : Byte) (s : State) : Result :=
  checked .none s fun s => s.respond (Response.ofValue (toWord (ulawDecode u)))

/-- ULAW_ENC_STREAM (R272). -/
def execUlawEncStream (width : SampleWidth) (ch : Channels) (s : State) : Result :=
  checked .bytes s fun s =>
    s.respond (Response.ofBytes (ulawEncodeStream width ch (bytesArg s.operands)))

/-- ULAW_DEC_STREAM (R270). -/
def execUlawDecStream (width : SampleWidth) (ch : Channels) (s : State) : Result :=
  checked .bytes s fun s => ulawDecStream width ch (bytesArg s.operands) s

end Sys2Proof.Machine
end

