-- ==== Sys2Proof/Machine/Rtp.lean ====
section
/-! DEFINITION. RTP, the packet header codec (41_rtp.md): RTP_PARSE and RTP_SERIALIZE. The byte orders of sourceId differ between the two, on purpose (20_memory.md R73). -/
namespace Sys2Proof.Machine

/-- The 12-byte fixed header (R112, R182), with the fields the rest of the packet decides at 0. -/
def rtpFixedHeader (b : Bytes) : Packet :=
  let b0 := b.getD 0 0
  let b1 := b.getD 1 0
  { Packet.empty with
    version := b0.extractLsb' 6 2
    padding := b0.getLsbD 5
    extension := b0.getLsbD 4
    csrcCount := b0.extractLsb' 0 4
    marker := b1.getLsbD 7
    payloadType := b1.extractLsb' 0 7
    sequenceNumber := BitVec.ofNat 16 (be16 b 2)
    timestamp := BitVec.ofNat 32 (be32 b 4)
    sourceId := BitVec.ofNat 32 (le32 b 8) }

/-- The offset after the CSRC words, 12 + 4 × csrcCount (R113, R183). -/
def rtpCsrcEnd (p : Packet) : Nat := 12 + 4 * p.csrcCount.toNat

/-- The end of a header of length hl: truncated input, or the payload to the end of the packet
(R185, R187). -/
def rtpFinish (b : Bytes) (p : Packet) (hl : Nat) : Response :=
  if b.length < hl then Response.ofPacket .rtpTruncated Packet.empty
  else
    Response.ofPacket .ok
      { p with
        valid := true
        headerLength := BitVec.ofNat 32 hl
        payload := slice b hl b.length }

/-- The response of RTP_PARSE (R180 to R189). -/
def rtpParse (b : Bytes) : Response :=
  if b.length < rtpMinHeader then Response.ofPacket .rtpShort Packet.empty
  else
    let p := rtpFixedHeader b
    let h0 := rtpCsrcEnd p
    if p.extension then
      if b.length < h0 + 4 then Response.ofPacket .rtpTruncated Packet.empty
      else
        rtpFinish b
          { p with
            extensionHeaderId := BitVec.ofNat 16 (be16 b h0)
            extensionLengthInWords := BitVec.ofNat 16 (be16 b (h0 + 2)) }
          (h0 + 4 * be16 b (h0 + 2) + 4)
    else rtpFinish b p h0

/-- Byte 0 of the header: version, padding, extension, csrcCount (R190, R191). -/
def rtpByte0 (p : Packet) : Byte :=
  p.version ++ BitVec.ofBool p.padding ++ BitVec.ofBool p.extension ++ p.csrcCount

/-- Byte 1 of the header: marker, payloadType (R190, R191). -/
def rtpByte1 (p : Packet) : Byte := BitVec.ofBool p.marker ++ p.payloadType

/-- The bytes of a packet record: the fixed header, sourceId big-endian, then the payload; no CSRC
words and no extension header (R190 to R193). -/
def rtpBytes (p : Packet) : Bytes :=
  [rtpByte0 p, rtpByte1 p] ++ putBe16 p.sequenceNumber.toNat ++ putBe32 p.timestamp.toNat ++
    putBe32 p.sourceId.toNat ++ p.payload

/-- RTP_SERIALIZE of a record (R190). -/
def rtpSerialize (p : Packet) (s : State) : State :=
  if s.params.maxOperandBytes < 12 + p.payload.length then s.refuse .operandLimit
  else s.respond (Response.ofBytes (rtpBytes p))

/-- RTP_PARSE (R180). -/
def execRtpParse (s : State) : Result :=
  checked .bytes s fun s => s.respond (rtpParse (bytesArg s.operands))

/-- RTP_SERIALIZE (R190). -/
def execRtpSerialize (s : State) : Result :=
  checked .pkt s fun s => rtpSerialize (pktArg s.operands) s

end Sys2Proof.Machine
end

