-- ==== Sys2Proof/Machine/Dispatch.lean ====
section
/-! DEFINITION. The meaning of every command: one arm per constructor of Instr (45_control.md R322). -/
namespace Sys2Proof.Machine

def exec (i : Instr) (s : State) : Host.Outcome State Fault Refusal :=
  match i with
  | .frmFeed => Sys2Proof.Machine.execFrmFeed s
  | .frmFrame => Sys2Proof.Machine.execFrmFrame s
  | .rtpParse => Sys2Proof.Machine.execRtpParse s
  | .rtpSerialize => Sys2Proof.Machine.execRtpSerialize s
  | .jbStart interval => Sys2Proof.Machine.execJbStart interval s
  | .jbStop => Sys2Proof.Machine.execJbStop s
  | .jbAdd => Sys2Proof.Machine.execJbAdd s
  | .jbTick => Sys2Proof.Machine.execJbTick s
  | .ulawEnc sample => Sys2Proof.Machine.execUlawEnc sample s
  | .ulawDec u => Sys2Proof.Machine.execUlawDec u s
  | .ulawEncStream width channels => Sys2Proof.Machine.execUlawEncStream width channels s
  | .ulawDecStream width channels => Sys2Proof.Machine.execUlawDecStream width channels s
  | .mix width => Sys2Proof.Machine.execMix width s
  | .sub16 => Sys2Proof.Machine.execSub16 s
  | .rdReg n => Sys2Proof.Machine.execRdReg n s

end Sys2Proof.Machine
end

