-- ==== Sys2Proof/Machine/Run.lean ====
section
/-! DEFINITION. How commands reach the block and are run: the three ports (60_exceptions.md R360), the order in which pending commands are taken (20_memory.md R84, R85), reset between commands (70_reset_and_hazards.md R382), and the run of one command (45_control.md R322). -/
namespace Sys2Proof.Machine

/-! ## Ports -/

/-- The commands pending on a port, oldest first. -/
def State.portQueue (s : State) : Port → List Command
  | .producer => s.producerPort
  | .tick => s.tickPort
  | .host => s.hostPort

/-- Replace the commands pending on a port. -/
def State.setPort (s : State) (p : Port) (q : List Command) : State :=
  match p with
  | .producer => { s with producerPort := q }
  | .tick => { s with tickPort := q }
  | .host => { s with hostPort := q }

/-- An agent issues a command on a port; the outside's move, at any time (R362). -/
def State.issue (s : State) (p : Port) (c : Command) : State :=
  s.setPort p (s.portQueue p ++ [c])

/-- The ports with a pending command. -/
def pendingPorts (s : State) : List Port :=
  [Port.producer, Port.tick, Port.host].filter fun p => !(s.portQueue p).isEmpty

/-- The port served next: the only one with a pending command, or, when several have one, a port the
free value `Config.arbiter` picks among them (R85, R353; log 3). -/
def choosePort (s : State) : Option Port :=
  match pendingPorts s with
  | [] => none
  | [p] => some p
  | p :: q :: rest =>
    (p :: q :: rest)[Config.arbiter s.arbCount % (rest.length + 2)]?

/-- Take the oldest command c of port p, leaving rest: the history records it and its operands are
those the command reads (R85, R100). -/
def State.takeCommand (s : State) (p : Port) (c : Command) (rest : List Command) : State :=
  { s.setPort p rest with
    history := s.history ++ [.taken p c]
    operands := c.operands
    arbCount := s.arbCount + 1 }

/-! ## Running one command -/

/-- Run a command whose operands are in place: decode its word, refuse it if it is no command, else
run its meaning (R322). -/
def runCommand (c : Command) (s : State) : Result :=
  match decode c.word with
  | .ok i => exec i s
  | .error _ => refuseIllegalWord s

/-- Serve one pending command, or wait (R83, R84; log 4). -/
def serve (s : State) : Result :=
  match choosePort s with
  | none => .next s
  | some p =>
    match s.portQueue p with
    | [] => .next s
    | c :: rest => runCommand c (s.takeCommand p c rest)

/-! ## Reset -/

/-- Perform a reset: every element of the block goes to its reset value, the parameters stay, no
event is emitted and no earlier event is withdrawn (R380 to R382). What the agents have issued and
the block has not taken is the agents' and stays pending (log 7). -/
def State.takeReset (s : State) : State :=
  { State.resetWith s.params with
    history := s.history ++ [.reset]
    producerPort := s.producerPort
    tickPort := s.tickPort
    hostPort := s.hostPort
    arbCount := s.arbCount }

/-- A reset is asked for from outside (R382; log 7). -/
def State.askReset (s : State) : State := { s with resetPending := true }

/-! ## One step -/

/-- One step: an illegal instance is refused (R11; log 2); a reset asked for is performed, between
commands (R382); else one command is served. -/
def stepBlock (s : State) : Result :=
  if legalParams s.params = false then .refused .illegalInstance
  else if s.resetPending then .next s.takeReset
  else serve s

/-! ## The host's probe -/

/-- The command a bare word stands for when it is sent with empty operands of its command's shape;
a word that is no command is sent with none (log 6). -/
def bareCommand (w : Word) : Command :=
  { word := w
    operands :=
      match decode w with
      | .ok i => emptyOperands (shapeOf i)
      | .error _ => [] }

/-- Make a command the only pending one, with no reset pending, so that the next step takes it. -/
def State.onlyPending (s : State) (c : Command) : State :=
  { s with producerPort := [], tickPort := [], hostPort := [c], resetPending := false }

end Sys2Proof.Machine
end

