-- ==== Sys2Proof/Machine/Step.lean ====
section
/-! DEFINITION. The step function and the host's probe withFetchWord. -/
namespace Sys2Proof.Machine

/-- One step of the machine (see `stepBlock`). -/
def step (s : State) : Host.Outcome State Fault Refusal := stepBlock s

/-- The state in which the command word w, its low nbits bits, with empty operands of its command's
shape, is the only pending command, so that the next step takes and runs exactly it (log 6). -/
def State.withFetchWord (s : State) (nbits w : Nat) : State :=
  s.onlyPending (bareCommand (BitVec.ofNat 32 (w % 2 ^ nbits)))

end Sys2Proof.Machine
end

