-- ==== Sys2Proof/Machine/Assembler.lean ====
section
/-! DEFINITION. The assembler syntax of 30_encoding.md R133 and the aliases of R134: one line of text to a command and the port it is issued on. What the grammar leaves open is in log 20. -/
namespace Sys2Proof.Machine

/-! ## Tokens -/

/-- A token of a line: a run of letters, digits, '_' and '.', or one other character. -/
inductive AsmToken where
  | word (w : String)
  | sym (c : Char)
deriving DecidableEq, Repr

/-- Why a line does not assemble. -/
inductive AsmError where
  | unknownAgent
  | unknownMnemonic
  | badOperand
  | badImmediate
  | missingImmediate
deriving DecidableEq, Repr

/-- A character of a name or a number. -/
def isWordChar (c : Char) : Bool := c.isAlphanum || c == '_' || c == '.'

/-- The word collected so far, if there is one. -/
def flushWord (cur : List Char) : List AsmToken :=
  if cur.isEmpty then [] else [.word (String.ofList cur.reverse)]

/-- The tokens of a line up to its comment; blanks only separate (R133). DESIGN CHOICE (log 20): names and
numbers, the bytes of a sequence among them, are separated by a blank or another token. -/
def tokenize : List Char → List Char → List AsmToken
  | [], cur => flushWord cur
  | c :: cs, cur =>
    if c == ';' then flushWord cur
    else if isWordChar c then tokenize cs (c :: cur)
    else if c.isWhitespace then flushWord cur ++ tokenize cs []
    else flushWord cur ++ .sym c :: tokenize cs []

/-! ## Numbers -/

/-- A decimal digit's value. -/
def decDigit (c : Char) : Option Nat := if c.isDigit then some (c.toNat - 48) else none

/-- A hexadecimal digit's value. -/
def hexDigit (c : Char) : Option Nat :=
  if c.isDigit then some (c.toNat - 48)
  else if 97 ≤ c.toNat && c.toNat ≤ 102 then some (c.toNat - 87)
  else if 65 ≤ c.toNat && c.toNat ≤ 70 then some (c.toNat - 55)
  else none

/-- Digits read in a base, most significant first, onto a value. -/
def readDigits (base : Nat) (digit : Char → Option Nat) : List Char → Nat → Option Nat
  | [], acc => some acc
  | c :: cs, acc =>
    match digit c with
    | some d => readDigits base digit cs (base * acc + d)
    | none => none

/-- A decimal number of at least one digit (R133 `decimal`). -/
def readDecimal (w : String) : Option Nat :=
  if w.isEmpty then none else readDigits 10 decDigit w.toList 0

/-- A decimal number, or a hexadecimal one after "0x" (R133 `imm`, without its sign). -/
def readNumber (w : String) : Option Nat :=
  match w.toList with
  | ['0', 'x'] => none
  | '0' :: 'x' :: ds => readDigits 16 hexDigit ds 0
  | _ => readDecimal w

/-- A byte of two hexadecimal digits (R133 `hexbyte`). -/
def readHexByte (w : String) : Option Byte :=
  match w.toList with
  | [h, l] =>
    match hexDigit h, hexDigit l with
    | some a, some b => some (BitVec.ofNat 8 (16 * a + b))
    | _, _ => none
  | _ => none

/-! ## Operands -/

/-- An operand as written: a block operand or an immediate. -/
inductive AsmOperand where
  | block (o : Operand)
  | imm (v : Int)
deriving DecidableEq, Repr

/-- The opening and closing braces of a packet literal. -/
def openBrace : Char := Char.ofNat 123

def closeBrace : Char := Char.ofNat 125

/-- The bytes after '[' up to ']' (R133 `bytes`). -/
def readBytes : List AsmToken → Option (Bytes × List AsmToken)
  | .sym ']' :: rest => some ([], rest)
  | .word w :: rest =>
    match readHexByte w, readBytes rest with
    | some b, some (bs, rest') => some (b :: bs, rest')
    | _, _ => none
  | _ => none

/-- The byte sequences after '(' up to ')'; the turns bound the number of sequences. -/
def readList : Nat → List AsmToken → Option (List Bytes × List AsmToken)
  | 0, _ => none
  | turns + 1, .sym '[' :: rest =>
    match readBytes rest with
    | some (b, .sym ',' :: rest') =>
      match readList turns rest' with
      | some (bs, rest'') => some (b :: bs, rest'')
      | none => none
    | some (b, .sym ')' :: rest') => some ([b], rest')
    | _ => none
  | _ + 1, _ => none

/-- An unsigned value that fits a width, as a bit vector. -/
def fitField (width v : Nat) : Option (BitVec width) :=
  if v < 2 ^ width then some (BitVec.ofNat width v) else none

/-- A one-bit field's value. -/
def fitBool (v : Nat) : Option Bool := if v < 2 then some (v == 1) else none

/-- Set one numeric field of a packet by its name (R45, R133). -/
def setField (p : Packet) (name : String) (v : Nat) : Option Packet :=
  if name = "valid" then (fitBool v).map fun x => { p with valid := x }
  else if name = "version" then (fitField 2 v).map fun x => { p with version := x }
  else if name = "padding" then (fitBool v).map fun x => { p with padding := x }
  else if name = "extension" then (fitBool v).map fun x => { p with extension := x }
  else if name = "csrcCount" then (fitField 4 v).map fun x => { p with csrcCount := x }
  else if name = "marker" then (fitBool v).map fun x => { p with marker := x }
  else if name = "payloadType" then (fitField 7 v).map fun x => { p with payloadType := x }
  else if name = "sequenceNumber" then (fitField 16 v).map fun x => { p with sequenceNumber := x }
  else if name = "timestamp" then (fitField 32 v).map fun x => { p with timestamp := x }
  else if name = "sourceId" then (fitField 32 v).map fun x => { p with sourceId := x }
  else if name = "extensionHeaderId" then
    (fitField 16 v).map fun x => { p with extensionHeaderId := x }
  else if name = "extensionLengthInWords" then
    (fitField 16 v).map fun x => { p with extensionLengthInWords := x }
  else if name = "headerLength" then (fitField 32 v).map fun x => { p with headerLength := x }
  else none

/-- The fields of a packet literal after the opening brace: numeric fields, then the payload
(R133 `packet`); the turns bound the number of fields. DESIGN CHOICE (log 20): a field named twice takes
its later value, and a literal with the payload alone is accepted. -/
def readFields : Nat → Packet → List AsmToken → Option (Packet × List AsmToken)
  | 0, _, _ => none
  | turns + 1, p, .word name :: .sym '=' :: rest =>
    if name = "payload" then
      match rest with
      | .sym '[' :: rest' =>
        match readBytes rest' with
        | some (b, .sym c :: rest'') =>
          if c = closeBrace then some ({ p with payload := b }, rest'') else none
        | _ => none
      | _ => none
    else
      match rest with
      | .word value :: .sym ',' :: rest' =>
        match (readNumber value).bind (setField p name) with
        | some p' => readFields turns p' rest'
        | none => none
      | _ => none
  | _ + 1, _, _ => none

/-- The packet a literal starts from: every field 0, valid 1 (R133). -/
def literalPacket : Packet := { Packet.empty with valid := true }

/-- One operand at the front of the tokens (R133 `operand`). -/
def readOperand : List AsmToken → Option (AsmOperand × List AsmToken)
  | .sym '(' :: .sym ')' :: rest => some (.block (.list []), rest)
  | .sym '(' :: rest => (readList rest.length rest).map fun r => (.block (.list r.1), r.2)
  | .sym '[' :: rest => (readBytes rest).map fun r => (.block (.bytes r.1), r.2)
  | .sym '-' :: .word w :: rest => (readDecimal w).map fun n => (.imm (-(n : Int)), rest)
  | .sym c :: rest =>
    if c = openBrace then
      (readFields rest.length literalPacket rest).map fun r => (.block (.pkt r.1), r.2)
    else none
  | .word w :: rest => (readNumber w).map fun n => (.imm n, rest)
  | [] => none

/-- The operands after a mnemonic, separated by commas; the turns bound their number. -/
def readOperands : Nat → List AsmToken → Option (List AsmOperand)
  | 0, _ => none
  | turns + 1, ts =>
    match readOperand ts with
    | some (o, []) => some [o]
    | some (o, .sym ',' :: rest) => (readOperands turns rest).map (o :: ·)
    | _ => none

/-! ## Mnemonics -/

/-- How a mnemonic uses an immediate operand. -/
inductive ImmUse where
  /-- no immediate -/
  | never
  /-- an immediate for IMM16, 0 when left out (`JB_START`, R134) -/
  | optional
  /-- an immediate for IMM16 -/
  | required
  /-- the bits 8 or 16 of `mix (..), bits`, for the selector A (R134) -/
  | mixBits
deriving DecidableEq, Repr

/-- What a mnemonic stands for: its command with IMM16 0, and its use of an immediate. -/
structure AsmMnemonic where
  instr : Instr
  use : ImmUse
deriving DecidableEq, Repr

/-- The mnemonics of R133, then the aliases of R134. -/
def asmMnemonics : List (String × AsmMnemonic) :=
  [ ("FRM_FEED", ⟨.frmFeed, .never⟩), ("FRM_FRAME", ⟨.frmFrame, .never⟩),
    ("RTP_PARSE", ⟨.rtpParse, .never⟩), ("RTP_SERIALIZE", ⟨.rtpSerialize, .never⟩),
    ("JB_START", ⟨.jbStart 0, .optional⟩), ("JB_STOP", ⟨.jbStop, .never⟩),
    ("JB_ADD", ⟨.jbAdd, .never⟩), ("JB_TICK", ⟨.jbTick, .never⟩),
    ("ULAW_ENC", ⟨.ulawEnc 0, .required⟩), ("ULAW_DEC", ⟨.ulawDec 0, .required⟩),
    ("ULAW_ENC_STREAM.8.1", ⟨.ulawEncStream .bits8 .one, .never⟩),
    ("ULAW_ENC_STREAM.8.2", ⟨.ulawEncStream .bits8 .two, .never⟩),
    ("ULAW_ENC_STREAM.16.1", ⟨.ulawEncStream .bits16 .one, .never⟩),
    ("ULAW_ENC_STREAM.16.2", ⟨.ulawEncStream .bits16 .two, .never⟩),
    ("ULAW_DEC_STREAM.8.1", ⟨.ulawDecStream .bits8 .one, .never⟩),
    ("ULAW_DEC_STREAM.8.2", ⟨.ulawDecStream .bits8 .two, .never⟩),
    ("ULAW_DEC_STREAM.16.1", ⟨.ulawDecStream .bits16 .one, .never⟩),
    ("ULAW_DEC_STREAM.16.2", ⟨.ulawDecStream .bits16 .two, .never⟩),
    ("MIX.8", ⟨.mix .bits8, .never⟩), ("MIX.16", ⟨.mix .bits16, .never⟩),
    ("SUB16", ⟨.sub16, .never⟩), ("RD_REG", ⟨.rdReg 0, .required⟩),
    ("MIX16", ⟨.mix .bits16, .never⟩), ("MIX8", ⟨.mix .bits8, .never⟩),
    ("feed", ⟨.frmFeed, .never⟩), ("frame", ⟨.frmFrame, .never⟩),
    ("parse", ⟨.rtpParse, .never⟩), ("serialize", ⟨.rtpSerialize, .never⟩),
    ("start", ⟨.jbStart 0, .optional⟩), ("stop", ⟨.jbStop, .never⟩),
    ("addData", ⟨.jbAdd, .never⟩), ("tick", ⟨.jbTick, .never⟩),
    ("linearToMulaw", ⟨.ulawEnc 0, .required⟩), ("mulawToLinear", ⟨.ulawDec 0, .required⟩),
    ("mix", ⟨.mix .bits8, .mixBits⟩), ("subtract16", ⟨.sub16, .never⟩) ]

/-- The block operands of an operand list, in order. -/
def blockOperands (os : List AsmOperand) : List Operand :=
  os.filterMap fun o => match o with | .block b => some b | .imm _ => none

/-- The immediates of an operand list, in order. -/
def immediates (os : List AsmOperand) : List Int :=
  os.filterMap fun o => match o with | .block _ => none | .imm v => some v

/-- The command word of a mnemonic with an IMM16 (R101). The assembler does not check what the block
refuses: `RD_REG 6` assembles (CTL-3). -/
def wordWithImm (i : Instr) (v : Int) : Word :=
  packWord i.opcode i.selectorA i.selectorB (BitVec.ofInt 16 v)

/-- The word of a mnemonic and the immediates written. -/
def asmWord (m : AsmMnemonic) (imms : List Int) : Except AsmError Word :=
  match m.use, imms with
  | .never, [] => .ok (encode m.instr)
  | .never, _ :: _ => .error .badOperand
  | .optional, [] => .ok (encode m.instr)
  | .required, [] => .error .missingImmediate
  | .mixBits, [v] =>
    if v = 8 then .ok (encode (.mix .bits8))
    else if v = 16 then .ok (encode (.mix .bits16))
    else .error .badImmediate
  | .mixBits, _ => .error .badImmediate
  | _, [v] =>
    if -32768 ≤ v ∧ v < 65536 then .ok (wordWithImm m.instr v) else .error .badImmediate
  | _, _ :: _ :: _ => .error .badOperand

/-! ## Lines -/

/-- An assembled line: the port, the label if there is one, the command. -/
structure AsmLine where
  port : Port
  label : Option String
  command : Command
deriving DecidableEq, Repr

/-- The port an agent's name stands for (R133). -/
def portNamed (agent : String) : Option Port :=
  if agent = "producer" then some .producer
  else if agent = "tick" then some .tick
  else if agent = "host" then some .host
  else none

/-- The mnemonic and operands of a line. DESIGN CHOICE (log 20): the immediates and the block operands are
collected each in their own order, wherever they stand among the others. -/
def asmBody (port : Port) (label : Option String) : List AsmToken → Except AsmError AsmLine
  | .word m :: rest =>
    match asmMnemonics.lookup m with
    | none => .error .unknownMnemonic
    | some row =>
      match (if rest.isEmpty then some [] else readOperands rest.length rest) with
      | none => .error .badOperand
      | some os =>
        match asmWord row (immediates os) with
        | .error e => .error e
        | .ok w => .ok ⟨port, label, ⟨w, blockOperands os⟩⟩
  | _ => .error .unknownMnemonic

/-- An optional label, then the body. -/
def asmLabelled (port : Port) : List AsmToken → Except AsmError AsmLine
  | .word l :: .sym ':' :: rest => asmBody port (some l) rest
  | ts => asmBody port none ts

/-- A line: an optional `@agent`, an optional label, a mnemonic, operands, a comment (R133). Without
`@agent` the line is on the host port. -/
def assemble (line : String) : Except AsmError AsmLine :=
  match tokenize line.toList [] with
  | .sym '@' :: .word agent :: rest =>
    match portNamed agent with
    | some p => asmLabelled p rest
    | none => .error .unknownAgent
  | ts => asmLabelled .host ts

end Sys2Proof.Machine
end

