-- ==== Sys2Proof/Safety.lean ====
section
/-! DEFINITION. The terms claims are stated in: the launch premise, what a run has offered, fed and emitted, the invariants between commands (10_state.md R57), refusals (60_exceptions.md R347) and the agents' duties (R360, R362). -/
namespace Sys2Proof.Machine

/-! ## What a history says -/

/-- The launch premise `clean` (R385): the instance parameters p, every element at its value of R380, an
empty event channel and no command in progress. What earlier runs left in the history, and what the
agents have issued and the block has not taken, is free (log 23): a reset of any state leaves a clean
one. -/
structure clean (p : Params) (s : State) : Prop where
  params : s.params = p
  frmAcc : s.frmAcc = []
  jbQueue : s.jbQueue = []
  jbFilling : s.jbFilling = true
  jbOverflowing : s.jbOverflowing = false
  jbRunning : s.jbRunning = false
  jbLastPacket : s.jbLastPacket = none
  jbInterval : s.jbInterval = 20
  channel : s.channel = []
  idle : s.operands = []

/-- A command taken is this instruction. -/
def Command.isInstr (c : Command) (i : Instr) : Bool :=
  match decode c.word with
  | .ok j => decide (j = i)
  | .error _ => false

/-- The packets offered by JB_ADD commands since the last reset, in order, admitted or not (R230). -/
def offeredOf (h : List Obs) : List Packet :=
  h.foldl (fun ps o =>
    match o with
    | .taken _ c => if c.isInstr .jbAdd && shapeOk .pkt c.operands then ps ++ [pktArg c.operands] else ps
    | .reset => []
    | .event _ => ps
    | .response _ => ps) []

/-- The packets offered by JB_ADD commands since the last reset or JB_STOP, in order (R57, R222). -/
def offeredSinceStop (h : List Obs) : List Packet :=
  h.foldl (fun ps o =>
    match o with
    | .taken _ c =>
      if c.isInstr .jbAdd && shapeOk .pkt c.operands then ps ++ [pktArg c.operands]
      else if c.isInstr .jbStop && shapeOk .none c.operands then []
      else ps
    | .reset => []
    | .event _ => ps
    | .response _ => ps) []

/-- The bytes FRM_FEED commands have fed since the last reset, in order; a refused chunk is not fed
(R150, R323). -/
def fedBytes (p : Params) (h : List Obs) : Bytes :=
  h.foldl (fun bs o =>
    match o with
    | .taken _ c =>
      if c.isInstr .frmFeed && shapeOk .bytes c.operands && sizeOk p c.operands then
        bs ++ bytesArg c.operands
      else bs
    | .reset => []
    | .event _ => bs
    | .response _ => bs) []

/-- The messages of a channel, in order. -/
def messagesOf : List Event → List Bytes
  | [] => []
  | .msg m :: es => m :: messagesOf es
  | .fault _ :: es => messagesOf es
  | .data _ :: es => messagesOf es

/-- The framing faults of a channel, in order. -/
def faultsOf : List Event → List FrameFault
  | [] => []
  | .fault f :: es => f :: faultsOf es
  | .msg _ :: es => faultsOf es
  | .data _ :: es => faultsOf es

/-- No framing fault has been raised since the last reset (R159). -/
def noFramingFault (s : State) : Prop := faultsOf s.channel = []

/-- No command has been refused since the last reset: the premise R347 speaks of. -/
def noRefusal (s : State) : Prop :=
  ∀ r ∈ responsesOf s.history, r.status ≠ .illegalCommand ∧ r.status ≠ .operandLimit

/-! ## Invariants between commands -/

/-- What holds between commands in every run (R11, R32, R33, R38, R57, R385): a legal instance, a
capped FRM.acc, a capped JB.queue, a legal interval, and no command in progress. -/
structure WithinBounds (s : State) : Prop where
  legal : legalParams s.params = true
  acc : s.frmAcc.length ≤ maxBufferLength
  queue : s.jbQueue.length ≤ s.params.maxPackets + 1
  interval : s.jbInterval ≠ 0
  idle : s.operands = []

/-- JB.lastPacket is the packet of the last EV_DATA of the run (R37). -/
def LastPacketEmitted (s : State) : Prop :=
  s.jbLastPacket = (dataPackets s.channel).getLast?

/-- First in, first out: the packets emitted, followed by the packets queued, are packets offered, each
at most once and in the order offered (R33, R237). -/
def FifoOrder (s : State) : Prop :=
  (dataPackets s.channel ++ s.jbQueue).Sublist (offeredOf s.history)

/-- The queue holds only packets offered since the last stop or reset (R57). -/
def QueueSinceStop (s : State) : Prop := s.jbQueue.Sublist (offeredSinceStop s.history)

/-- While no framing fault is raised, the frames of the messages emitted, followed by FRM.acc, are the
bytes fed (R159). -/
def StreamAccounted (s : State) : Prop :=
  noFramingFault s →
    (messagesOf s.channel).flatMap frameOf ++ s.frmAcc = fedBytes s.params s.history

/-! ## The agents' contract (R360, R362): premises for claims, not checked by the block (log 13) -/

/-- The ports on which an agent of CRTP's system issues each command (R105, R360). -/
def usualPorts : Instr → List Port
  | .frmFeed => [.producer]
  | .frmFrame => [.host]
  | .rtpParse => [.producer, .host]
  | .rtpSerialize => [.host]
  | .jbStart _ => [.host]
  | .jbStop => [.host]
  | .jbAdd => [.producer]
  | .jbTick => [.tick]
  | .ulawEnc _ => [.host]
  | .ulawDec _ => [.host]
  | .ulawEncStream _ _ => [.host]
  | .ulawDecStream _ _ => [.host]
  | .mix _ => [.host]
  | .sub16 => [.host]
  | .rdReg _ => [.producer, .tick, .host]

/-- Every pending command is on a port its agent uses (R360). -/
def agentsKeepPorts (s : State) : Prop :=
  ∀ p : Port, ∀ c ∈ s.portQueue p, ∀ i, decode c.word = .ok i → p ∈ usualPorts i

/-- No pending command, on any port, is a JB_START. -/
def noStartPending (s : State) : Prop :=
  ∀ p : Port, ∀ c ∈ s.portQueue p, ∀ imm, decode c.word ≠ .ok (.jbStart imm)

/-! ## Frames -/

/-- FRM keeps its state. -/
def SameFrm (s t : State) : Prop := t.frmAcc = s.frmAcc

/-- JB keeps its state. -/
structure SameJb (s t : State) : Prop where
  queue : t.jbQueue = s.jbQueue
  filling : t.jbFilling = s.jbFilling
  overflowing : t.jbOverflowing = s.jbOverflowing
  running : t.jbRunning = s.jbRunning
  lastPacket : t.jbLastPacket = s.jbLastPacket
  interval : t.jbInterval = s.jbInterval

/-- Nothing outside the units changes: the parameters, the commands still pending, the count of
commands taken, a reset asked for. -/
structure SameOutside (s t : State) : Prop where
  params : t.params = s.params
  producerPort : t.producerPort = s.producerPort
  tickPort : t.tickPort = s.tickPort
  hostPort : t.hostPort = s.hostPort
  arbCount : t.arbCount = s.arbCount
  resetPending : t.resetPending = s.resetPending

/-- The command ended with these events and then this response, and no operand is left (R88). -/
structure Answered (s t : State) (events : List Event) (r : Response) : Prop where
  history : t.history = s.history ++ events.map .event ++ [.response r]
  operands : t.operands = []

/-! ## Sequences -/

/-- The sequential composition of commands, each with its operands (R84). -/
def execAll : List (Instr × List Operand) → State → Result
  | [], s => .next s
  | c :: cs, s =>
    match exec c.1 { s with operands := c.2 } with
    | .next t => execAll cs t
    | .fault f => .fault f
    | .refused r => .refused r

/-- FRM_FEED of each chunk, in order. -/
def feeds (chunks : List Bytes) : List (Instr × List Operand) :=
  chunks.map fun c => (.frmFeed, [.bytes c])

/-- JB_ADD of each packet, in order. -/
def adds (ps : List Packet) : List (Instr × List Operand) :=
  ps.map fun p => (.jbAdd, [.pkt p])

/-- One JB_ADD then one JB_TICK per packet (R238). -/
def addThenTick (ps : List Packet) : List (Instr × List Operand) :=
  ps.flatMap fun p => [(.jbAdd, [.pkt p]), (.jbTick, [])]

/-- The commands that hold no state and read none but their operands (R41, R81). -/
def isStateless : Instr → Bool
  | .frmFrame => true
  | .rtpParse => true
  | .rtpSerialize => true
  | .ulawEnc _ => true
  | .ulawDec _ => true
  | .ulawEncStream _ _ => true
  | .ulawDecStream _ _ => true
  | .mix _ => true
  | .sub16 => true
  | .frmFeed => false
  | .jbStart _ => false
  | .jbStop => false
  | .jbAdd => false
  | .jbTick => false
  | .rdReg _ => false

/-- The commands of the JB unit (R81). -/
def isJb : Instr → Bool
  | .jbStart _ => true
  | .jbStop => true
  | .jbAdd => true
  | .jbTick => true
  | .frmFeed => false
  | .frmFrame => false
  | .rtpParse => false
  | .rtpSerialize => false
  | .ulawEnc _ => false
  | .ulawDec _ => false
  | .ulawEncStream _ _ => false
  | .ulawDecStream _ _ => false
  | .mix _ => false
  | .sub16 => false
  | .rdReg _ => false

/-! ## RTP headers as a reader of the bytes sees them (R112, R113) -/

/-- csrcCount, byte 0 bits 3 to 0. -/
def headerCsrc (b : Bytes) : Nat := byteAt b 0 % 16

/-- extension, byte 0 bit 4. -/
def headerExtension (b : Bytes) : Bool := decide (byteAt b 0 / 16 % 2 = 1)

/-- The offset of the extension header, or of the payload without one (R113). -/
def headerBase (b : Bytes) : Nat := 12 + 4 * headerCsrc b

/-- The extension header does not fit, or the whole header does not (R187). -/
def headerTruncated (b : Bytes) : Bool :=
  if headerExtension b then
    decide (b.length < headerBase b + 4) ||
      decide (b.length < headerBase b + 4 + 4 * be16 b (headerBase b + 2))
  else decide (b.length < headerBase b)

/-- The length of the header its own fields describe (R113, R184). -/
def headerEnd (b : Bytes) : Nat :=
  if headerExtension b then headerBase b + 4 + 4 * be16 b (headerBase b + 2) else headerBase b

end Sys2Proof.Machine
end

