-- ==== Sys2Proof/Certificates/Slice0/Obligations.lean ====
section
/-! DEFINITION. The statements for the provers. Each docstring names the rules of spec/ it formalises. A statement about every state holds for every instance, since the parameters are data of the state. -/

open Sys2Proof Sys2Proof.Machine

/-! ## Encoding (30_encoding.md) -/

/-- Every command the opcode map holds is read back from its own word, with every field at every value
(R101, R105, R108). -/
def Obligations.DecodeOfEncodeIsIdentity : Prop :=
  ∀ i : Instr, i.wellFormed = true → decode (encode i) = .ok i

/-- A word that decodes is the word its command encodes to, so each legal word has one meaning and no
bit of it is dropped (R101, R105). -/
def Obligations.EncodeOfDecodeIsIdentity : Prop :=
  ∀ (w : Word) (i : Instr), decode w = .ok i → encode i = w ∧ i.wellFormed = true

/-- R106: a word is a command exactly when it matches that command's row, with RD_REG's IMM16 at
most 5. -/
def Obligations.DecodeFollowsMatchAndMask : Prop :=
  ∀ (w : Word) (name : String),
    (∃ i, decode w = .ok i ∧ i.mnemonic = name) ↔
      ∃ r ∈ opcodeTable, r.mnemonic = name ∧ r.holds w = true

/-- R107: every word matches exactly one row or is illegal, no two rows overlap, and a wrong operand
list is refused as ILLEGAL_COMMAND. -/
def Obligations.DecodingIsTotalAndUnambiguous : Prop :=
  (∀ w : Word, (∃ r ∈ opcodeTable, r.holds w = true ∧
        (∀ r' ∈ opcodeTable, r'.holds w = true → r' = r) ∧
        ∃ i, decode w = .ok i ∧ i.mnemonic = r.mnemonic) ∨
      ((∀ r ∈ opcodeTable, r.holds w = false) ∧ ∃ e, decode w = .error e)) ∧
  (∀ (w : Word), ∀ r ∈ opcodeTable, ∀ r' ∈ opcodeTable,
      w &&& r.mask = r.pattern → w &&& r'.mask = r'.pattern → r' = r) ∧
  (∀ (i : Instr) (s : State), shapeOk (shapeOf i) s.operands = false →
      exec i s = .next (s.refuse .illegalCommand))

/-- Words written out from R106 and the test vectors decode to the commands they stand for. -/
def Obligations.SampleWordsDecode : Prop :=
  decode 0x00000001 = .ok .frmFeed ∧
  decode 0x00000011 = .ok .rtpSerialize ∧
  decode 0x00280020 = .ok (.jbStart 40) ∧
  decode 0x80000030 = .ok (.ulawEnc 0x8000) ∧
  decode 0x004E0031 = .ok (.ulawDec 0x4E) ∧
  decode 0x00001132 = .ok (.ulawEncStream .bits16 .two) ∧
  decode 0x00000133 = .ok (.ulawDecStream .bits16 .one) ∧
  decode 0x00000140 = .ok (.mix .bits16) ∧
  decode 0x000500F0 = .ok (.rdReg 5) ∧
  decode 0x000600F0 = .error (.reservedRegister 6)

/-- R134: each alias assembles to what it expands to; an operand-free JB_START has interval 0, and
`mix (..), bits` takes its width from the immediate. -/
def Obligations.AliasesExpand : Prop :=
  (∀ pair ∈ [("MIX16", "MIX.16"), ("MIX8", "MIX.8"), ("feed", "FRM_FEED"), ("frame", "FRM_FRAME"),
      ("parse", "RTP_PARSE"), ("serialize", "RTP_SERIALIZE"), ("start", "JB_START"),
      ("stop", "JB_STOP"), ("addData", "JB_ADD"), ("tick", "JB_TICK"),
      ("linearToMulaw", "ULAW_ENC"), ("mulawToLinear", "ULAW_DEC"), ("subtract16", "SUB16")],
    ∃ m, asmMnemonics.lookup pair.1 = some m ∧ asmMnemonics.lookup pair.2 = some m) ∧
  (∃ m, asmMnemonics.lookup "JB_START" = some m ∧ asmWord m [] = asmWord m [0]) ∧
  (∃ m, asmMnemonics.lookup "mix" = some m ∧ asmWord m [8] = .ok (encode (.mix .bits8)) ∧
    asmWord m [16] = .ok (encode (.mix .bits16)))

/-! ## Dispatch (45_control.md) and the step -/

/-- When a command is pending, no reset is asked for and the instance is legal, a step takes the oldest
command of a port with one pending and, if its word decodes to i, is exec of i on that state. -/
def Obligations.StepRunsDecodedCommand : Prop :=
  ∀ (s : State) (p : Port) (c : Command) (rest : List Command) (i : Instr),
    legalParams s.params = true → s.resetPending = false →
    choosePort s = some p → s.portQueue p = c :: rest → decode c.word = .ok i →
    step s = exec i (s.takeCommand p c rest)

/-- R85: a step that serves a command takes the oldest one of some port, leaves the other ports as they
are, and some port is served whenever one has a command pending. -/
def Obligations.StepKeepsIssueOrder : Prop :=
  ∀ s : State, legalParams s.params = true → s.resetPending = false →
    (∃ p, s.portQueue p ≠ []) →
    ∃ (p : Port) (c : Command) (rest : List Command) (t : State),
      s.portQueue p = c :: rest ∧ step s = .next t ∧ t.portQueue p = rest ∧
      (∀ p', p' ≠ p → t.portQueue p' = s.portQueue p') ∧
      ∃ (events : List Event) (r : Response), t.history =
        s.history ++ [.taken p c] ++ events.map .event ++ [.response r]

/-- R128: a pending command whose word is outside the opcode map is refused with ILLEGAL_COMMAND, no
change of the block's state and no event. -/
def Obligations.IllegalWordIsRefused : Prop :=
  ∀ (s : State) (p : Port) (c : Command) (rest : List Command) (e : DecodeError),
    legalParams s.params = true → s.resetPending = false →
    choosePort s = some p → s.portQueue p = c :: rest → decode c.word = .error e →
    ∃ t, step s = .next t ∧ SameFrm s t ∧ SameJb s t ∧ t.params = s.params ∧
      t.resetPending = false ∧ t.operands = [] ∧
      t.history = s.history ++ [.taken p c] ++ [.response (Response.ofStatus .illegalCommand)]

/-- R323: a command of the right shape with an operand over the instance's limits is refused with
OPERAND_LIMIT, before its own rule; nothing else changes. -/
def Obligations.OversizeOperandIsRefused : Prop :=
  ∀ (i : Instr) (s : State), shapeOk (shapeOf i) s.operands = true →
    ((∃ b, .bytes b ∈ s.operands ∧ s.params.maxOperandBytes < b.length) ∨
     (∃ q, .pkt q ∈ s.operands ∧ s.params.maxOperandBytes < q.payload.length) ∨
     (∃ l, .list l ∈ s.operands ∧ (s.params.maxStreams < l.length ∨
        ∃ b ∈ l, s.params.maxOperandBytes < b.length))) →
    exec i s = .next
      { s with operands := [],
               history := s.history ++ [.response (Response.ofStatus .operandLimit)] }

/-- R88, R89, R346: every command, with any operands in any state, completes: its events, in order, and
then one response, are added to the history; no operand is left, and what is pending is untouched. -/
def Obligations.EveryCommandAnswersOnce : Prop :=
  ∀ (i : Instr) (s : State), ∃ t events r,
    exec i s = .next t ∧ Answered s t events r ∧ SameOutside s t

/-- R41, R81, R82: a stateless command writes no state, emits no event, and its response depends on its
operands alone. -/
def Obligations.StatelessCommandsOnlyAnswer : Prop :=
  ∀ (i : Instr) (s u : State), isStateless i = true → u.operands = s.operands →
    u.params = s.params →
    ∃ r t v, exec i s = .next t ∧ exec i u = .next v ∧
      Answered s t [] r ∧ Answered u v [] r ∧
      SameFrm s t ∧ SameJb s t ∧ SameOutside s t

/-- R81, R86: FRM_FEED changes only FRM.acc and the history; the JB commands change only JB state and
the history; RD_REG changes only the history. -/
def Obligations.UnitsTouchOnlyTheirState : Prop :=
  (∀ s, ∃ t events r, exec .frmFeed s = .next t ∧ SameJb s t ∧ SameOutside s t ∧
      Answered s t events r ∧ dataPackets events = []) ∧
  (∀ i s, isJb i = true → ∃ t events r, exec i s = .next t ∧ SameFrm s t ∧ SameOutside s t ∧
      Answered s t events r ∧ messagesOf events = [] ∧ faultsOf events = []) ∧
  (∀ n s, ∃ t r, exec (.rdReg n) s = .next t ∧ SameFrm s t ∧ SameJb s t ∧ SameOutside s t ∧
      Answered s t [] r)

/-- R86: an FRM_FEED and a JB command commute: in either order they reach the same FRM and JB state and
put the same messages, faults and packets on the channel. -/
def Obligations.FramerAndJitterCommute : Prop :=
  ∀ (i : Instr) (ops fops : List Operand) (s : State), isJb i = true →
    ∃ t u, execAll [(.frmFeed, fops), (i, ops)] s = .next t ∧
      execAll [(i, ops), (.frmFeed, fops)] s = .next u ∧
      SameFrm t u ∧ SameJb t u ∧ SameOutside t u ∧
      messagesOf t.channel = messagesOf u.channel ∧ faultsOf t.channel = faultsOf u.channel ∧
      dataPackets t.channel = dataPackets u.channel

/-! ## Control and reset -/

/-- R320, R43: the value of each register, at every state; nothing but the response is added. -/
def Obligations.RdRegReturnsTheRegister : Prop :=
  ∀ s : State, s.operands = [] →
    let answer := fun v : Word =>
      { s with operands := [], history := s.history ++ [.response (Response.ofValue v)] }
    exec (.rdReg 0) s = .next (answer (BitVec.ofNat 32 s.frmAcc.length)) ∧
    (∃ v : Word, exec (.rdReg 1) s = .next (answer v) ∧
      v.getLsbD 0 = s.jbFilling ∧ v.getLsbD 1 = s.jbOverflowing ∧ v.getLsbD 2 = s.jbRunning ∧
      v.getLsbD 3 = decide (s.jbLastPacket ≠ none) ∧
      (v.getLsbD 4 = true ↔ ∃ p, s.jbLastPacket = some p ∧ 0 < p.payload.length) ∧
      ∀ k, 5 ≤ k → v.getLsbD k = false) ∧
    exec (.rdReg 2) s = .next (answer (BitVec.ofNat 32 s.jbQueue.length)) ∧
    exec (.rdReg 3) s = .next (answer (BitVec.ofNat 32 s.params.maxPackets)) ∧
    exec (.rdReg 4) s = .next (answer (BitVec.ofNat 32 s.jbInterval.toNat)) ∧
    exec (.rdReg 5) s = .next (answer 10000)

/-- R321: RD_REG of a register number 6 to 65535 is refused with ILLEGAL_COMMAND, in exec and already in
the decoder; no state changes. -/
def Obligations.ReservedRegisterIsRefused : Prop :=
  ∀ (n : BitVec 16) (s : State), 6 ≤ n.toNat →
    exec (.rdReg n) s = .next
      { s with operands := [],
               history := s.history ++ [.response (Response.ofStatus .illegalCommand)] } ∧
    (∃ e, decode (encode (.rdReg n)) = .error e)

/-- R380, R56: the value of every state element after reset, for every instance. -/
def Obligations.ResetLeavesTheResetValues : Prop :=
  ∀ p : Params,
    (State.resetWith p).frmAcc = [] ∧ (State.resetWith p).jbQueue = [] ∧
    (State.resetWith p).jbFilling = true ∧ (State.resetWith p).jbOverflowing = false ∧
    (State.resetWith p).jbRunning = false ∧ (State.resetWith p).jbLastPacket = none ∧
    (State.resetWith p).jbInterval.toNat = 20 ∧
    (State.resetWith p).params.maxPackets = p.maxPackets ∧
    (State.resetWith p).channel = []

/-- R382: a reset asked for is performed by the next step, between commands: every element goes to its
reset value, no event is emitted or withdrawn, and the parameters stay (R381). That the commands still
pending stay pending is the model's choice (log 7). -/
def Obligations.ResetDiscardsWithoutEvents : Prop :=
  ∀ s : State, legalParams s.params = true → s.resetPending = true →
    ∃ t, step s = .next t ∧ t.history = s.history ++ [.reset] ∧ t.channel = [] ∧
      t = { State.resetWith s.params with
            history := t.history, producerPort := s.producerPort, tickPort := s.tickPort,
            hostPort := s.hostPort, arbCount := s.arbCount }

/-- R383: what RD_REG gives right after reset, for every legal instance. -/
def Obligations.RegistersAfterReset : Prop :=
  ∀ p : Params, legalParams p = true →
    let answers := fun (n : BitVec 16) (v : Nat) => ∃ t, exec (.rdReg n) (State.resetWith p) = .next t ∧
      t.history = [.response (Response.ofValue (BitVec.ofNat 32 v))]
    answers 0 0 ∧ answers 1 1 ∧ answers 2 0 ∧ answers 3 p.maxPackets ∧ answers 4 20 ∧
    answers 5 10000

/-- R11: an instance whose parameters are not legal is refused; with fewer than 2 packets of capacity
it is not legal. The bounds on the other two parameters are R13, R14 and R160 (log 2). -/
def Obligations.IllegalInstanceIsRefused : Prop :=
  (∀ s : State, legalParams s.params = false ↔ step s = .refused .illegalInstance) ∧
  (∀ p : Params, legalParams p = true ↔
    2 ≤ p.maxPackets ∧ p.maxPackets ≤ 65535 ∧ 10004 ≤ p.maxOperandBytes ∧
    p.maxOperandBytes < 2 ^ 31 ∧ 2 ≤ p.maxStreams)

/-- With nothing pending the block waits: the state stays as it is. The model's choice (log 4). -/
def Obligations.IdleStepWaits : Prop :=
  ∀ s : State, legalParams s.params = true → s.resetPending = false →
    (∀ p, s.portQueue p = []) → step s = .next s

/-! ## FRM (40_framer.md) -/

/-- R151: an append that makes FRM.acc longer than 10000 bytes clears it, emits nothing from it and
raises BUF_OVERFLOW; an append that does not, does not. -/
def Obligations.FeedOverflowClears : Prop :=
  ∀ (s : State) (chunk : Bytes), s.operands = [.bytes chunk] →
    chunk.length ≤ s.params.maxOperandBytes →
    (10000 < s.frmAcc.length + chunk.length →
      exec .frmFeed s = .next
        { s with frmAcc := [], operands := [],
                 history := s.history ++
                   [.event (.fault .bufOverflow), .response (Response.ofStatus .ok)] }) ∧
    (s.frmAcc.length + chunk.length ≤ 10000 →
      ∃ t events, exec .frmFeed s = .next t ∧ Answered s t events (Response.ofStatus .ok) ∧
        .fault .bufOverflow ∉ events)

/-- R152: after an append that does not overflow, fewer than 4 bytes are kept as a partial prefix;
otherwise the first length is read, and LEN_TOO_BIG is raised exactly when it is above 10000. -/
def Obligations.FeedReadsTheFirstLength : Prop :=
  ∀ (s : State) (chunk : Bytes), s.operands = [.bytes chunk] →
    chunk.length ≤ s.params.maxOperandBytes → (s.frmAcc ++ chunk).length ≤ 10000 →
    ((s.frmAcc ++ chunk).length < 4 →
      exec .frmFeed s = .next
        { s with frmAcc := s.frmAcc ++ chunk, operands := [],
                 history := s.history ++ [.response (Response.ofStatus .ok)] }) ∧
    (4 ≤ (s.frmAcc ++ chunk).length → 10000 < sle32 (s.frmAcc ++ chunk) 0 →
      exec .frmFeed s = .next
        { s with frmAcc := [], operands := [],
                 history := s.history ++
                   [.event (.fault .lenTooBig), .response (Response.ofStatus .ok)] }) ∧
    (4 ≤ (s.frmAcc ++ chunk).length → sle32 (s.frmAcc ++ chunk) 0 ≤ 10000 →
      ∃ t events, exec .frmFeed s = .next t ∧ Answered s t events (Response.ofStatus .ok) ∧
        .fault .lenTooBig ∉ events)

/-- R153: when the appended bytes are whole frames followed by an incomplete one, FRM_FEED emits every
whole frame's payload in stream order and keeps the rest. A rest whose length is above 10000 is kept
too, if it is not the first length read (R155). -/
def Obligations.FeedEmitsEveryCompleteFrame : Prop :=
  ∀ (s : State) (chunk rest : Bytes) (msgs : List Bytes), s.operands = [.bytes chunk] →
    chunk.length ≤ s.params.maxOperandBytes → (s.frmAcc ++ chunk).length ≤ 10000 →
    s.frmAcc ++ chunk = msgs.flatMap frameOf ++ rest →
    (rest.length < 4 ∨
      ((rest.length : Int) < sle32 rest 0 + 4 ∧ (msgs = [] → sle32 rest 0 ≤ 10000))) →
    exec .frmFeed s = .next
      { s with frmAcc := rest, operands := [],
               history := s.history ++ msgs.map (fun m => Obs.event (.msg m)) ++
                 [.response (Response.ofStatus .ok)] }

/-- R154, R156: a negative length, at the first read or after whole frames, raises NEG_LENGTH: FRM.acc is
cleared, and the messages already emitted stay, before the fault. -/
def Obligations.FeedNegativeLengthFaults : Prop :=
  ∀ (s : State) (chunk rest : Bytes) (msgs : List Bytes), s.operands = [.bytes chunk] →
    chunk.length ≤ s.params.maxOperandBytes → (s.frmAcc ++ chunk).length ≤ 10000 →
    s.frmAcc ++ chunk = msgs.flatMap frameOf ++ rest →
    4 ≤ rest.length → sle32 rest 0 < 0 →
    exec .frmFeed s = .next
      { s with frmAcc := [], operands := [],
               history := s.history ++ msgs.map (fun m => Obs.event (.msg m)) ++
                 [.event (.fault .negLength), .response (Response.ofStatus .ok)] }

/-- R155: a length above 10000 read after an emitted message stays in FRM.acc without a fault, and the
next FRM_FEED, even of an empty chunk, clears it with BUF_OVERFLOW or LEN_TOO_BIG. -/
def Obligations.RereadLengthIsCaughtNextFeed : Prop :=
  ∀ (s : State) (chunk next rest : Bytes) (m : Bytes) (msgs : List Bytes),
    chunk.length ≤ s.params.maxOperandBytes → next.length ≤ s.params.maxOperandBytes →
    (s.frmAcc ++ chunk).length ≤ 10000 →
    s.frmAcc ++ chunk = (m :: msgs).flatMap frameOf ++ rest →
    4 ≤ rest.length → 10000 < sle32 rest 0 →
    (∃ t, execAll [(.frmFeed, [.bytes chunk])] s = .next t ∧ t.frmAcc = rest ∧
      faultsOf t.channel = faultsOf s.channel ∧
      messagesOf t.channel = messagesOf s.channel ++ m :: msgs) ∧
    (∃ u, execAll [(.frmFeed, [.bytes chunk]), (.frmFeed, [.bytes next])] s = .next u ∧
      u.frmAcc = [] ∧ messagesOf u.channel = messagesOf s.channel ++ m :: msgs ∧
      faultsOf u.channel = faultsOf s.channel ++
        [if 10000 < rest.length + next.length then .bufOverflow else .lenTooBig])

/-- R111, R151, R352, R158: whatever is fed in whatever state, FRM_FEED ends with status OK and at most
one fault, as its last event; after a fault FRM.acc is empty; it never holds more than 10000 bytes, and
no message is longer than 9996 bytes. -/
def Obligations.FeedEventsAndCap : Prop :=
  ∀ (s : State) (chunk : Bytes), s.operands = [.bytes chunk] →
    chunk.length ≤ s.params.maxOperandBytes →
    ∃ (t : State) (msgs : List Bytes) (fault : Option FrameFault),
      exec .frmFeed s = .next t ∧
      Answered s t (msgs.map .msg ++ fault.toList.map .fault) (Response.ofStatus .ok) ∧
      (fault ≠ none → t.frmAcc = []) ∧ t.frmAcc.length ≤ 10000 ∧
      (∀ m ∈ msgs, m.length ≤ 9996) ∧ SameJb s t ∧ SameOutside s t

/-- R159: cutting a stream into chunks in two ways gives the same messages and the same FRM.acc, when
neither way raises a framing fault: the messages are the payloads of the complete frames at the front of
the stream, in order, and FRM.acc is the rest, which starts with no complete frame. -/
def Obligations.ChunkingDoesNotChangeMessages : Prop :=
  ∀ (s t u : State) (cs ds : List Bytes), s.frmAcc = [] →
    (∀ c ∈ cs, c.length ≤ s.params.maxOperandBytes) →
    (∀ d ∈ ds, d.length ≤ s.params.maxOperandBytes) → cs.flatten = ds.flatten →
    execAll (feeds cs) s = .next t → execAll (feeds ds) s = .next u →
    faultsOf t.channel = faultsOf s.channel → faultsOf u.channel = faultsOf s.channel →
    messagesOf t.channel = messagesOf u.channel ∧ t.frmAcc = u.frmAcc ∧
    ∃ msgs, messagesOf t.channel = messagesOf s.channel ++ msgs ∧
      cs.flatten = msgs.flatMap frameOf ++ t.frmAcc ∧
      (t.frmAcc.length < 4 ∨ (t.frmAcc.length : Int) < sle32 t.frmAcc 0 + 4)

/-- R160: FRM_FRAME answers the payload's length as a non-negative little-endian s32, then the payload,
and reads and writes no state; only a frame over MAX_OPERAND_BYTES is refused. -/
def Obligations.FrameBuildsPrefixAndPayload : Prop :=
  ∀ (s : State) (payload : Bytes), legalParams s.params = true → s.operands = [.bytes payload] →
    (payload.length + 4 ≤ s.params.maxOperandBytes →
      ∃ f, exec .frmFrame s = .next
          { s with operands := [], history := s.history ++ [.response (Response.ofBytes f)] } ∧
        f.length = payload.length + 4 ∧ sle32 f 0 = payload.length ∧ f.drop 4 = payload) ∧
    (s.params.maxOperandBytes < payload.length + 4 →
      exec .frmFrame s = .next
        { s with operands := [],
                 history := s.history ++ [.response (Response.ofStatus .operandLimit)] })

/-- R161: from an empty FRM.acc, FRM_FEED of what FRM_FRAME answers for p emits exactly p when p has at
most 9996 bytes, and otherwise no message and a BUF_OVERFLOW; either way FRM.acc is empty after. -/
def Obligations.FeedOfFrameRoundTrip : Prop :=
  ∀ (s : State) (p f : Bytes) (a : State), legalParams s.params = true → s.frmAcc = [] →
    exec .frmFrame { s with operands := [.bytes p] } = .next a →
    a.history = s.history ++ [.response (Response.ofBytes f)] →
    exec .frmFeed { s with operands := [.bytes f] } = .next
      { s with frmAcc := [], operands := [],
               history := s.history ++
                 [if p.length ≤ 9996 then .event (.msg p) else .event (.fault .bufOverflow),
                  .response (Response.ofStatus .ok)] }

/-- R162: the frame of a payload longer than 10000 bytes, fed from an empty FRM.acc in any chunking, never
yields that payload as a message. -/
def Obligations.OversizePayloadIsNeverDelivered : Prop :=
  ∀ (s : State) (p : Bytes) (cs : List Bytes), s.frmAcc = [] → 10000 < p.length →
    (∀ c ∈ cs, c.length ≤ s.params.maxOperandBytes) → cs.flatten = frameOf p →
    ∃ t msgs, execAll (feeds cs) s = .next t ∧
      messagesOf t.channel = messagesOf s.channel ++ msgs ∧ p ∉ msgs

/-! ## RTP (41_rtp.md) -/

/-- R181: fewer than 12 bytes give the empty/default packet with RTP_SHORT; exactly 12 bytes are a full
header, with an empty payload when it describes no more. R187: at least 12 bytes that are fewer than the
header they describe give the empty/default packet with RTP_TRUNCATED. -/
def Obligations.ParseShortAndTruncatedInput : Prop :=
  ∀ (s : State) (b : Bytes), s.operands = [.bytes b] → b.length ≤ s.params.maxOperandBytes →
    (b.length < 12 →
      exec .rtpParse s = .next
        { s with operands := [],
                 history := s.history ++ [.response (Response.ofPacket .rtpShort Packet.empty)] }) ∧
    (b.length = 12 → headerCsrc b = 0 → headerExtension b = false →
      ∃ p, exec .rtpParse s = .next
          { s with operands := [], history := s.history ++ [.response (Response.ofPacket .ok p)] } ∧
        p.valid = true ∧ p.payload = []) ∧
    (12 ≤ b.length → headerTruncated b = true →
      exec .rtpParse s = .next
        { s with operands := [],
                 history := s.history ++
                   [.response (Response.ofPacket .rtpTruncated Packet.empty)] })

/-- R182 to R186, R188, R189: every other input parses: each field of the record as a reader of the bytes
sees it, CSRC words and extension data skipped, everything after the header kept as the payload. -/
def Obligations.ParseReadsEveryField : Prop :=
  ∀ (s : State) (b : Bytes), s.operands = [.bytes b] → b.length ≤ s.params.maxOperandBytes →
    12 ≤ b.length → headerTruncated b = false →
    ∃ p, exec .rtpParse s = .next
        { s with operands := [], history := s.history ++ [.response (Response.ofPacket .ok p)] } ∧
      p.valid = true ∧
      p.version.toNat = byteAt b 0 / 64 ∧
      p.padding = decide (byteAt b 0 / 32 % 2 = 1) ∧
      p.extension = headerExtension b ∧
      p.csrcCount.toNat = headerCsrc b ∧
      p.marker = decide (128 ≤ byteAt b 1) ∧
      p.payloadType.toNat = byteAt b 1 % 128 ∧
      p.sequenceNumber.toNat = be16 b 2 ∧
      p.timestamp.toNat = be32 b 4 ∧
      p.sourceId.toNat = le32 b 8 ∧
      p.extensionHeaderId.toNat = (if headerExtension b then be16 b (headerBase b) else 0) ∧
      p.extensionLengthInWords.toNat =
        (if headerExtension b then be16 b (headerBase b + 2) else 0) ∧
      p.headerLength.toNat = headerEnd b ∧
      p.payload = b.drop (headerEnd b)

/-- R48: the header length and the payload of every record RTP_PARSE returns as valid add up to the
input. -/
def Obligations.ParsedLengthsAddUp : Prop :=
  ∀ (b : Bytes), (rtpParse b).pkt.valid = true →
    (rtpParse b).pkt.headerLength.toNat + (rtpParse b).pkt.payload.length = b.length

/-- R190 to R193, R114: RTP_SERIALIZE writes the 12 bytes of the fixed header, sourceId big-endian, then
the payload, whatever csrcCount, extension, valid, headerLength and the extension fields say; only a
result over MAX_OPERAND_BYTES is refused. -/
def Obligations.SerializeWritesTheHeader : Prop :=
  ∀ (s : State) (p : Packet), s.operands = [.pkt p] →
    p.payload.length ≤ s.params.maxOperandBytes →
    (12 + p.payload.length ≤ s.params.maxOperandBytes →
      ∃ f, exec .rtpSerialize s = .next
          { s with operands := [], history := s.history ++ [.response (Response.ofBytes f)] } ∧
        f.length = 12 + p.payload.length ∧
        byteAt f 0 = 64 * p.version.toNat + 32 * p.padding.toNat + 16 * p.extension.toNat +
          p.csrcCount.toNat ∧
        byteAt f 1 = 128 * p.marker.toNat + p.payloadType.toNat ∧
        be16 f 2 = p.sequenceNumber.toNat ∧ be32 f 4 = p.timestamp.toNat ∧
        be32 f 8 = p.sourceId.toNat ∧ f.drop 12 = p.payload) ∧
    (s.params.maxOperandBytes < 12 + p.payload.length →
      exec .rtpSerialize s = .next
        { s with operands := [],
                 history := s.history ++ [.response (Response.ofStatus .operandLimit)] })

/-- R194: RTP_PARSE of what RTP_SERIALIZE answers for a record with csrcCount 0 and extension 0 gives the
record back, with valid 1, header length 12, extension fields 0, and the four bytes of sourceId
reversed. -/
def Obligations.ParseOfSerializeReversesSourceId : Prop :=
  ∀ (s : State) (p : Packet), p.csrcCount = 0 → p.extension = false →
    12 + p.payload.length ≤ s.params.maxOperandBytes →
    let answered := fun r =>
      { s with operands := [], history := s.history ++ [.response r] }
    ∃ (f : Bytes) (q : Packet),
      exec .rtpSerialize { s with operands := [.pkt p] } = .next (answered (Response.ofBytes f)) ∧
      exec .rtpParse { s with operands := [.bytes f] } =
        .next (answered (Response.ofPacket .ok q)) ∧
      q = { p with
            valid := true, headerLength := 12, extensionHeaderId := 0, extensionLengthInWords := 0,
            sourceId := p.sourceId.extractLsb' 0 8 ++ p.sourceId.extractLsb' 8 8 ++
              p.sourceId.extractLsb' 16 8 ++ p.sourceId.extractLsb' 24 8 }

/-- R195: RTP_SERIALIZE of what RTP_PARSE accepts with csrcCount 0 and extension 0 gives the input with
bytes 8 to 11 reversed; a second round of both gives the input back. -/
def Obligations.SerializeOfParseReversesSourceId : Prop :=
  ∀ (s : State) (b : Bytes) (q : Packet),
    let answered := fun r =>
      { s with operands := [], history := s.history ++ [.response r] }
    exec .rtpParse { s with operands := [.bytes b] } = .next (answered (Response.ofPacket .ok q)) →
    q.csrcCount = 0 → q.extension = false →
    ∃ (f : Bytes) (q2 : Packet), f = b.take 8 ++ (slice b 8 12).reverse ++ b.drop 12 ∧
      exec .rtpSerialize { s with operands := [.pkt q] } = .next (answered (Response.ofBytes f)) ∧
      exec .rtpParse { s with operands := [.bytes f] } =
        .next (answered (Response.ofPacket .ok q2)) ∧
      exec .rtpSerialize { s with operands := [.pkt q2] } = .next (answered (Response.ofBytes b))

/-! ## JB (42_jitter.md) -/

/-- R220, R221: JB_START sets the interval (0 stands for 20), running and filling, and nothing else. -/
def Obligations.StartArmsAndFills : Prop :=
  ∀ (imm : BitVec 16) (s : State), s.operands = [] →
    exec (.jbStart imm) s = .next
      { s with jbInterval := if imm = 0 then 20 else imm, jbRunning := true, jbFilling := true,
               operands := [], history := s.history ++ [.response (Response.ofStatus .ok)] }

/-- R222, R223: JB_STOP clears running, empties the queue and emits nothing; the flags, the last packet
and the interval stay. -/
def Obligations.StopDiscardsTheQueue : Prop :=
  ∀ s : State, s.operands = [] →
    exec .jbStop s = .next
      { s with jbRunning := false, jbQueue := [], operands := [],
               history := s.history ++ [.response (Response.ofStatus .ok)] }

/-- R230, R231: JB_ADD appends when not overflowing with at most MAX_PACKETS queued, else it drops and
sets overflowing; the response is the same, and neither running nor the packet's fields matter. -/
def Obligations.AddAppendsOrDrops : Prop :=
  ∀ (s : State) (p : Packet), s.operands = [.pkt p] →
    p.payload.length ≤ s.params.maxOperandBytes →
    (s.jbOverflowing = false ∧ s.jbQueue.length ≤ s.params.maxPackets →
      exec .jbAdd s = .next
        { s with jbQueue := s.jbQueue ++ [p], operands := [],
                 history := s.history ++ [.response (Response.ofStatus .ok)] }) ∧
    (s.jbOverflowing = true ∨ s.params.maxPackets < s.jbQueue.length →
      exec .jbAdd s = .next
        { s with jbOverflowing := true, operands := [],
                 history := s.history ++ [.response (Response.ofStatus .ok)] })

/-- R232 to R236: a tick while stopped does nothing. While running: overflowing is cleared when at most H
packets are queued before the tick's own dequeue; a filling buffer below H emits nothing; otherwise the oldest packet is emitted and
remembered and filling is cleared; on an empty queue overflowing is cleared and filling re-entered after
a packet with payload. -/
def Obligations.TickPacesTheQueue : Prop :=
  ∀ s : State, s.operands = [] →
    (s.jbRunning = false →
      exec .jbTick s = .next
        { s with operands := [], history := s.history ++ [.response (Response.ofStatus .ok)] }) ∧
    (s.jbRunning = true → s.jbQueue = [] →
      exec .jbTick s = .next
        { s with jbOverflowing := false,
                 jbFilling := decide (s.jbFilling = true ∨
                   ∃ p ∈ s.jbLastPacket, 0 < p.payload.length),
                 operands := [], history := s.history ++ [.response (Response.ofStatus .ok)] }) ∧
    (s.jbRunning = true → ∀ p rest, s.jbQueue = p :: rest → s.jbFilling = true →
      s.jbQueue.length < s.params.maxPackets / 2 →
      exec .jbTick s = .next
        { s with jbOverflowing := false, operands := [],
                 history := s.history ++ [.response (Response.ofStatus .ok)] }) ∧
    (s.jbRunning = true → ∀ p rest, s.jbQueue = p :: rest →
      s.jbFilling = false ∨ s.params.maxPackets / 2 ≤ s.jbQueue.length →
      exec .jbTick s = .next
        { s with jbOverflowing := decide (s.jbOverflowing = true ∧
                   s.params.maxPackets / 2 < s.jbQueue.length),
                 jbFilling := false, jbQueue := rest, jbLastPacket := some p, operands := [],
                 history := s.history ++
                   [.event (.data p), .response (Response.ofStatus .ok)] })

/-- R239, R392: back-to-back JB_ADD into an empty queue admit MAX_PACKETS + 1 packets and drop every later
one, setting overflowing at the first drop. -/
def Obligations.BackToBackAddsDropAfterCapacity : Prop :=
  ∀ (s : State) (ps : List Packet), s.jbQueue = [] → s.jbOverflowing = false →
    (∀ p ∈ ps, p.payload.length ≤ s.params.maxOperandBytes) →
    ∃ t, execAll (adds ps) s = .next t ∧
      t.jbQueue = ps.take (s.params.maxPackets + 1) ∧
      t.jbOverflowing = decide (s.params.maxPackets + 1 < ps.length) ∧
      t.channel = s.channel ∧ t.jbFilling = s.jbFilling ∧ t.jbRunning = s.jbRunning

/-- R238, R401: from a started, filling, empty buffer, one JB_ADD then one JB_TICK per period: the first
H - 1 ticks emit nothing, and from then on each tick emits the oldest packet, in arrival order. -/
def Obligations.PacingEmitsAfterHalfFull : Prop :=
  ∀ (s : State) (ps : List Packet), legalParams s.params = true → s.jbQueue = [] →
    s.jbFilling = true → s.jbOverflowing = false → s.jbRunning = true →
    (∀ p ∈ ps, p.payload.length ≤ s.params.maxOperandBytes) →
    ∃ t, execAll (addThenTick ps) s = .next t ∧
      dataPackets t.channel =
        dataPackets s.channel ++ ps.take (ps.length + 1 - s.params.maxPackets / 2) ∧
      t.jbQueue = ps.drop (ps.length + 1 - s.params.maxPackets / 2) ∧
      t.jbFilling = decide (ps.length < s.params.maxPackets / 2)

/-- R87, R223: while the buffer is stopped and no JB_START is pending on any port, no run of any length,
in any order of the agents, emits an EV_DATA. -/
def Obligations.NoPacketAfterStop : Prop :=
  ∀ (n : Nat) (s : State), legalParams s.params = true → s.resetPending = false →
    s.jbRunning = false → noStartPending s →
    ∃ t, Sys2Proof.core.run n s = .next t ∧ t.jbRunning = false ∧
      dataPackets t.channel = dataPackets s.channel

/-! ## ULAW (43_mulaw.md) -/

/-- R118, R260 to R264: the byte ULAW_ENC answers. Bit 7 is 1 exactly when floor(x / 4) is not negative; the
inverted bits 6 to 4 and 3 to 0 are the segment and the mantissa of the clipped and biased magnitude:
segment g holds 2^(g+5) to 2^(g+6) - 1, the mantissa is the four bits below the leading 1, and the one
magnitude above every segment, 8192, gets the code of 8191. The comparison and the mantissa's formula
are passages of general knowledge (log 11). -/
def Obligations.EncodedByteHasSignSegmentMantissa : Prop :=
  ∀ (x : BitVec 16) (s : State), s.operands = [] →
    ∃ u : Byte, exec (.ulawEnc x) s = .next
        { s with operands := [],
                 history := s.history ++ [.response (Response.ofValue (u.setWidth 32))] } ∧
      (let seg := 7 - u.toNat / 16 % 8
       let mant := 15 - u.toNat % 16
       let m := min (min (x.toInt / 4).natAbs 8159 + 33) 8191
       (128 ≤ u.toNat ↔ 0 ≤ x.toInt) ∧
       2 ^ (seg + 5) ≤ m ∧ m < 2 ^ (seg + 6) ∧ m / 2 ^ (seg + 1) = 16 + mant)

/-- R265, R266, R267: the sample ULAW_DEC answers. The bias removal is a passage of general knowledge
(log 11). -/
def Obligations.DecodedSampleFollowsTheFormula : Prop :=
  ∀ (u : Byte) (s : State), s.operands = [] →
    let seg := 7 - u.toNat / 16 % 8
    let mant := 15 - u.toNat % 16
    let mag : Int := (8 * mant + 132) * 2 ^ seg - 132
    let v : Int := if u.toNat < 128 then -mag else mag
    exec (.ulawDec u) s = .next
      { s with operands := [],
               history := s.history ++ [.response (Response.ofValue (BitVec.ofInt 32 v))] } ∧
    -32124 ≤ v ∧ v ≤ 32124

/-- R268: ULAW_DEC of the byte ULAW_ENC answers for x is within the step of the byte's segment of x, and
within 644, which is reached at -32768; 32767 has error 643. R269: ULAW_ENC of the sample ULAW_DEC
answers gives every byte back, except 0x7F, which decodes to 0 and gives 0xFF. Both rest on the passages
of general knowledge of log 11. -/
def Obligations.CompandingErrorIsBounded : Prop :=
  ∀ s : State, s.operands = [] →
    let answered := fun v : Word =>
      { s with operands := [], history := s.history ++ [.response (Response.ofValue v)] }
    (∀ x : BitVec 16, ∃ (u : Byte) (y : Int),
      exec (.ulawEnc x) s = .next (answered (u.setWidth 32)) ∧
      exec (.ulawDec u) s = .next (answered (BitVec.ofInt 32 y)) ∧
      (y - x.toInt).natAbs ≤ 8 * 2 ^ (7 - u.toNat / 16 % 8) ∧ (y - x.toInt).natAbs ≤ 644 ∧
      (x = 0x8000 → u = 0x00 ∧ y = -32124) ∧ (x = 0x7FFF → u = 0x80 ∧ y = 32124)) ∧
    (∀ u : Byte, ∃ y : BitVec 16,
      exec (.ulawDec u) s = .next (answered (y.signExtend 32)) ∧
      exec (.ulawEnc y) s = .next (answered (if u = 0x7F then 0xFF else u.setWidth 32)) ∧
      (u = 0x7F → y = 0))

/-- R272, R273: ULAW_ENC_STREAM answers one byte per whole PCM frame, the code of channel 0's sample; a
partial frame at the end is ignored. The 8-bit form is a passage of general knowledge (log 11). -/
def Obligations.EncodeStreamTakesChannelZero : Prop :=
  ∀ (width : SampleWidth) (ch : Channels) (pcm : Bytes) (s : State), s.operands = [.bytes pcm] →
    pcm.length ≤ s.params.maxOperandBytes →
    ∃ out : Bytes, exec (.ulawEncStream width ch) s = .next
        { s with operands := [], history := s.history ++ [.response (Response.ofBytes out)] } ∧
      (let w := (match width with | .bits8 => 1 | .bits16 => 2) *
         (match ch with | .one => 1 | .two => 2)
       out.length = pcm.length / w ∧
       ∀ k, k < out.length →
         out[k]? = some (ulawEncode (match width with
           | .bits16 => sle16 pcm (k * w)
           | .bits8 => ((byteAt pcm (k * w) : Int) - 128) * 256)))

/-- R270, R271: ULAW_DEC_STREAM answers every decoded sample once per channel, little-endian s16 or
offset-binary bytes; only a result over MAX_OPERAND_BYTES is refused. The 8-bit form is a passage of
general knowledge (log 11). -/
def Obligations.DecodeStreamReplicatesChannels : Prop :=
  ∀ (width : SampleWidth) (ch : Channels) (mu : Bytes) (s : State), s.operands = [.bytes mu] →
    mu.length ≤ s.params.maxOperandBytes →
    let w := (match width with | .bits8 => 1 | .bits16 => 2)
    let n := (match ch with | .one => 1 | .two => 2)
    (mu.length * n * w ≤ s.params.maxOperandBytes →
      ∃ out : Bytes, exec (.ulawDecStream width ch) s = .next
          { s with operands := [], history := s.history ++ [.response (Response.ofBytes out)] } ∧
        out.length = mu.length * n * w ∧
        ∀ k c u, mu[k]? = some u → c < n →
          match width with
          | .bits16 => sle16 out (2 * (k * n + c)) = ulawDecode u
          | .bits8 => (byteAt out (k * n + c) : Int) = ulawDecode u / 256 + 128) ∧
    (s.params.maxOperandBytes < mu.length * n * w →
      exec (.ulawDecStream width ch) s = .next
        { s with operands := [],
                 history := s.history ++ [.response (Response.ofStatus .operandLimit)] })

/-! ## MIX (44_mixer.md) -/

/-- R290 to R294, R296: MIX in 16-bit mode. The result has the length of the longest stream; at each
position the samples are added in list order, clamped after each addition, a stream without both bytes
counting as 0; linear, absolute and peak follow from the sums, and an odd last byte is 0. -/
def Obligations.MixSixteenBitSums : Prop :=
  ∀ (s : State) (streams : List Bytes), s.operands = [.list streams] →
    streams.length ≤ s.params.maxStreams →
    (∀ b ∈ streams, b.length ≤ s.params.maxOperandBytes) →
    let sum := fun i : Nat => streams.foldl (fun (acc : Int) b =>
      max (-32768) (min 32767 (acc + if 2 * i + 2 ≤ b.length then sle16 b (2 * i) else 0))) 0
    ∃ (out : Bytes) (peak : Int), exec (.mix .bits16) s = .next
        { s with operands := [],
                 history := s.history ++ [.response
                   { Response.ofBytes out with
                     value := BitVec.ofInt 32 peak,
                     ints := [(List.range (out.length / 2)).map fun i => BitVec.ofInt 32 (sum i),
                       (List.range (out.length / 2)).map fun i =>
                         BitVec.ofInt 32 (sum i).natAbs] }] } ∧
      (∀ b ∈ streams, b.length ≤ out.length) ∧
      (out = [] ∨ ∃ b ∈ streams, b.length = out.length) ∧
      (∀ i, i < out.length / 2 → sle16 out (2 * i) = sum i) ∧
      (out.length % 2 = 1 → byteAt out (out.length - 1) = 0) ∧
      0 ≤ peak ∧ (∀ i, i < out.length / 2 → sum i ≤ peak) ∧
      (peak = 0 ∨ ∃ i, i < out.length / 2 ∧ sum i = peak)

/-- R290, R291, R293, R295, R296: MIX in 8-bit mode. Raw unsigned bytes are added and clamped to 0 to 255
after each addition; there is no absolute channel. -/
def Obligations.MixEightBitSums : Prop :=
  ∀ (s : State) (streams : List Bytes), s.operands = [.list streams] →
    streams.length ≤ s.params.maxStreams →
    (∀ b ∈ streams, b.length ≤ s.params.maxOperandBytes) →
    let sum := fun i : Nat => streams.foldl (fun (acc : Nat) b =>
      min 255 (acc + if i < b.length then byteAt b i else 0)) 0
    ∃ (out : Bytes) (peak : Nat), exec (.mix .bits8) s = .next
        { s with operands := [],
                 history := s.history ++ [.response
                   { Response.ofBytes out with
                     value := BitVec.ofNat 32 peak,
                     ints := [(List.range out.length).map fun i => BitVec.ofNat 32 (sum i), []] }] } ∧
      (∀ b ∈ streams, b.length ≤ out.length) ∧
      (out = [] ∨ ∃ b ∈ streams, b.length = out.length) ∧
      (∀ i, i < out.length → byteAt out i = sum i) ∧
      (∀ i, i < out.length → sum i ≤ peak) ∧
      (peak = 0 ∨ ∃ i, i < out.length ∧ sum i = peak)

/-- R297: no stream, or only empty streams, give an empty mix; one stream gives a copy of itself, in
16-bit mode with an odd last byte replaced by 0. -/
def Obligations.MixOfOneStreamIsACopy : Prop :=
  (∀ (s : State) (width : SampleWidth) (n : Nat), s.operands = [.list (List.replicate n [])] →
    n ≤ s.params.maxStreams →
    exec (.mix width) s = .next
      { s with operands := [],
               history := s.history ++
                 [.response { Response.ofBytes [] with ints := [[], []] }] }) ∧
  (∀ (s : State) (b : Bytes), s.operands = [.list [b]] → 1 ≤ s.params.maxStreams →
    b.length ≤ s.params.maxOperandBytes →
    (∃ r t, exec (.mix .bits8) s = .next t ∧ Answered s t [] r ∧ r.status = .ok ∧
      r.bytes = [b]) ∧
    (∃ r t, exec (.mix .bits16) s = .next t ∧ Answered s t [] r ∧ r.status = .ok ∧
      r.bytes = [b.take (2 * (b.length / 2)) ++ List.replicate (b.length % 2) 0]))

/-- R300, R301, R302: SUB16 answers as many bytes as the source, each sample the clamped difference, a
missing toSubtract sample counting as 0, and an odd last byte 0. -/
def Obligations.SubtractClampsEachDifference : Prop :=
  ∀ (s : State) (src sub : Bytes), s.operands = [.bytes src, .bytes sub] →
    src.length ≤ s.params.maxOperandBytes → sub.length ≤ s.params.maxOperandBytes →
    ∃ out : Bytes, exec .sub16 s = .next
        { s with operands := [], history := s.history ++ [.response (Response.ofBytes out)] } ∧
      out.length = src.length ∧
      (∀ i, i < src.length / 2 → sle16 out (2 * i) =
        max (-32768) (min 32767
          (sle16 src (2 * i) - if 2 * i + 2 ≤ sub.length then sle16 sub (2 * i) else 0))) ∧
      (src.length % 2 = 1 → byteAt out (out.length - 1) = 0)

/-! ## Invariants -/

/-- R57, R11, R38: a legal instance, the caps on FRM.acc and JB.queue, a legal interval and no operand left
over are kept by every step, whichever command of whichever agent it serves. -/
def Obligations.StepKeepsBounds : Prop :=
  ∀ s t : State, WithinBounds s → step s = .next t → WithinBounds t

/-- R37: every step keeps JB.lastPacket equal to the packet of the last EV_DATA of the run. -/
def Obligations.StepKeepsLastPacket : Prop :=
  ∀ s t : State, LastPacketEmitted s → step s = .next t → LastPacketEmitted t

/-- R33, R237: every step keeps the order of packets: those emitted, then those queued, are packets
offered by JB_ADD, each at most once and in the order offered. -/
def Obligations.StepKeepsFifoOrder : Prop :=
  ∀ s t : State, FifoOrder s → step s = .next t → FifoOrder t

/-- R57: every step keeps the queue to packets offered since the last stop or reset. -/
def Obligations.StepKeepsQueueSinceStop : Prop :=
  ∀ s t : State, QueueSinceStop s → step s = .next t → QueueSinceStop t

/-- R159: every step keeps the account of the stream: while no framing fault is raised, the frames of the
messages emitted, followed by FRM.acc, are exactly the bytes fed. -/
def Obligations.StepKeepsStreamAccount : Prop :=
  ∀ s t : State, StreamAccounted s → step s = .next t → StreamAccounted t

/-- The invariants hold right after reset, for every instance; the bounds for every legal one (R56,
R385). -/
def Obligations.ResetMeetsTheInvariants : Prop :=
  ∀ p : Params, (legalParams p = true → WithinBounds (State.resetWith p)) ∧
    LastPacketEmitted (State.resetWith p) ∧ FifoOrder (State.resetWith p) ∧
    QueueSinceStop (State.resetWith p) ∧ StreamAccounted (State.resetWith p)

/-- R385: the launch premise `clean` says that the parameters are the given ones, every element has its
reset value, the event channel is empty and no command is in progress; the reset state of every instance
meets it, and so does the state after every reset the block performs, whatever ran before. That no
operand in place stands for no command in progress is the model's reading (log 23). -/
def Obligations.EveryResetLeavesACleanState : Prop :=
  (∀ (p : Params) (s : State), clean p s ↔
    s.params = p ∧ s.frmAcc = [] ∧ s.jbQueue = [] ∧ s.jbFilling = true ∧
    s.jbOverflowing = false ∧ s.jbRunning = false ∧ s.jbLastPacket = none ∧
    s.jbInterval.toNat = 20 ∧ s.channel = [] ∧ s.operands = []) ∧
  (∀ p : Params, clean p (State.resetWith p)) ∧
  (∀ s : State, legalParams s.params = true → s.resetPending = true →
    ∃ t, step s = .next t ∧ clean s.params t)
end

