-- ==== Sys2Proof/Laws/Bytes.lean ====
section
/-! SUPPORT. Reads after writes of multi-byte values (00_scope.md R19), and the lengths of what is written. -/
namespace Sys2Proof.Machine

@[simp] theorem putLe16_length (v : Int) : (putLe16 v).length = 2 := rfl
@[simp] theorem putBe16_length (v : Int) : (putBe16 v).length = 2 := rfl
@[simp] theorem putLe32_length (v : Int) : (putLe32 v).length = 4 := rfl
@[simp] theorem putBe32_length (v : Int) : (putBe32 v).length = 4 := rfl

/-- The two cases of a 32-bit two's-complement reading. -/
theorem signed32_cases (n : Nat) :
    (n < 2147483648 ∧ signed32 n = n) ∨ (2147483648 ≤ n ∧ signed32 n = (n : Int) - 4294967296) := by
  rcases Nat.lt_or_ge n 2147483648 with h | h
  · exact .inl ⟨h, if_pos h⟩
  · exact .inr ⟨h, if_neg (Nat.not_lt.mpr h)⟩

/-- The two cases of a 16-bit two's-complement reading. -/
theorem signed16_cases (n : Nat) :
    (n < 32768 ∧ signed16 n = n) ∨ (32768 ≤ n ∧ signed16 n = (n : Int) - 65536) := by
  rcases Nat.lt_or_ge n 32768 with h | h
  · exact .inl ⟨h, if_pos h⟩
  · exact .inr ⟨h, if_neg (Nat.not_lt.mpr h)⟩

theorem byteAt_lt (S : Bytes) (k : Nat) : byteAt S k < 256 := (S.getD k 0).isLt

@[simp] theorem byteAt_cons_zero (b : Byte) (S : Bytes) : byteAt (b :: S) 0 = b.toNat := rfl

@[simp] theorem byteAt_cons_succ (b : Byte) (S : Bytes) (k : Nat) :
    byteAt (b :: S) (k + 1) = byteAt S k := rfl

theorem byteAt_append_left {S : Bytes} {k : Nat} (h : k < S.length) (T : Bytes) :
    byteAt (S ++ T) k = byteAt S k := by
  simp [byteAt, List.getD, List.getElem?_append_left h]

theorem byteAt_append_right {S : Bytes} (k : Nat) (T : Bytes) :
    byteAt (S ++ T) (S.length + k) = byteAt T k := by
  simp [byteAt, List.getD, List.getElem?_append_right]

theorem byteAt_drop (S : Bytes) (n k : Nat) : byteAt (S.drop n) k = byteAt S (n + k) := by
  simp [byteAt, List.getD]

theorem byteAt_take {S : Bytes} {n k : Nat} (h : k < n) : byteAt (S.take n) k = byteAt S k := by
  simp [byteAt, List.getD, h]

/-- Byte k of v as a number. -/
theorem byteOf_toNat (v : Int) (k : Nat) :
    (byteOf v k).toNat = (v % 2 ^ 32).toNat / 2 ^ (8 * k) % 256 := by
  simp [byteOf, toWord, BitVec.extractLsb'_toNat, BitVec.toNat_ofInt, Nat.shiftRight_eq_div_pow]

theorem le32_putLe32 (v : Int) (T : Bytes) : (le32 (putLe32 v ++ T) 0 : Int) = v % 2 ^ 32 := by
  have h0 : 0 ≤ v % 2 ^ 32 := Int.emod_nonneg _ (by norm_num)
  have h1 : v % 2 ^ 32 < 2 ^ 32 := Int.emod_lt_of_pos _ (by norm_num)
  simp only [le32, putLe32, List.cons_append, List.nil_append, byteAt_cons_zero, byteAt_cons_succ,
    byteOf_toNat]
  norm_num at *
  omega

theorem be32_putBe32 (v : Int) (T : Bytes) : (be32 (putBe32 v ++ T) 0 : Int) = v % 2 ^ 32 := by
  have h0 : 0 ≤ v % 2 ^ 32 := Int.emod_nonneg _ (by norm_num)
  have h1 : v % 2 ^ 32 < 2 ^ 32 := Int.emod_lt_of_pos _ (by norm_num)
  simp only [be32, putBe32, List.cons_append, List.nil_append, byteAt_cons_zero, byteAt_cons_succ,
    byteOf_toNat]
  norm_num at *
  omega

theorem le16_putLe16 (v : Int) (T : Bytes) : (le16 (putLe16 v ++ T) 0 : Int) = v % 2 ^ 16 := by
  have h0 : 0 ≤ v % 2 ^ 32 := Int.emod_nonneg _ (by norm_num)
  simp only [le16, putLe16, List.cons_append, List.nil_append, byteAt_cons_zero, byteAt_cons_succ,
    byteOf_toNat]
  norm_num at *
  omega

theorem be16_putBe16 (v : Int) (T : Bytes) : (be16 (putBe16 v ++ T) 0 : Int) = v % 2 ^ 16 := by
  have h0 : 0 ≤ v % 2 ^ 32 := Int.emod_nonneg _ (by norm_num)
  simp only [be16, putBe16, List.cons_append, List.nil_append, byteAt_cons_zero, byteAt_cons_succ,
    byteOf_toNat]
  norm_num at *
  omega

/-- A signed 16-bit value reads back. -/
theorem sle16_putLe16 {v : Int} (hlo : -32768 ≤ v) (hhi : v ≤ 32767) (T : Bytes) :
    sle16 (putLe16 v ++ T) 0 = v := by
  have h := le16_putLe16 v T
  simp only [sle16, signed16]
  split <;> omega

/-- A signed 32-bit value reads back. -/
theorem sle32_putLe32 {v : Int} (hlo : -2 ^ 31 ≤ v) (hhi : v < 2 ^ 31) (T : Bytes) :
    sle32 (putLe32 v ++ T) 0 = v := by
  have h := le32_putLe32 v T
  simp only [sle32, signed32]
  split <;> omega

/-- A length prefix that was read is the four bytes it was read from. -/
theorem putLe32_sle32 {S : Bytes} (h : 4 ≤ S.length) : putLe32 (sle32 S 0) = S.take 4 := by
  match S, h with
  | a :: b :: c :: d :: rest, _ =>
    have ha := a.isLt; have hb := b.isLt; have hc := c.isLt; have hd := d.isLt
    have key : (sle32 (a :: b :: c :: d :: rest) 0) % 2 ^ 32 =
        (a.toNat + 2 ^ 8 * b.toNat + 2 ^ 16 * c.toNat + 2 ^ 24 * d.toNat : Nat) := by
      simp only [sle32, le32, byteAt_cons_zero, byteAt_cons_succ]
      rcases signed32_cases (a.toNat + 2 ^ 8 * b.toNat + 2 ^ 16 * c.toNat + 2 ^ 24 * d.toNat)
        with ⟨h, e⟩ | ⟨h, e⟩ <;> rw [e] <;> push_cast <;> omega
    have e : ∀ k, (byteOf (sle32 (a :: b :: c :: d :: rest) 0) k).toNat =
        (a.toNat + 2 ^ 8 * b.toNat + 2 ^ 16 * c.toNat + 2 ^ 24 * d.toNat) / 2 ^ (8 * k) % 256 := by
      intro k; rw [byteOf_toNat, key, Int.toNat_natCast]
    simp only [putLe32, List.take_succ_cons, List.take_zero, List.cons.injEq, and_true]
    refine ⟨?_, ?_, ?_, ?_⟩ <;> apply BitVec.eq_of_toNat_eq <;> rw [e] <;> norm_num <;> omega

/-- The bounds of a signed 32-bit read. -/
theorem sle32_bounds (S : Bytes) (k : Nat) : -2 ^ 31 ≤ sle32 S k ∧ sle32 S k < 2 ^ 31 := by
  have h0 := byteAt_lt S k; have h1 := byteAt_lt S (k + 1)
  have h2 := byteAt_lt S (k + 2); have h3 := byteAt_lt S (k + 3)
  have hn : le32 S k < 4294967296 := by unfold le32; omega
  rcases signed32_cases (le32 S k) with ⟨h, e⟩ | ⟨h, e⟩ <;> simp only [sle32, e] <;> omega

/-- The bounds of a signed 16-bit read. -/
theorem sle16_bounds (S : Bytes) (k : Nat) : -32768 ≤ sle16 S k ∧ sle16 S k ≤ 32767 := by
  have h0 := byteAt_lt S k; have h1 := byteAt_lt S (k + 1)
  have hn : le16 S k < 65536 := by unfold le16; omega
  rcases signed16_cases (le16 S k) with ⟨h, e⟩ | ⟨h, e⟩ <;> simp only [sle16, e] <;> omega

/-- The bounds of a clamped value. -/
theorem clamp_bounds {lo hi : Int} (h : lo ≤ hi) (v : Int) :
    lo ≤ clamp v lo hi ∧ clamp v lo hi ≤ hi := by
  unfold clamp; split <;> [omega; split <;> omega]

/-- A value in range is not changed by a clamp. -/
theorem clamp_of_mem {v lo hi : Int} (hlo : lo ≤ v) (hhi : v ≤ hi) : clamp v lo hi = v := by
  unfold clamp; split <;> [omega; split <;> omega]

end Sys2Proof.Machine
end

