-- ==== Sys2Proof/Laws/State.lean ====
section
/-! SUPPORT. One lemma per field per update of State, so that no proof unfolds a record update. -/
namespace Sys2Proof.Machine

variable (s : State)

/-! ## emit -/

@[simp] theorem State.emit_params (e : Event) :
    (s.emit e).params = s.params := rfl

@[simp] theorem State.emit_frmAcc (e : Event) :
    (s.emit e).frmAcc = s.frmAcc := rfl

@[simp] theorem State.emit_jbQueue (e : Event) :
    (s.emit e).jbQueue = s.jbQueue := rfl

@[simp] theorem State.emit_jbFilling (e : Event) :
    (s.emit e).jbFilling = s.jbFilling := rfl

@[simp] theorem State.emit_jbOverflowing (e : Event) :
    (s.emit e).jbOverflowing = s.jbOverflowing := rfl

@[simp] theorem State.emit_jbRunning (e : Event) :
    (s.emit e).jbRunning = s.jbRunning := rfl

@[simp] theorem State.emit_jbLastPacket (e : Event) :
    (s.emit e).jbLastPacket = s.jbLastPacket := rfl

@[simp] theorem State.emit_jbInterval (e : Event) :
    (s.emit e).jbInterval = s.jbInterval := rfl

@[simp] theorem State.emit_operands (e : Event) :
    (s.emit e).operands = s.operands := rfl

@[simp] theorem State.emit_producerPort (e : Event) :
    (s.emit e).producerPort = s.producerPort := rfl

@[simp] theorem State.emit_tickPort (e : Event) :
    (s.emit e).tickPort = s.tickPort := rfl

@[simp] theorem State.emit_hostPort (e : Event) :
    (s.emit e).hostPort = s.hostPort := rfl

@[simp] theorem State.emit_arbCount (e : Event) :
    (s.emit e).arbCount = s.arbCount := rfl

@[simp] theorem State.emit_resetPending (e : Event) :
    (s.emit e).resetPending = s.resetPending := rfl

@[simp] theorem State.emit_history (e : Event) :
    (s.emit e).history = s.history ++ [.event e] := rfl

/-! ## respond -/

@[simp] theorem State.respond_params (r : Response) :
    (s.respond r).params = s.params := rfl

@[simp] theorem State.respond_frmAcc (r : Response) :
    (s.respond r).frmAcc = s.frmAcc := rfl

@[simp] theorem State.respond_jbQueue (r : Response) :
    (s.respond r).jbQueue = s.jbQueue := rfl

@[simp] theorem State.respond_jbFilling (r : Response) :
    (s.respond r).jbFilling = s.jbFilling := rfl

@[simp] theorem State.respond_jbOverflowing (r : Response) :
    (s.respond r).jbOverflowing = s.jbOverflowing := rfl

@[simp] theorem State.respond_jbRunning (r : Response) :
    (s.respond r).jbRunning = s.jbRunning := rfl

@[simp] theorem State.respond_jbLastPacket (r : Response) :
    (s.respond r).jbLastPacket = s.jbLastPacket := rfl

@[simp] theorem State.respond_jbInterval (r : Response) :
    (s.respond r).jbInterval = s.jbInterval := rfl

@[simp] theorem State.respond_operands (r : Response) :
    (s.respond r).operands = [] := rfl

@[simp] theorem State.respond_producerPort (r : Response) :
    (s.respond r).producerPort = s.producerPort := rfl

@[simp] theorem State.respond_tickPort (r : Response) :
    (s.respond r).tickPort = s.tickPort := rfl

@[simp] theorem State.respond_hostPort (r : Response) :
    (s.respond r).hostPort = s.hostPort := rfl

@[simp] theorem State.respond_arbCount (r : Response) :
    (s.respond r).arbCount = s.arbCount := rfl

@[simp] theorem State.respond_resetPending (r : Response) :
    (s.respond r).resetPending = s.resetPending := rfl

@[simp] theorem State.respond_history (r : Response) :
    (s.respond r).history = s.history ++ [.response r] := rfl

/-! ## complete -/

@[simp] theorem State.complete_params :
    (s.complete).params = s.params := rfl

@[simp] theorem State.complete_frmAcc :
    (s.complete).frmAcc = s.frmAcc := rfl

@[simp] theorem State.complete_jbQueue :
    (s.complete).jbQueue = s.jbQueue := rfl

@[simp] theorem State.complete_jbFilling :
    (s.complete).jbFilling = s.jbFilling := rfl

@[simp] theorem State.complete_jbOverflowing :
    (s.complete).jbOverflowing = s.jbOverflowing := rfl

@[simp] theorem State.complete_jbRunning :
    (s.complete).jbRunning = s.jbRunning := rfl

@[simp] theorem State.complete_jbLastPacket :
    (s.complete).jbLastPacket = s.jbLastPacket := rfl

@[simp] theorem State.complete_jbInterval :
    (s.complete).jbInterval = s.jbInterval := rfl

@[simp] theorem State.complete_operands :
    (s.complete).operands = [] := rfl

@[simp] theorem State.complete_producerPort :
    (s.complete).producerPort = s.producerPort := rfl

@[simp] theorem State.complete_tickPort :
    (s.complete).tickPort = s.tickPort := rfl

@[simp] theorem State.complete_hostPort :
    (s.complete).hostPort = s.hostPort := rfl

@[simp] theorem State.complete_arbCount :
    (s.complete).arbCount = s.arbCount := rfl

@[simp] theorem State.complete_resetPending :
    (s.complete).resetPending = s.resetPending := rfl

@[simp] theorem State.complete_history :
    (s.complete).history = s.history ++ [.response (Response.ofStatus .ok)] := rfl

/-! ## refuse -/

@[simp] theorem State.refuse_params (st : Status) :
    (s.refuse st).params = s.params := rfl

@[simp] theorem State.refuse_frmAcc (st : Status) :
    (s.refuse st).frmAcc = s.frmAcc := rfl

@[simp] theorem State.refuse_jbQueue (st : Status) :
    (s.refuse st).jbQueue = s.jbQueue := rfl

@[simp] theorem State.refuse_jbFilling (st : Status) :
    (s.refuse st).jbFilling = s.jbFilling := rfl

@[simp] theorem State.refuse_jbOverflowing (st : Status) :
    (s.refuse st).jbOverflowing = s.jbOverflowing := rfl

@[simp] theorem State.refuse_jbRunning (st : Status) :
    (s.refuse st).jbRunning = s.jbRunning := rfl

@[simp] theorem State.refuse_jbLastPacket (st : Status) :
    (s.refuse st).jbLastPacket = s.jbLastPacket := rfl

@[simp] theorem State.refuse_jbInterval (st : Status) :
    (s.refuse st).jbInterval = s.jbInterval := rfl

@[simp] theorem State.refuse_operands (st : Status) :
    (s.refuse st).operands = [] := rfl

@[simp] theorem State.refuse_producerPort (st : Status) :
    (s.refuse st).producerPort = s.producerPort := rfl

@[simp] theorem State.refuse_tickPort (st : Status) :
    (s.refuse st).tickPort = s.tickPort := rfl

@[simp] theorem State.refuse_hostPort (st : Status) :
    (s.refuse st).hostPort = s.hostPort := rfl

@[simp] theorem State.refuse_arbCount (st : Status) :
    (s.refuse st).arbCount = s.arbCount := rfl

@[simp] theorem State.refuse_resetPending (st : Status) :
    (s.refuse st).resetPending = s.resetPending := rfl

@[simp] theorem State.refuse_history (st : Status) :
    (s.refuse st).history = s.history ++ [.response (Response.ofStatus st)] := rfl

/-! ## raiseFrameFault -/

@[simp] theorem State.raiseFrameFault_params (f : FrameFault) :
    (s.raiseFrameFault f).params = s.params := rfl

@[simp] theorem State.raiseFrameFault_frmAcc (f : FrameFault) :
    (s.raiseFrameFault f).frmAcc = [] := rfl

@[simp] theorem State.raiseFrameFault_jbQueue (f : FrameFault) :
    (s.raiseFrameFault f).jbQueue = s.jbQueue := rfl

@[simp] theorem State.raiseFrameFault_jbFilling (f : FrameFault) :
    (s.raiseFrameFault f).jbFilling = s.jbFilling := rfl

@[simp] theorem State.raiseFrameFault_jbOverflowing (f : FrameFault) :
    (s.raiseFrameFault f).jbOverflowing = s.jbOverflowing := rfl

@[simp] theorem State.raiseFrameFault_jbRunning (f : FrameFault) :
    (s.raiseFrameFault f).jbRunning = s.jbRunning := rfl

@[simp] theorem State.raiseFrameFault_jbLastPacket (f : FrameFault) :
    (s.raiseFrameFault f).jbLastPacket = s.jbLastPacket := rfl

@[simp] theorem State.raiseFrameFault_jbInterval (f : FrameFault) :
    (s.raiseFrameFault f).jbInterval = s.jbInterval := rfl

@[simp] theorem State.raiseFrameFault_operands (f : FrameFault) :
    (s.raiseFrameFault f).operands = [] := rfl

@[simp] theorem State.raiseFrameFault_producerPort (f : FrameFault) :
    (s.raiseFrameFault f).producerPort = s.producerPort := rfl

@[simp] theorem State.raiseFrameFault_tickPort (f : FrameFault) :
    (s.raiseFrameFault f).tickPort = s.tickPort := rfl

@[simp] theorem State.raiseFrameFault_hostPort (f : FrameFault) :
    (s.raiseFrameFault f).hostPort = s.hostPort := rfl

@[simp] theorem State.raiseFrameFault_arbCount (f : FrameFault) :
    (s.raiseFrameFault f).arbCount = s.arbCount := rfl

@[simp] theorem State.raiseFrameFault_resetPending (f : FrameFault) :
    (s.raiseFrameFault f).resetPending = s.resetPending := rfl

@[simp] theorem State.raiseFrameFault_history (f : FrameFault) :
    (s.raiseFrameFault f).history = s.history ++ [.event (.fault f)] ++ [.response (Response.ofStatus .ok)] := rfl

/-! ## setPort: everything but the port itself -/

@[simp] theorem State.setPort_params (p : Port) (q : List Command) :
    (s.setPort p q).params = s.params := by cases p <;> rfl

@[simp] theorem State.setPort_frmAcc (p : Port) (q : List Command) :
    (s.setPort p q).frmAcc = s.frmAcc := by cases p <;> rfl

@[simp] theorem State.setPort_jbQueue (p : Port) (q : List Command) :
    (s.setPort p q).jbQueue = s.jbQueue := by cases p <;> rfl

@[simp] theorem State.setPort_jbFilling (p : Port) (q : List Command) :
    (s.setPort p q).jbFilling = s.jbFilling := by cases p <;> rfl

@[simp] theorem State.setPort_jbOverflowing (p : Port) (q : List Command) :
    (s.setPort p q).jbOverflowing = s.jbOverflowing := by cases p <;> rfl

@[simp] theorem State.setPort_jbRunning (p : Port) (q : List Command) :
    (s.setPort p q).jbRunning = s.jbRunning := by cases p <;> rfl

@[simp] theorem State.setPort_jbLastPacket (p : Port) (q : List Command) :
    (s.setPort p q).jbLastPacket = s.jbLastPacket := by cases p <;> rfl

@[simp] theorem State.setPort_jbInterval (p : Port) (q : List Command) :
    (s.setPort p q).jbInterval = s.jbInterval := by cases p <;> rfl

@[simp] theorem State.setPort_operands (p : Port) (q : List Command) :
    (s.setPort p q).operands = s.operands := by cases p <;> rfl

@[simp] theorem State.setPort_arbCount (p : Port) (q : List Command) :
    (s.setPort p q).arbCount = s.arbCount := by cases p <;> rfl

@[simp] theorem State.setPort_resetPending (p : Port) (q : List Command) :
    (s.setPort p q).resetPending = s.resetPending := by cases p <;> rfl

@[simp] theorem State.setPort_history (p : Port) (q : List Command) :
    (s.setPort p q).history = s.history := by cases p <;> rfl

/-! ## issue: everything but the port itself -/

@[simp] theorem State.issue_params (p : Port) (c : Command) :
    (s.issue p c).params = s.params := by cases p <;> rfl

@[simp] theorem State.issue_frmAcc (p : Port) (c : Command) :
    (s.issue p c).frmAcc = s.frmAcc := by cases p <;> rfl

@[simp] theorem State.issue_jbQueue (p : Port) (c : Command) :
    (s.issue p c).jbQueue = s.jbQueue := by cases p <;> rfl

@[simp] theorem State.issue_jbFilling (p : Port) (c : Command) :
    (s.issue p c).jbFilling = s.jbFilling := by cases p <;> rfl

@[simp] theorem State.issue_jbOverflowing (p : Port) (c : Command) :
    (s.issue p c).jbOverflowing = s.jbOverflowing := by cases p <;> rfl

@[simp] theorem State.issue_jbRunning (p : Port) (c : Command) :
    (s.issue p c).jbRunning = s.jbRunning := by cases p <;> rfl

@[simp] theorem State.issue_jbLastPacket (p : Port) (c : Command) :
    (s.issue p c).jbLastPacket = s.jbLastPacket := by cases p <;> rfl

@[simp] theorem State.issue_jbInterval (p : Port) (c : Command) :
    (s.issue p c).jbInterval = s.jbInterval := by cases p <;> rfl

@[simp] theorem State.issue_operands (p : Port) (c : Command) :
    (s.issue p c).operands = s.operands := by cases p <;> rfl

@[simp] theorem State.issue_arbCount (p : Port) (c : Command) :
    (s.issue p c).arbCount = s.arbCount := by cases p <;> rfl

@[simp] theorem State.issue_resetPending (p : Port) (c : Command) :
    (s.issue p c).resetPending = s.resetPending := by cases p <;> rfl

@[simp] theorem State.issue_history (p : Port) (c : Command) :
    (s.issue p c).history = s.history := by cases p <;> rfl

/-! ## takeCommand: everything but the port itself -/

@[simp] theorem State.takeCommand_params (p : Port) (c : Command) (rest : List Command) :
    (s.takeCommand p c rest).params = s.params := by cases p <;> rfl

@[simp] theorem State.takeCommand_frmAcc (p : Port) (c : Command) (rest : List Command) :
    (s.takeCommand p c rest).frmAcc = s.frmAcc := by cases p <;> rfl

@[simp] theorem State.takeCommand_jbQueue (p : Port) (c : Command) (rest : List Command) :
    (s.takeCommand p c rest).jbQueue = s.jbQueue := by cases p <;> rfl

@[simp] theorem State.takeCommand_jbFilling (p : Port) (c : Command) (rest : List Command) :
    (s.takeCommand p c rest).jbFilling = s.jbFilling := by cases p <;> rfl

@[simp] theorem State.takeCommand_jbOverflowing (p : Port) (c : Command) (rest : List Command) :
    (s.takeCommand p c rest).jbOverflowing = s.jbOverflowing := by cases p <;> rfl

@[simp] theorem State.takeCommand_jbRunning (p : Port) (c : Command) (rest : List Command) :
    (s.takeCommand p c rest).jbRunning = s.jbRunning := by cases p <;> rfl

@[simp] theorem State.takeCommand_jbLastPacket (p : Port) (c : Command) (rest : List Command) :
    (s.takeCommand p c rest).jbLastPacket = s.jbLastPacket := by cases p <;> rfl

@[simp] theorem State.takeCommand_jbInterval (p : Port) (c : Command) (rest : List Command) :
    (s.takeCommand p c rest).jbInterval = s.jbInterval := by cases p <;> rfl

@[simp] theorem State.takeCommand_operands (p : Port) (c : Command) (rest : List Command) :
    (s.takeCommand p c rest).operands = c.operands := by cases p <;> rfl

@[simp] theorem State.takeCommand_arbCount (p : Port) (c : Command) (rest : List Command) :
    (s.takeCommand p c rest).arbCount = s.arbCount + 1 := by cases p <;> rfl

@[simp] theorem State.takeCommand_resetPending (p : Port) (c : Command) (rest : List Command) :
    (s.takeCommand p c rest).resetPending = s.resetPending := by cases p <;> rfl

@[simp] theorem State.takeCommand_history (p : Port) (c : Command) (rest : List Command) :
    (s.takeCommand p c rest).history = s.history ++ [.taken p c] := by cases p <;> rfl

/-! ## takeReset -/

@[simp] theorem State.takeReset_params :
    (s.takeReset).params = s.params := rfl

@[simp] theorem State.takeReset_frmAcc :
    (s.takeReset).frmAcc = [] := rfl

@[simp] theorem State.takeReset_jbQueue :
    (s.takeReset).jbQueue = [] := rfl

@[simp] theorem State.takeReset_jbFilling :
    (s.takeReset).jbFilling = true := rfl

@[simp] theorem State.takeReset_jbOverflowing :
    (s.takeReset).jbOverflowing = false := rfl

@[simp] theorem State.takeReset_jbRunning :
    (s.takeReset).jbRunning = false := rfl

@[simp] theorem State.takeReset_jbLastPacket :
    (s.takeReset).jbLastPacket = none := rfl

@[simp] theorem State.takeReset_jbInterval :
    (s.takeReset).jbInterval = 20 := rfl

@[simp] theorem State.takeReset_operands :
    (s.takeReset).operands = [] := rfl

@[simp] theorem State.takeReset_producerPort :
    (s.takeReset).producerPort = s.producerPort := rfl

@[simp] theorem State.takeReset_tickPort :
    (s.takeReset).tickPort = s.tickPort := rfl

@[simp] theorem State.takeReset_hostPort :
    (s.takeReset).hostPort = s.hostPort := rfl

@[simp] theorem State.takeReset_arbCount :
    (s.takeReset).arbCount = s.arbCount := rfl

@[simp] theorem State.takeReset_resetPending :
    (s.takeReset).resetPending = false := rfl

@[simp] theorem State.takeReset_history :
    (s.takeReset).history = s.history ++ [.reset] := rfl

/-! ## askReset -/

@[simp] theorem State.askReset_params :
    (s.askReset).params = s.params := rfl

@[simp] theorem State.askReset_frmAcc :
    (s.askReset).frmAcc = s.frmAcc := rfl

@[simp] theorem State.askReset_jbQueue :
    (s.askReset).jbQueue = s.jbQueue := rfl

@[simp] theorem State.askReset_jbFilling :
    (s.askReset).jbFilling = s.jbFilling := rfl

@[simp] theorem State.askReset_jbOverflowing :
    (s.askReset).jbOverflowing = s.jbOverflowing := rfl

@[simp] theorem State.askReset_jbRunning :
    (s.askReset).jbRunning = s.jbRunning := rfl

@[simp] theorem State.askReset_jbLastPacket :
    (s.askReset).jbLastPacket = s.jbLastPacket := rfl

@[simp] theorem State.askReset_jbInterval :
    (s.askReset).jbInterval = s.jbInterval := rfl

@[simp] theorem State.askReset_operands :
    (s.askReset).operands = s.operands := rfl

@[simp] theorem State.askReset_producerPort :
    (s.askReset).producerPort = s.producerPort := rfl

@[simp] theorem State.askReset_tickPort :
    (s.askReset).tickPort = s.tickPort := rfl

@[simp] theorem State.askReset_hostPort :
    (s.askReset).hostPort = s.hostPort := rfl

@[simp] theorem State.askReset_arbCount :
    (s.askReset).arbCount = s.arbCount := rfl

@[simp] theorem State.askReset_resetPending :
    (s.askReset).resetPending = true := rfl

@[simp] theorem State.askReset_history :
    (s.askReset).history = s.history := rfl

/-! ## onlyPending -/

@[simp] theorem State.onlyPending_params (c : Command) :
    (s.onlyPending c).params = s.params := rfl

@[simp] theorem State.onlyPending_frmAcc (c : Command) :
    (s.onlyPending c).frmAcc = s.frmAcc := rfl

@[simp] theorem State.onlyPending_jbQueue (c : Command) :
    (s.onlyPending c).jbQueue = s.jbQueue := rfl

@[simp] theorem State.onlyPending_jbFilling (c : Command) :
    (s.onlyPending c).jbFilling = s.jbFilling := rfl

@[simp] theorem State.onlyPending_jbOverflowing (c : Command) :
    (s.onlyPending c).jbOverflowing = s.jbOverflowing := rfl

@[simp] theorem State.onlyPending_jbRunning (c : Command) :
    (s.onlyPending c).jbRunning = s.jbRunning := rfl

@[simp] theorem State.onlyPending_jbLastPacket (c : Command) :
    (s.onlyPending c).jbLastPacket = s.jbLastPacket := rfl

@[simp] theorem State.onlyPending_jbInterval (c : Command) :
    (s.onlyPending c).jbInterval = s.jbInterval := rfl

@[simp] theorem State.onlyPending_operands (c : Command) :
    (s.onlyPending c).operands = s.operands := rfl

@[simp] theorem State.onlyPending_producerPort (c : Command) :
    (s.onlyPending c).producerPort = [] := rfl

@[simp] theorem State.onlyPending_tickPort (c : Command) :
    (s.onlyPending c).tickPort = [] := rfl

@[simp] theorem State.onlyPending_hostPort (c : Command) :
    (s.onlyPending c).hostPort = [c] := rfl

@[simp] theorem State.onlyPending_arbCount (c : Command) :
    (s.onlyPending c).arbCount = s.arbCount := rfl

@[simp] theorem State.onlyPending_resetPending (c : Command) :
    (s.onlyPending c).resetPending = false := rfl

@[simp] theorem State.onlyPending_history (c : Command) :
    (s.onlyPending c).history = s.history := rfl

/-! ## Ports -/

@[simp] theorem State.portQueue_setPort (p : Port) (q : List Command) :
    (s.setPort p q).portQueue p = q := by cases p <;> rfl

theorem State.portQueue_setPort_other {p p' : Port} (h : p' ≠ p) (q : List Command) :
    (s.setPort p q).portQueue p' = s.portQueue p' := by
  cases p <;> cases p' <;> first | rfl | exact absurd rfl h

@[simp] theorem State.portQueue_takeCommand (p : Port) (c : Command) (rest : List Command) :
    (s.takeCommand p c rest).portQueue p = rest := by cases p <;> rfl

theorem State.portQueue_takeCommand_other {p p' : Port} (h : p' ≠ p) (c : Command)
    (rest : List Command) : (s.takeCommand p c rest).portQueue p' = s.portQueue p' := by
  cases p <;> cases p' <;> first | rfl | exact absurd rfl h

@[simp] theorem State.portQueue_issue (p : Port) (c : Command) :
    (s.issue p c).portQueue p = s.portQueue p ++ [c] := by cases p <;> rfl

@[simp] theorem State.portQueue_emit (e : Event) (p : Port) :
    (s.emit e).portQueue p = s.portQueue p := by cases p <;> rfl

@[simp] theorem State.portQueue_respond (r : Response) (p : Port) :
    (s.respond r).portQueue p = s.portQueue p := by cases p <;> rfl

@[simp] theorem State.portQueue_takeReset (p : Port) :
    s.takeReset.portQueue p = s.portQueue p := by cases p <;> rfl

end Sys2Proof.Machine
end

