-- ==== Sys2Proof/Laws/Ops.lean ====
section
/-! SUPPORT. One lemma per shared operation that says what it can do: the history readings, the checks every command passes, the port choice, the framing loop, the tick. -/
namespace Sys2Proof.Machine

/-! ## Reading the history -/

@[simp] theorem channelOf_nil : channelOf [] = [] := rfl

@[simp] theorem channelOf_append_event (h : List Obs) (e : Event) :
    channelOf (h ++ [.event e]) = channelOf h ++ [e] := by simp [channelOf, List.foldl_append]

@[simp] theorem channelOf_append_response (h : List Obs) (r : Response) :
    channelOf (h ++ [.response r]) = channelOf h := by simp [channelOf, List.foldl_append]

@[simp] theorem channelOf_append_taken (h : List Obs) (p : Port) (c : Command) :
    channelOf (h ++ [.taken p c]) = channelOf h := by simp [channelOf, List.foldl_append]

@[simp] theorem channelOf_append_reset (h : List Obs) : channelOf (h ++ [.reset]) = [] := by
  simp [channelOf, List.foldl_append]

/-- The events of a list are appended in order. -/
theorem channelOf_append_events (h : List Obs) (es : List Event) :
    channelOf (h ++ es.map .event) = channelOf h ++ es := by
  induction es generalizing h with
  | nil => simp
  | cons e es ih =>
    have := ih (h ++ [.event e])
    simp only [List.append_assoc, List.singleton_append, channelOf_append_event] at this
    simpa using this

@[simp] theorem State.channel_emit (s : State) (e : Event) :
    (s.emit e).channel = s.channel ++ [e] := by simp [State.channel]

@[simp] theorem State.channel_respond (s : State) (r : Response) :
    (s.respond r).channel = s.channel := by simp [State.channel]

@[simp] theorem State.channel_complete (s : State) : s.complete.channel = s.channel := by
  simp [State.channel]

@[simp] theorem State.channel_refuse (s : State) (st : Status) :
    (s.refuse st).channel = s.channel := by simp [State.channel]

@[simp] theorem State.channel_takeCommand (s : State) (p : Port) (c : Command)
    (rest : List Command) : (s.takeCommand p c rest).channel = s.channel := by
  simp [State.channel]

@[simp] theorem State.channel_takeReset (s : State) : s.takeReset.channel = [] := by
  simp [State.channel]

@[simp] theorem State.channel_raiseFrameFault (s : State) (f : FrameFault) :
    (s.raiseFrameFault f).channel = s.channel ++ [.fault f] := by
  simp only [State.raiseFrameFault, State.channel_complete, State.channel_emit]
  rfl

@[simp] theorem dataPackets_append (es fs : List Event) :
    dataPackets (es ++ fs) = dataPackets es ++ dataPackets fs := by
  induction es with
  | nil => rfl
  | cons e es ih => cases e <;> simp [dataPackets, ih]

@[simp] theorem messagesOf_append (es fs : List Event) :
    messagesOf (es ++ fs) = messagesOf es ++ messagesOf fs := by
  induction es with
  | nil => rfl
  | cons e es ih => cases e <;> simp [messagesOf, ih]

@[simp] theorem faultsOf_append (es fs : List Event) :
    faultsOf (es ++ fs) = faultsOf es ++ faultsOf fs := by
  induction es with
  | nil => rfl
  | cons e es ih => cases e <;> simp [faultsOf, ih]

@[simp] theorem dataPackets_messages (ms : List Bytes) : dataPackets (ms.map .msg) = [] := by
  induction ms with
  | nil => rfl
  | cons m ms ih => simpa [dataPackets] using ih

@[simp] theorem faultsOf_messages (ms : List Bytes) : faultsOf (ms.map .msg) = [] := by
  induction ms with
  | nil => rfl
  | cons m ms ih => simpa [faultsOf] using ih

@[simp] theorem messagesOf_messages (ms : List Bytes) : messagesOf (ms.map .msg) = ms := by
  induction ms with
  | nil => rfl
  | cons m ms ih => simpa [messagesOf] using ih

/-- What one more entry of the history offers (R230). -/
theorem offeredOf_append (h : List Obs) (o : Obs) :
    offeredOf (h ++ [o]) =
      match o with
      | .taken _ c =>
        if c.isInstr .jbAdd && shapeOk .pkt c.operands then offeredOf h ++ [pktArg c.operands]
        else offeredOf h
      | .reset => []
      | .event _ => offeredOf h
      | .response _ => offeredOf h := by
  unfold offeredOf; exact List.foldl_append ..

/-- What one more entry of the history offers since the last stop (R57). -/
theorem offeredSinceStop_append (h : List Obs) (o : Obs) :
    offeredSinceStop (h ++ [o]) =
      match o with
      | .taken _ c =>
        if c.isInstr .jbAdd && shapeOk .pkt c.operands then
          offeredSinceStop h ++ [pktArg c.operands]
        else if c.isInstr .jbStop && shapeOk .none c.operands then []
        else offeredSinceStop h
      | .reset => []
      | .event _ => offeredSinceStop h
      | .response _ => offeredSinceStop h := by
  unfold offeredSinceStop; exact List.foldl_append ..

/-- What one more entry of the history feeds (R150). -/
theorem fedBytes_append (p : Params) (h : List Obs) (o : Obs) :
    fedBytes p (h ++ [o]) =
      match o with
      | .taken _ c =>
        if c.isInstr .frmFeed && shapeOk .bytes c.operands && sizeOk p c.operands then
          fedBytes p h ++ bytesArg c.operands
        else fedBytes p h
      | .reset => []
      | .event _ => fedBytes p h
      | .response _ => fedBytes p h := by
  unfold fedBytes; exact List.foldl_append ..

/-! ## The checks of R322 -/

/-- Operands of the right shape and size: the rule runs. -/
theorem checked_runs {sh : OperandShape} {s : State} (rule : State → State)
    (hsh : shapeOk sh s.operands = true) (hsz : sizeOk s.params s.operands = true) :
    checked sh s rule = .next (rule s) := by simp [checked, hsh, hsz]

/-- All a checked command can do: refuse the shape, refuse the size, or run its rule. -/
theorem checked_cases (sh : OperandShape) (s : State) (rule : State → State) :
    (shapeOk sh s.operands = false ∧ checked sh s rule = .next (s.refuse .illegalCommand)) ∨
    (shapeOk sh s.operands = true ∧ sizeOk s.params s.operands = false ∧
      checked sh s rule = .next (s.refuse .operandLimit)) ∨
    (shapeOk sh s.operands = true ∧ sizeOk s.params s.operands = true ∧
      checked sh s rule = .next (rule s)) := by
  cases h1 : shapeOk sh s.operands <;> cases h2 : sizeOk s.params s.operands <;>
    simp [checked, h1, h2]

@[simp] theorem sizeOk_nil (p : Params) : sizeOk p [] = true := rfl

theorem sizeOk_bytes {p : Params} {b : Bytes} (h : b.length ≤ p.maxOperandBytes) :
    sizeOk p [.bytes b] = true := by simp [sizeOk, operandFits, h]

theorem sizeOk_pkt {p : Params} {q : Packet} (h : q.payload.length ≤ p.maxOperandBytes) :
    sizeOk p [.pkt q] = true := by simp [sizeOk, operandFits, h]

theorem sizeOk_bytesBytes {p : Params} {a b : Bytes} (ha : a.length ≤ p.maxOperandBytes)
    (hb : b.length ≤ p.maxOperandBytes) : sizeOk p [.bytes a, .bytes b] = true := by
  simp [sizeOk, operandFits, ha, hb]

theorem sizeOk_list {p : Params} {l : List Bytes} (hn : l.length ≤ p.maxStreams)
    (h : ∀ b ∈ l, b.length ≤ p.maxOperandBytes) : sizeOk p [.list l] = true := by
  simpa [sizeOk, operandFits, hn] using h

/-! ## The port choice (R85) -/

/-- The port served next has a pending command. -/
theorem choosePort_pending {s : State} {p : Port} (h : choosePort s = some p) :
    s.portQueue p ≠ [] := by
  have hm : p ∈ pendingPorts s := by
    unfold choosePort at h
    split at h
    · cases h
    · rename_i q hq; cases h; simp [hq]
    · rename_i q r rest hq; rw [hq]; exact List.mem_of_getElem? h
  simpa [pendingPorts] using (List.mem_filter.mp hm).2

/-- No port is served exactly when no command is pending. -/
theorem choosePort_none {s : State} :
    choosePort s = none ↔ ∀ p, s.portQueue p = [] := by
  have hlen : ∀ (p q : Port) (rest : List Port) (n : Nat),
      (p :: q :: rest)[n % (rest.length + 2)]? ≠ none := by
    intro p q rest n
    rw [Ne, List.getElem?_eq_none_iff]
    have := Nat.mod_lt n (y := rest.length + 2) (by omega)
    simp only [List.length_cons]; omega
  have key : choosePort s = none ↔ pendingPorts s = [] := by
    unfold choosePort
    split
    · simp_all
    · simp_all
    · rename_i p q rest hq
      simpa [hq] using hlen p q rest (Config.arbiter s.arbCount)
  rw [key, pendingPorts, List.filter_eq_nil_iff]
  constructor
  · intro h p
    have := h p (by cases p <;> simp)
    simpa using this
  · intro h p _
    simp [h p]

/-! ## One step -/

/-- All a step can do: refuse an illegal instance, reset, wait, or take the oldest command of a port
with a pending command and run it. -/
theorem step_cases (s : State) :
    (legalParams s.params = false ∧ step s = .refused .illegalInstance) ∨
    (legalParams s.params = true ∧ s.resetPending = true ∧ step s = .next s.takeReset) ∨
    (legalParams s.params = true ∧ s.resetPending = false ∧ (∀ p, s.portQueue p = []) ∧
      step s = .next s) ∨
    (legalParams s.params = true ∧ s.resetPending = false ∧
      ∃ p c rest, choosePort s = some p ∧ s.portQueue p = c :: rest ∧
        step s = runCommand c (s.takeCommand p c rest)) := by
  unfold step stepBlock
  cases hl : legalParams s.params
  · exact .inl ⟨rfl, by simp⟩
  cases hr : s.resetPending
  · cases hc : choosePort s with
    | none => exact .inr (.inr (.inl ⟨rfl, rfl, choosePort_none.mp hc, by simp [serve, hc]⟩))
    | some p =>
      cases hq : s.portQueue p with
      | nil => exact absurd hq (choosePort_pending hc)
      | cons c rest =>
        exact .inr (.inr (.inr ⟨rfl, rfl, p, c, rest, rfl, hq, by simp [serve, hc, hq]⟩))
  · exact .inr (.inl ⟨rfl, rfl, by simp⟩)

/-- All the run of a command can do: refuse a word that is no command, or run the command. -/
theorem runCommand_cases (c : Command) (s : State) :
    ((∃ e, decode c.word = .error e) ∧ runCommand c s = .next (s.refuse .illegalCommand)) ∨
    ∃ i, decode c.word = .ok i ∧ runCommand c s = exec i s := by
  unfold runCommand
  cases h : decode c.word with
  | ok i => exact .inr ⟨i, rfl, rfl⟩
  | error e => exact .inl ⟨⟨e, rfl⟩, rfl⟩

/-! ## The framing loop (R153 to R155) -/

/-- A whole frame at the front: its four prefix bytes and its payload. -/
theorem frame_at_front {S : Bytes} {L : Int} (h4 : 4 ≤ S.length) (hL : sle32 S 0 = L) (h0 : 0 ≤ L)
    (hlen : L + 4 ≤ (S.length : Int)) :
    frameOf (slice S 4 (4 + L.toNat)) ++ S.drop (L + 4).toNat = S := by
  have hl : (slice S 4 (4 + L.toNat)).length = L.toNat := by
    simp only [slice, List.length_drop, List.length_take]; omega
  have e : (L + 4).toNat = 4 + L.toNat := by omega
  have e2 : ((L.toNat : Nat) : Int) = L := Int.toNat_of_nonneg h0
  rw [frameOf, hl, e2, ← hL, putLe32_sle32 h4, hL, e, slice]
  rw [show S.take 4 = (S.take (4 + L.toNat)).take 4 by simp [List.take_take]]
  rw [List.take_append_drop, List.take_append_drop]

end Sys2Proof.Machine
end

