-- ==== Sys2Proof/Laws/Dispatch.lean ====
section
/-! SUPPORT. Every command is its rule behind the checks of 45_control.md R322: what exec can do, said once for all of them. -/
namespace Sys2Proof.Machine

/-- The rule a command runs once its operands have passed the checks. -/
def ruleOf (i : Instr) (s : State) : State :=
  match i with
  | .frmFeed => frmFeed (bytesArg s.operands) s
  | .frmFrame => frmFrame (bytesArg s.operands) s
  | .rtpParse => s.respond (rtpParse (bytesArg s.operands))
  | .rtpSerialize => rtpSerialize (pktArg s.operands) s
  | .jbStart interval => jbStart interval s
  | .jbStop => jbStop s
  | .jbAdd => jbAdd (pktArg s.operands) s
  | .jbTick => jbTick s
  | .ulawEnc sample => s.respond (Response.ofValue ((ulawEncode sample.toInt).setWidth 32))
  | .ulawDec u => s.respond (Response.ofValue (toWord (ulawDecode u)))
  | .ulawEncStream width channels =>
    s.respond (Response.ofBytes (ulawEncodeStream width channels (bytesArg s.operands)))
  | .ulawDecStream width channels => ulawDecStream width channels (bytesArg s.operands) s
  | .mix width => s.respond (mixResponse width (listArg s.operands))
  | .sub16 =>
    s.respond (Response.ofBytes (sub16Bytes (bytesArg s.operands) (bytesArg2 s.operands)))
  | .rdReg n => rdReg n s

/-- exec is the checks, then the rule. -/
theorem exec_eq_checked (i : Instr) (s : State) :
    exec i s = checked (shapeOf i) s (ruleOf i) := by
  cases i <;> rfl

/-- Operands of the right shape and size: exec runs the rule. -/
theorem exec_runs (i : Instr) (s : State) (hsh : shapeOk (shapeOf i) s.operands = true)
    (hsz : sizeOk s.params s.operands = true) : exec i s = .next (ruleOf i s) := by
  rw [exec_eq_checked, checked_runs _ hsh hsz]

/-- All exec can do. -/
theorem exec_cases (i : Instr) (s : State) :
    (shapeOk (shapeOf i) s.operands = false ∧ exec i s = .next (s.refuse .illegalCommand)) ∨
    (shapeOk (shapeOf i) s.operands = true ∧ sizeOk s.params s.operands = false ∧
      exec i s = .next (s.refuse .operandLimit)) ∨
    (shapeOk (shapeOf i) s.operands = true ∧ sizeOk s.params s.operands = true ∧
      exec i s = .next (ruleOf i s)) := by
  rw [exec_eq_checked]; exact checked_cases _ _ _

/-! ## The jitter buffer's tests as propositions (R230, R233, R234, R236) -/

theorem jbAdmits_iff (s : State) :
    jbAdmits s = true ↔ s.jbOverflowing = false ∧ s.jbQueue.length ≤ s.params.maxPackets := by
  simp [jbAdmits]

theorem stillFilling_iff (s : State) :
    stillFilling s = true ↔ s.jbFilling = true ∧ s.jbQueue.length < s.params.maxPackets / 2 := by
  simp only [stillFilling, Bool.and_eq_true, decide_eq_true_eq]; rfl

theorem overflowAfterRecovery_iff (s : State) :
    overflowAfterRecovery s = true ↔
      s.jbOverflowing = true ∧ s.params.maxPackets / 2 < s.jbQueue.length := by
  simp only [overflowAfterRecovery, Bool.and_eq_true, Bool.not_eq_true', decide_eq_false_iff_not,
    Nat.not_le]
  rfl

theorem lastHasPayload_iff (s : State) :
    lastHasPayload s = true ↔ ∃ p, s.jbLastPacket = some p ∧ 0 < p.payload.length := by
  unfold lastHasPayload; cases s.jbLastPacket <;> simp

theorem fillingAfterEmpty_iff (s : State) :
    fillingAfterEmpty s = true ↔
      s.jbFilling = true ∨ ∃ p, s.jbLastPacket = some p ∧ 0 < p.payload.length := by
  rw [fillingAfterEmpty, Bool.or_eq_true, lastHasPayload_iff]

/-- All steps 2 and 3 of a tick can do (R234 to R236). -/
theorem jbPace_cases (s : State) :
    (s.jbQueue = [] ∧ jbPace s = jbDrained s) ∨
    (s.jbQueue ≠ [] ∧ stillFilling s = true ∧ jbPace s = s.complete) ∨
    (stillFilling s = false ∧ ∃ p rest, s.jbQueue = p :: rest ∧
      jbPace s = jbEmitOldest p rest s) := by
  unfold jbPace
  split
  · rename_i h; exact .inl ⟨h, rfl⟩
  · rename_i p rest h
    cases hf : stillFilling s
    · exact .inr (.inr ⟨rfl, p, rest, h, by simp⟩)
    · exact .inr (.inl ⟨by simp [h], rfl, by simp⟩)

/-- All a tick can do (R232 to R236). -/
theorem jbTick_cases (s : State) :
    (s.jbRunning = false ∧ jbTick s = s.complete) ∨
    (s.jbRunning = true ∧ s.jbQueue = [] ∧
      jbTick s = { s with jbOverflowing := false, jbFilling := fillingAfterEmpty s }.complete) ∨
    (s.jbRunning = true ∧ s.jbQueue ≠ [] ∧ stillFilling s = true ∧
      jbTick s = { s with jbOverflowing := overflowAfterRecovery s }.complete) ∨
    (s.jbRunning = true ∧ stillFilling s = false ∧ ∃ p rest, s.jbQueue = p :: rest ∧
      jbTick s = ({ s with
        jbOverflowing := overflowAfterRecovery s, jbFilling := false, jbQueue := rest,
        jbLastPacket := some p }.emit (.data p)).complete) := by
  unfold jbTick
  split
  · rename_i hr
    rcases jbPace_cases { s with jbOverflowing := overflowAfterRecovery s } with
      ⟨hq, h⟩ | ⟨hq, hf, h⟩ | ⟨hf, p, rest, hq, h⟩
    · exact .inr (.inl ⟨hr, hq, h⟩)
    · exact .inr (.inr (.inl ⟨hr, hq, hf, h⟩))
    · exact .inr (.inr (.inr ⟨hr, hf, p, rest, hq, h⟩))
  · rename_i hr; exact .inl ⟨by simpa using hr, rfl⟩

end Sys2Proof.Machine
end

