-- ==== Sys2Proof/Laws/Framer.lean ====
section
/-! SUPPORT. The emission loop of FRM_FEED (40_framer.md R153 to R155): what it can do, and that the way a byte sequence parses into frames is unique. -/
namespace Sys2Proof.Machine

theorem frameOf_length (m : Bytes) : (frameOf m).length = m.length + 4 := by
  simp [frameOf]; omega

/-- The length a frame starts with is its payload's. -/
theorem sle32_frameOf {m : Bytes} (h : m.length < 2 ^ 31) (T : Bytes) :
    sle32 (frameOf m ++ T) 0 = m.length := by
  rw [frameOf, List.append_assoc]
  exact sle32_putLe32 (by omega) (by exact_mod_cast h) _

/-- Bytes from which the emission loop takes no frame: a partial prefix, a partial frame, or a negative
length. -/
def NoFrameAtFront (r : Bytes) : Prop :=
  (r.length < 4 ∨ (r.length : Int) < sle32 r 0 + 4) ∨ (4 ≤ r.length ∧ sle32 r 0 < 0)

theorem not_noFrameAtFront {m : Bytes} (h : m.length < 2 ^ 31) (T : Bytes) :
    ¬ NoFrameAtFront (frameOf m ++ T) := by
  have h1 := sle32_frameOf h T
  have hl : (frameOf m ++ T).length = m.length + 4 + T.length := by simp [frameOf_length]
  rintro ((h2 | h2) | ⟨h2, h3⟩) <;> omega

/-- A message of a sequence of frames is no longer than the sequence. -/
theorem message_length_le {ms : List Bytes} {r : Bytes} {m : Bytes} (hm : m ∈ ms) :
    m.length + 4 ≤ (ms.flatMap frameOf ++ r).length := by
  induction ms with
  | nil => cases hm
  | cons a as ih =>
    simp only [List.flatMap_cons, List.length_append, frameOf_length] at ih ⊢
    rcases List.mem_cons.mp hm with rfl | h
    · omega
    · have := ih h; omega

/-- A byte sequence parses into frames and a rest in one way only. -/
theorem frames_unique : ∀ (ms ns : List Bytes) (r q : Bytes), (∀ m ∈ ms, m.length < 2 ^ 31) →
    (∀ n ∈ ns, n.length < 2 ^ 31) → NoFrameAtFront r → NoFrameAtFront q →
    ms.flatMap frameOf ++ r = ns.flatMap frameOf ++ q → ms = ns ∧ r = q := by
  intro ms
  induction ms with
  | nil =>
    intro ns r q _ hn hr hq h
    cases ns with
    | nil => exact ⟨rfl, by simpa using h⟩
    | cons n ns =>
      exfalso
      simp only [List.flatMap_nil, List.nil_append, List.flatMap_cons, List.append_assoc] at h
      rw [h] at hr
      exact not_noFrameAtFront (hn n (by simp)) _ hr
  | cons m ms ih =>
    intro ns r q hm hn hr hq h
    cases ns with
    | nil =>
      exfalso
      simp only [List.flatMap_nil, List.nil_append, List.flatMap_cons, List.append_assoc] at h
      rw [← h] at hq
      exact not_noFrameAtFront (hm m (by simp)) _ hq
    | cons n ns =>
      simp only [List.flatMap_cons, List.append_assoc] at h
      have e1 := sle32_frameOf (hm m (by simp)) (ms.flatMap frameOf ++ r)
      have e2 := sle32_frameOf (hn n (by simp)) (ns.flatMap frameOf ++ q)
      rw [h] at e1
      have hfl : (frameOf m).length = (frameOf n).length := by
        simp only [frameOf_length]; omega
      obtain ⟨h3, h4⟩ := List.append_inj h hfl
      have h5 : m = n := by simpa [frameOf, putLe32] using congrArg (List.drop 4) h3
      obtain ⟨h6, h7⟩ := ih ns r q (fun x hx => hm x (by simp [hx]))
        (fun x hx => hn x (by simp [hx])) hr hq h4
      exact ⟨by rw [h5, h6], h7⟩

/-- The state after a run of messages has been emitted and the rest is left in FRM.acc. -/
def afterMessages (s : State) (ms : List Bytes) (rest : Bytes) : State :=
  { s with frmAcc := rest, history := s.history ++ ms.map (fun m => Obs.event (.msg m)) }

theorem afterMessages_cons (s : State) (L : Int) (ms : List Bytes) (rest : Bytes) :
    afterMessages (frmTakeFrame L s) ms rest =
      afterMessages s (slice s.frmAcc 4 (4 + L.toNat) :: ms) rest := by
  simp [afterMessages, frmTakeFrame, State.emit]

/-- All the emission loop can do: it emits the messages of the whole frames at the front and then
completes with no frame left, or finds a negative length. The bound on its turns does not matter. -/
theorem frmLoop_cases (n : Nat) : ∀ (L : Int) (s : State), 4 ≤ s.frmAcc.length →
    sle32 s.frmAcc 0 = L → s.frmAcc.length ≤ n →
    ∃ (ms : List Bytes) (rest : Bytes), s.frmAcc = ms.flatMap frameOf ++ rest ∧
      (((rest.length < 4 ∨ (rest.length : Int) < sle32 rest 0 + 4) ∧
          frmLoop n L s = (afterMessages s ms rest).complete) ∨
       (4 ≤ rest.length ∧ sle32 rest 0 < 0 ∧
          frmLoop n L s = (afterMessages s ms rest).raiseFrameFault .negLength)) := by
  induction n with
  | zero => intro L s h4 _ hn; omega
  | succ n ih =>
    intro L s h4 hL hn
    unfold frmLoop
    split
    · rename_i h
      exact ⟨[], s.frmAcc, by simp, .inl ⟨.inr (by omega), by simp [afterMessages]⟩⟩
    rename_i h
    split
    · exact ⟨[], s.frmAcc, by simp, .inr ⟨h4, by omega, by simp [afterMessages]⟩⟩
    rename_i h0
    have hf := frame_at_front h4 hL (by omega) (by omega)
    split
    · rename_i h5
      refine ⟨[slice s.frmAcc 4 (4 + L.toNat)], s.frmAcc.drop (L + 4).toNat,
        by simpa using hf.symm, .inl ⟨.inl (by simpa [frmTakeFrame] using h5), ?_⟩⟩
      simp [afterMessages, frmTakeFrame, State.emit]
    · rename_i h5
      have hlen : (frmTakeFrame L s).frmAcc.length ≤ n := by
        simp only [frmTakeFrame, List.length_drop]; omega
      obtain ⟨ms, rest, he, hc⟩ := ih (sle32 (frmTakeFrame L s).frmAcc 0) (frmTakeFrame L s)
        (by omega) rfl hlen
      have he' : s.frmAcc.drop (L + 4).toNat = ms.flatMap frameOf ++ rest := he
      refine ⟨slice s.frmAcc 4 (4 + L.toNat) :: ms, rest, ?_, ?_⟩
      · rw [List.flatMap_cons, List.append_assoc, ← he', hf]
      · rw [← afterMessages_cons]; exact hc

/-- The emission loop on bytes already parsed into frames and a rest with no frame at its front. -/
theorem frmLoop_of_frames (s : State) (ms : List Bytes) (rest : Bytes)
    (hcap : s.frmAcc.length < 2 ^ 31) (h4 : 4 ≤ s.frmAcc.length)
    (he : s.frmAcc = ms.flatMap frameOf ++ rest) (hr : NoFrameAtFront rest) :
    frmLoop s.frmAcc.length (sle32 s.frmAcc 0) s =
      if 4 ≤ rest.length ∧ sle32 rest 0 < 0 then
        (afterMessages s ms rest).raiseFrameFault .negLength
      else (afterMessages s ms rest).complete := by
  obtain ⟨ns, q, he2, hc⟩ := frmLoop_cases s.frmAcc.length _ s h4 rfl le_rfl
  have hq : NoFrameAtFront q := by
    rcases hc with ⟨h, _⟩ | ⟨h, h', _⟩
    · exact .inl h
    · exact .inr ⟨h, h'⟩
  have hms : ∀ m ∈ ms, m.length < 2 ^ 31 := fun m hm => by
    have := message_length_le (r := rest) hm; rw [← he] at this; omega
  have hns : ∀ n ∈ ns, n.length < 2 ^ 31 := fun m hm => by
    have := message_length_le (r := q) hm; rw [← he2] at this; omega
  obtain ⟨rfl, rfl⟩ := frames_unique ns ms q rest hns hms hq hr (by rw [← he2, ← he])
  rcases hc with ⟨h, h2⟩ | ⟨h, h', h2⟩
  · rw [h2, if_neg]; rintro ⟨a, b⟩; rcases h with h | h <;> omega
  · rw [h2, if_pos ⟨h, h'⟩]

/-- All the parse of FRM.acc can do (R151, R152): overflow, a partial prefix, a first length above
10000, or the emission loop. -/
theorem frmParse_cases (s : State) :
    (10000 < s.frmAcc.length ∧ frmParse s = s.raiseFrameFault .bufOverflow) ∨
    (s.frmAcc.length ≤ 10000 ∧ s.frmAcc.length < 4 ∧ frmParse s = s.complete) ∨
    (s.frmAcc.length ≤ 10000 ∧ 4 ≤ s.frmAcc.length ∧ 10000 < sle32 s.frmAcc 0 ∧
      frmParse s = s.raiseFrameFault .lenTooBig) ∨
    (s.frmAcc.length ≤ 10000 ∧ 4 ≤ s.frmAcc.length ∧ sle32 s.frmAcc 0 ≤ 10000 ∧
      frmParse s = frmLoop s.frmAcc.length (sle32 s.frmAcc 0) s) := by
  unfold frmParse maxBufferLength
  split
  · exact .inl ⟨by assumption, rfl⟩
  · split
    · exact .inr (.inl ⟨by omega, by assumption, rfl⟩)
    · split
      · exact .inr (.inr (.inl ⟨by omega, by omega, by assumption, rfl⟩))
      · exact .inr (.inr (.inr ⟨by omega, by omega, by push_cast at *; omega, rfl⟩))

/-- What FRM_FEED leaves, whatever it is fed: messages, then at most one fault, then OK. -/
theorem frmFeed_result (chunk : Bytes) (s : State) :
    ∃ (ms : List Bytes) (rest : Bytes) (f : Option FrameFault),
      (∀ m ∈ ms, m.length ≤ 9996) ∧ rest.length ≤ 10000 ∧ (f ≠ none → rest = []) ∧
      (f = none → s.frmAcc ++ chunk = ms.flatMap frameOf ++ rest ∧
        (rest.length < 4 ∨ (rest.length : Int) < sle32 rest 0 + 4)) ∧
      frmFeed chunk s =
        { s with
          frmAcc := rest
          operands := []
          history := s.history ++ (ms.map Event.msg ++ f.toList.map Event.fault).map Obs.event ++
            [.response (Response.ofStatus .ok)] } := by
  unfold frmFeed
  rcases frmParse_cases { s with frmAcc := s.frmAcc ++ chunk } with
    ⟨h, h'⟩ | ⟨_, h, h'⟩ | ⟨_, _, _, h'⟩ | ⟨h1, h2, _, h'⟩ <;> rw [h']
  · exact ⟨[], [], some .bufOverflow, by simp, by simp, by simp, by simp,
      by simp [State.raiseFrameFault, State.emit, State.complete, State.respond]⟩
  · exact ⟨[], s.frmAcc ++ chunk, none, by simp, by simp only at h ⊢; omega, by simp,
      fun _ => ⟨rfl, .inl h⟩, by simp [State.complete, State.respond]⟩
  · exact ⟨[], [], some .lenTooBig, by simp, by simp, by simp, by simp,
      by simp [State.raiseFrameFault, State.emit, State.complete, State.respond]⟩
  · obtain ⟨ms, rest, he, hc⟩ := frmLoop_cases _ _ _ h2 rfl le_rfl
    simp only at he h1
    have hm : ∀ m ∈ ms, m.length ≤ 9996 := fun m hm => by
      have := message_length_le (r := rest) hm; rw [← he] at this; omega
    have hrl : rest.length ≤ 10000 := by rw [he, List.length_append] at h1; omega
    rcases hc with ⟨h, hc⟩ | ⟨_, _, hc⟩ <;> rw [hc]
    · exact ⟨ms, rest, none, hm, hrl, by simp, fun _ => ⟨he, h⟩,
        by simp [afterMessages, State.complete, State.respond]⟩
    · exact ⟨ms, [], some .negLength, hm, by simp, by simp, by simp,
        by simp [afterMessages, State.raiseFrameFault, State.emit, State.complete, State.respond]⟩

end Sys2Proof.Machine
end

