-- ==== Sys2Proof/Laws/PerInstr.lean ====
section
/-! SUPPORT. One family of facts per constructor of Instr: the low byte of a command's word is its opcode (30_encoding.md R101, R105). -/
namespace Sys2Proof.Laws

/-- The OPC field of the word the encoder writes is the command's opcode. -/
def EncodedOpcode.Statement (i : Instr) : Prop := fieldOpc (encode i) = i.opcode

theorem fieldOpc_packWord (opc : BitVec 8) (a b : BitVec 4) (imm : BitVec 16) :
    fieldOpc (packWord opc a b imm) = opc := by
  unfold fieldOpc packWord
  ext i hi
  rw [BitVec.getElem_extractLsb', BitVec.getLsbD_append]
  simp [hi]

theorem EncodedOpcode.frmFeed : Statement .frmFeed := fieldOpc_packWord ..
theorem EncodedOpcode.frmFrame : Statement .frmFrame := fieldOpc_packWord ..
theorem EncodedOpcode.rtpParse : Statement .rtpParse := fieldOpc_packWord ..
theorem EncodedOpcode.rtpSerialize : Statement .rtpSerialize := fieldOpc_packWord ..
theorem EncodedOpcode.jbStart (x : BitVec 16) : Statement (.jbStart x) := fieldOpc_packWord ..
theorem EncodedOpcode.jbStop : Statement .jbStop := fieldOpc_packWord ..
theorem EncodedOpcode.jbAdd : Statement .jbAdd := fieldOpc_packWord ..
theorem EncodedOpcode.jbTick : Statement .jbTick := fieldOpc_packWord ..
theorem EncodedOpcode.ulawEnc (x : BitVec 16) : Statement (.ulawEnc x) := fieldOpc_packWord ..
theorem EncodedOpcode.ulawDec (u : Byte) : Statement (.ulawDec u) := fieldOpc_packWord ..
theorem EncodedOpcode.ulawEncStream (w : SampleWidth) (c : Channels) :
    Statement (.ulawEncStream w c) := fieldOpc_packWord ..
theorem EncodedOpcode.ulawDecStream (w : SampleWidth) (c : Channels) :
    Statement (.ulawDecStream w c) := fieldOpc_packWord ..
theorem EncodedOpcode.mix (w : SampleWidth) : Statement (.mix w) := fieldOpc_packWord ..
theorem EncodedOpcode.sub16 : Statement .sub16 := fieldOpc_packWord ..
theorem EncodedOpcode.rdReg (n : BitVec 16) : Statement (.rdReg n) := fieldOpc_packWord ..

end Sys2Proof.Laws
end

