-- ==== Sys2Proof/Laws/Words.lean ====
section
/-! SUPPORT. The fields of a packed command word, and a word packed again from its fields (30_encoding.md R101). -/
namespace Sys2Proof.Laws

theorem fieldA_packWord (opc : BitVec 8) (a b : BitVec 4) (imm : BitVec 16) :
    fieldA (packWord opc a b imm) = a := by
  unfold fieldA packWord
  ext i hi
  rw [BitVec.getElem_extractLsb', BitVec.getLsbD_append, BitVec.getLsbD_append]
  simp [hi]

theorem fieldB_packWord (opc : BitVec 8) (a b : BitVec 4) (imm : BitVec 16) :
    fieldB (packWord opc a b imm) = b := by
  unfold fieldB packWord
  ext i hi
  rw [BitVec.getElem_extractLsb', BitVec.getLsbD_append, BitVec.getLsbD_append,
    BitVec.getLsbD_append]
  have h1 : ¬ (12 + i < 8) := by omega
  have h2 : ¬ (12 + i - 8 < 4) := by omega
  have h3 : 12 + i - 8 - 4 = i := by omega
  simp [hi, h1, h2, h3]

theorem fieldImm_packWord (opc : BitVec 8) (a b : BitVec 4) (imm : BitVec 16) :
    fieldImm (packWord opc a b imm) = imm := by
  unfold fieldImm packWord
  ext i hi
  rw [BitVec.getElem_extractLsb', BitVec.getLsbD_append, BitVec.getLsbD_append,
    BitVec.getLsbD_append]
  have h1 : ¬ (16 + i < 8) := by omega
  have h2 : ¬ (16 + i - 8 < 4) := by omega
  have h3 : ¬ (16 + i - 8 - 4 < 4) := by omega
  have h4 : 16 + i - 8 - 4 - 4 = i := by omega
  simp [hi, h1, h2, h3, h4]

/-- A word is its four fields. -/
theorem packWord_fields (w : Word) :
    packWord (fieldOpc w) (fieldA w) (fieldB w) (fieldImm w) = w := by
  unfold fieldImm packWord fieldA fieldB fieldOpc
  apply BitVec.eq_of_getLsbD_eq
  intro i hi
  simp only [BitVec.getLsbD_append, BitVec.getLsbD_extractLsb']
  split
  · simp [*]
  split
  · rw [show 8 + (i - 8) = i by omega]; simp; omega
  split
  · rw [show 12 + (i - 8 - 4) = i by omega]; simp; omega
  · rw [show 16 + (i - 8 - 4 - 4) = i by omega]; simp; omega

end Sys2Proof.Laws
end

