-- ==== Sys2Proof/Tests/Slice0.lean ====
section
/-! SUPPORT. Tests. Expected results are those of spec/95_test_vectors.md, whose vector each comment names, or are written out from 30_encoding.md R105, R106. The last part holds, for every obligation with hypotheses, a concrete state and operands that meet them. -/
namespace Sys2Proof.Tests
open Sys2Proof Sys2Proof.Machine

/-! ## WellFormed and decode -/

theorem test_wellformed_refuses_register_6 : (Instr.rdReg 6).wellFormed = false := by decide
theorem test_wellformed_accepts_register_5 : (Instr.rdReg 5).wellFormed = true := by decide

/-- One word per row of R106, fields written out as IMM16, B, A, OPC. -/
theorem test_decode_every_row :
    decode 0x00000001 = .ok .frmFeed ∧ decode 0x00000002 = .ok .frmFrame ∧
    decode 0x00000010 = .ok .rtpParse ∧ decode 0x00000011 = .ok .rtpSerialize ∧
    decode 0xFFFF0020 = .ok (.jbStart 65535) ∧ decode 0x00000021 = .ok .jbStop ∧
    decode 0x00000022 = .ok .jbAdd ∧ decode 0x00000023 = .ok .jbTick ∧
    decode 0x12340030 = .ok (.ulawEnc 0x1234) ∧ decode 0x00FF0031 = .ok (.ulawDec 0xFF) ∧
    decode 0x00001032 = .ok (.ulawEncStream .bits8 .two) ∧
    decode 0x00001133 = .ok (.ulawDecStream .bits16 .two) ∧
    decode 0x00000040 = .ok (.mix .bits8) ∧ decode 0x00000041 = .ok .sub16 ∧
    decode 0x000200F0 = .ok (.rdReg 2) := by decide

/-- CTL-3 to CTL-9, and an opcode in each gap of R128. -/
theorem test_decode_refuses :
    [0x000600F0, 0x00000000, 0x00000003, 0x00010001, 0x00000240, 0x00001040, 0x01000031,
      0x00000012, 0x00000024, 0x00000034, 0x00000042, 0x000000FF, 0x00000120, 0x00002032,
      0x00000233, 0x00001023].all (fun w : Word => !(decode w).isOk) = true := by decide

/-- The words of R106 as the opcode table numbers their bits. -/
theorem test_decodeTableWord :
    decodeTableWord 32 0x00001132 = some (.ulawEncStream .bits16 .two) ∧
    decodeTableWord 32 0x000600F0 = none ∧ decodeTableWord 64 0x100000001 = none := by decide

/-- No two rows of R106 can hold of one word: their masked opcodes differ (R107). -/
theorem test_rows_do_not_overlap :
    opcodeTable.Pairwise (fun r r' => r.pattern.extractLsb' 0 8 ≠ r'.pattern.extractLsb' 0 8) ∧
    opcodeTable.all (fun r => r.mask.extractLsb' 0 8 == 0xFF) = true := by decide

/-! ## Helpers -/

/-- The reset state with operands in place. -/
def ready (ops : List Operand) : State := { State.reset with operands := ops }

/-- The smallest legal instance. -/
def smallest : Params := { maxPackets := 2, maxOperandBytes := 10004, maxStreams := 2 }

/-- The next state, where there is one. -/
def nextOf : Result → Option State
  | .next t => some t
  | .fault _ => none
  | .refused _ => none

/-- The response that ended the last command. -/
def answerOf (r : Result) : Option Response := (nextOf r).bind fun t => (responsesOf t.history).getLast?

/-- The events of the run so far. -/
def eventsOf (r : Result) : Option (List Event) := (nextOf r).map State.channel

/-- A packet with one payload byte. -/
def packet (b : Byte) : Packet := { Packet.empty with valid := true, payload := [b] }

/-- Commands one after the other, from a state. -/
def afterAll (cs : List (Instr × List Operand)) (s : State) : Option State := nextOf (execAll cs s)

/-! ## FRM -/

/-- FRM-6: a frame, then a negative length. -/
theorem test_frmFeed_message_then_fault :
    eventsOf (exec .frmFeed (ready [.bytes [1, 0, 0, 0, 1, 0xFE, 0xFF, 0xFF, 0xFF]])) =
      some [.msg [1], .fault .negLength] := by decide +kernel

/-- FRM-9: the length read again is not checked and stays in FRM.acc. -/
theorem test_frmFeed_reread_length_stays :
    (nextOf (exec .frmFeed (ready [.bytes [1, 0, 0, 0, 1, 0x11, 0x27, 0, 0]]))).map State.frmAcc =
      some [0x11, 0x27, 0, 0] := by decide +kernel

/-- FRM-1. -/
theorem test_frmFrame :
    answerOf (exec .frmFrame (ready [.bytes [0xAA, 0xBB, 0xCC]])) =
      some (Response.ofBytes [3, 0, 0, 0, 0xAA, 0xBB, 0xCC]) := by decide +kernel

/-! ## RTP -/

/-- RTP-2: sourceId is read little-endian. -/
theorem test_rtpParse_sourceId :
    (answerOf (exec .rtpParse (ready [.bytes
      [0x80, 0xE0, 0x12, 0x34, 0x89, 0xAB, 0xCD, 0xEF, 1, 2, 3, 4, 0xAA, 0xBB]]))).map
        (fun r => (r.status, r.pkt.sourceId, r.pkt.payloadType, r.pkt.payload)) =
      some (.ok, 0x04030201, 96, [0xAA, 0xBB]) := by decide +kernel

/-- RTP-13: a CSRC word and an empty extension are skipped. -/
theorem test_rtpParse_skips_csrc :
    (answerOf (exec .rtpParse (ready [.bytes
      [0x91, 0, 0, 1, 0, 0, 0, 2, 0, 0, 0, 3, 0xAA, 0xAA, 0xAA, 0xAA, 0x10, 0, 0, 0, 0x77]]))).map
        (fun r => (r.status, r.pkt.extensionHeaderId, r.pkt.headerLength, r.pkt.payload)) =
      some (.ok, 0x1000, 20, [0x77]) := by decide +kernel

/-- RTP-18. -/
theorem test_rtpSerialize :
    answerOf (exec .rtpSerialize (ready [.pkt { Packet.empty with
        version := 2, padding := true, payloadType := 127, sequenceNumber := 0xFFFF,
        sourceId := 0x12344321 }])) =
      some (Response.ofBytes [0xA0, 0x7F, 0xFF, 0xFF, 0, 0, 0, 0, 0x12, 0x34, 0x43, 0x21]) := by
  decide +kernel

/-! ## JB -/

/-- JB-10. -/
theorem test_jbStart_interval :
    [0, 40, 65535].map (fun ms => (nextOf (exec (.jbStart ms) (ready []))).map State.jbInterval) =
      [some 20, some 40, some 65535] := by decide +kernel

/-- JB-8: JB_STOP discards the queue. -/
theorem test_jbStop_discards :
    (afterAll ([(.jbStart 0, [])] ++ adds [packet 1, packet 2] ++ [(.jbStop, []), (.jbTick, [])])
        State.reset).map (fun s => (s.jbQueue, s.jbRunning, s.channel)) =
      some ([], false, []) := by decide +kernel

/-- JB-2, JB-4: the fifth packet is admitted and the sixth dropped. -/
theorem test_jbAdd_drop_point :
    (afterAll ((.jbStart 0, []) :: adds [packet 1, packet 2, packet 3, packet 4, packet 5, packet 6])
        State.reset).map (fun s => (s.jbQueue.length, jbStatus s)) = some (5, 0x00000007) := by
  decide +kernel

/-- JB-1: nothing on the first tick, then one packet a tick, oldest first. -/
theorem test_jbTick_pacing :
    (afterAll ((.jbStart 0, []) :: addThenTick [packet 1, packet 2, packet 3]) State.reset).map
        (fun s => (s.channel, s.jbQueue, s.jbFilling)) =
      some ([.data (packet 1), .data (packet 2)], [packet 3], false) := by decide +kernel

/-- JB-5: a tick at more than H packets leaves the overflow flag set. -/
theorem test_jbTick_overflow_stays :
    (afterAll ((.jbStart 0, []) :: adds [packet 1, packet 2, packet 3, packet 4, packet 5, packet 6] ++
        [(.jbTick, [])]) State.reset).map jbStatus = some 0x0000001E := by decide +kernel

/-! ## ULAW -/

/-- ULAW-E. -/
theorem test_ulawEnc :
    [0, 1000, -1000, 4064, 32767, -32768, -1].map ulawEncode =
      [0xFF, 0xCE, 0x4E, 0xAF, 0x80, 0x00, 0x7E] := by decide +kernel

/-- ULAW-E: the word 0x80000030, through the step's own fetch. -/
theorem test_ulawEnc_step :
    answerOf (step (State.reset.withFetchWord 32 0xFC180030)) = some (Response.ofValue 0x4E) := by
  decide +kernel

/-- ULAW-E, last column: ULAW_DEC of 0x4E is -988. -/
theorem test_ulawDec :
    answerOf (exec (.ulawDec 0x4E) (ready [])) = some (Response.ofValue 0xFFFFFC24) := by
  decide +kernel

/-- R272: two-channel frames give channel 0's codes; a partial frame is dropped. 1000 is 0x03E8. -/
theorem test_ulawEncStream :
    answerOf (exec (.ulawEncStream .bits16 .two)
        (ready [.bytes [0xE8, 0x03, 0, 0, 0x18, 0xFC, 0, 0, 0xE8, 0x03]])) =
      some (Response.ofBytes [0xCE, 0x4E]) := by decide +kernel

/-- R270: 0xCE is 988 = 0x03DC, once per channel. -/
theorem test_ulawDecStream :
    answerOf (exec (.ulawDecStream .bits16 .two) (ready [.bytes [0xCE]])) =
      some (Response.ofBytes [0xDC, 0x03, 0xDC, 0x03]) := by decide +kernel

/-! ## MIX -/

/-- MIX-1: [100, -100] and [50, 50] give [150, -50], peak 150. -/
theorem test_mix16 :
    answerOf (exec (.mix .bits16) (ready [.list [[100, 0, 0x9C, 0xFF], [50, 0, 50, 0]]])) =
      some { Response.ofBytes [150, 0, 0xCE, 0xFF] with
        value := 150, ints := [[150, 0xFFFFFFCE], [150, 50]] } := by decide +kernel

/-- CTL-12: three streams where two are allowed. -/
theorem test_mix_over_max_streams :
    answerOf (exec (.mix .bits16)
        { State.resetWith smallest with operands := [.list [[1, 0], [2, 0], [3, 0]]] }) =
      some (Response.ofStatus .operandLimit) := by decide +kernel

/-- R300: -32768 minus 1 clamps; the missing second sample is 0; the odd byte is 0. -/
theorem test_sub16 :
    answerOf (exec .sub16 (ready [.bytes [0, 0x80, 7, 0, 9], .bytes [1, 0]])) =
      some (Response.ofBytes [0, 0x80, 7, 0, 0]) := by decide +kernel

/-! ## Control -/

/-- CTL-1. -/
theorem test_rdReg_after_reset :
    [0, 1, 2, 3, 4, 5].map (fun n : BitVec 16 =>
      (answerOf (exec (.rdReg n) (ready []))).map Response.value) =
      [some 0, some 1, some 0, some 4, some 20, some 10000] := by decide +kernel

/-- CTL-13: an extra operand is a wrong shape, not an operand over the limit. -/
theorem test_rdReg_extra_operand :
    answerOf (exec (.rdReg 0) (ready [.bytes []])) = some (Response.ofStatus .illegalCommand) := by
  decide +kernel

/-! ## Assembler -/

/-- The example line of R133 with an agent, a label and a comment. -/
theorem test_assemble_line :
    assemble "@producer in: FRM_FEED [03 00 00 00 AA BB CC] ; one frame" =
      .ok ⟨.producer, some "in", ⟨0x00000001, [.bytes [3, 0, 0, 0, 0xAA, 0xBB, 0xCC]]⟩⟩ := by
  decide +kernel

/-- R134: the alias with its width as an immediate. -/
theorem test_assemble_mix_alias :
    assemble "mix ([01 00], []), 16" = .ok ⟨.host, none, ⟨0x00000140, [.list [[1, 0], []]]⟩⟩ := by
  decide +kernel

/-- R133: a signed immediate is decimal only. -/
theorem test_assemble_signed_immediate :
    assemble "ULAW_ENC -1000" = .ok ⟨.host, none, ⟨0xFC180030, []⟩⟩ ∧
    assemble "ULAW_ENC -0x10" = .error .badOperand := by decide +kernel

/-! ## Witnesses: for each obligation with hypotheses, a state and operands that meet them -/

/-- A command pending alone on the host port of the reset state. -/
def pending (w : Word) (ops : List Operand) : State := State.reset.onlyPending ⟨w, ops⟩

theorem witness_DecodeOfEncodeIsIdentity :
    (Instr.rdReg 5).wellFormed = true ∧ (Instr.jbStart 65535).wellFormed = true := by decide

theorem witness_EncodeOfDecodeIsIdentity : decode 0x000500F0 = .ok (.rdReg 5) := by decide

theorem witness_DecodingIsTotalAndUnambiguous :
    shapeOk (shapeOf .jbAdd) (ready [.bytes []]).operands = false := by decide

theorem witness_StepRunsDecodedCommand :
    let s := pending 0x00000001 [.bytes [1, 0]]
    legalParams s.params = true ∧ s.resetPending = false ∧ choosePort s = some .host ∧
    s.portQueue .host = [⟨0x00000001, [.bytes [1, 0]]⟩] ∧ decode 0x00000001 = .ok .frmFeed := by
  decide +kernel

theorem witness_StepKeepsIssueOrder :
    let s := ((State.reset.issue .tick ⟨0x23, []⟩).issue .tick ⟨0x23, []⟩).issue .host ⟨0x20, []⟩
    legalParams s.params = true ∧ s.resetPending = false ∧ s.portQueue .tick ≠ [] ∧
    s.portQueue .host ≠ [] := by decide +kernel

theorem witness_IllegalWordIsRefused :
    let s := pending 0x000600F0 []
    legalParams s.params = true ∧ s.resetPending = false ∧ choosePort s = some .host ∧
    s.portQueue .host = [⟨0x000600F0, []⟩] ∧
    decode 0x000600F0 = .error (.reservedRegister 6) := by decide +kernel

/-- Each of the four clauses, one over the limit of the smallest legal instance. -/
theorem witness_OversizeOperandIsRefused :
    let big := List.replicate 10005 (0 : Byte)
    let s := fun ops => { State.resetWith smallest with operands := ops }
    (shapeOk (shapeOf .frmFeed) (s [.bytes big]).operands = true ∧
      smallest.maxOperandBytes < big.length) ∧
    (shapeOk (shapeOf .jbAdd) (s [.pkt { Packet.empty with payload := big }]).operands = true ∧
      smallest.maxOperandBytes < big.length) ∧
    (shapeOk (shapeOf (.mix .bits8)) (s [.list [[], [], []]]).operands = true ∧
      smallest.maxStreams < [([] : Bytes), [], []].length) ∧
    (shapeOk (shapeOf (.mix .bits8)) (s [.list [big]]).operands = true ∧
      smallest.maxOperandBytes < big.length) := by
  simp only [List.length_replicate]
  exact ⟨⟨rfl, by decide⟩, ⟨rfl, by decide⟩, ⟨rfl, by decide⟩, ⟨rfl, by decide⟩⟩

/-- Two states that differ in the units' state, with the same operands and parameters. -/
theorem witness_StatelessCommandsOnlyAnswer :
    let s := ready [.bytes [1, 2]]
    let u := { ready [.bytes [1, 2]] with frmAcc := [7], jbRunning := true }
    isStateless .frmFrame = true ∧ u.operands = s.operands ∧ u.params = s.params ∧ u ≠ s := by
  decide +kernel

theorem witness_UnitsTouchOnlyTheirState : isJb .jbTick = true := rfl

theorem witness_FramerAndJitterCommute : isJb (.jbStart 0) = true := rfl

theorem witness_RdRegReturnsTheRegister : (ready []).operands = [] := rfl

theorem witness_ReservedRegisterIsRefused : 6 ≤ (6 : BitVec 16).toNat := by decide

theorem witness_ResetDiscardsWithoutEvents :
    let s := { State.reset.askReset with frmAcc := [1], jbRunning := true }
    legalParams s.params = true ∧ s.resetPending = true := by decide +kernel

/-- A state in the middle of a run, with a packet emitted and a command pending, that takes a reset. -/
theorem witness_EveryResetLeavesACleanState :
    let s := { (pending 0x23 []).askReset with
      frmAcc := [1], jbRunning := true, jbLastPacket := some (packet 1),
      history := [.event (.data (packet 1))] }
    legalParams s.params = true ∧ s.resetPending = true ∧ s.channel ≠ [] := by decide +kernel

/-- The reset state is clean, and so is a state of a later run, which no reset state equals (R385). -/
theorem test_clean_after_an_earlier_run :
    let s := { State.reset with history := [.event (.data (packet 1)), .reset], arbCount := 3 }
    clean Config.defaultParams s ∧ s ≠ State.reset :=
  ⟨⟨rfl, rfl, rfl, rfl, rfl, rfl, rfl, rfl, rfl, rfl⟩, by decide +kernel⟩

theorem witness_RegistersAfterReset : legalParams smallest = true := by decide

/-- Both sides of the equivalences, at the bounds. -/
theorem witness_IllegalInstanceIsRefused :
    legalParams smallest = true ∧ legalParams { smallest with maxPackets := 1 } = false ∧
    legalParams { smallest with maxPackets := 65536 } = false ∧
    legalParams { smallest with maxOperandBytes := 10003 } = false ∧
    legalParams { smallest with maxStreams := 1 } = false := by decide

theorem witness_IdleStepWaits :
    legalParams State.reset.params = true ∧ State.reset.resetPending = false ∧
    ∀ p, State.reset.portQueue p = [] :=
  ⟨by decide, rfl, fun p => by cases p <;> rfl⟩

/-- The reset state with bytes in FRM.acc and a chunk to feed. -/
def feeding (acc chunk : Bytes) : State := { ready [.bytes chunk] with frmAcc := acc }

/-- Both clauses, at 10001 and at 10000 bytes. -/
theorem witness_FeedOverflowClears :
    let c := List.replicate 9999 (0 : Byte)
    (feeding [1, 2] c).operands = [.bytes c] ∧
    c.length ≤ (feeding [1, 2] c).params.maxOperandBytes ∧
    10000 < (feeding [1, 2] c).frmAcc.length + c.length ∧
    (feeding [1] c).frmAcc.length + c.length ≤ 10000 := by
  simp only [List.length_replicate]
  exact ⟨rfl, by decide, by decide, by decide⟩

/-- The three clauses: 3 bytes, 4 bytes with length 10001, 4 bytes with length 10000 (FRM-7, FRM-8). -/
theorem witness_FeedReadsTheFirstLength :
    let acc : Bytes := [0x11]
    let s := fun c => feeding acc c
    (s [0x27, 0]).operands = [.bytes [0x27, 0]] ∧
    [0x27, (0 : Byte)].length ≤ (s [0x27, 0]).params.maxOperandBytes ∧
    (acc ++ [0x27, 0]).length ≤ 10000 ∧ (acc ++ [0x27, 0]).length < 4 ∧
    4 ≤ (acc ++ [0x27, 0, 0]).length ∧ 10000 < sle32 (acc ++ [0x27, 0, 0]) 0 ∧
    sle32 [0x10, 0x27, 0, 0] 0 ≤ 10000 := by decide +kernel

/-- Both forms of the rest: a partial prefix, and a length of 10001 that is not the first read. -/
theorem witness_FeedEmitsEveryCompleteFrame :
    let c : Bytes := [0, 0, 7, 5, 0]
    let d : Bytes := [0, 0, 7, 0x11, 0x27, 0, 0]
    (feeding [1, 0] c).operands = [.bytes c] ∧
    c.length ≤ (feeding [1, 0] c).params.maxOperandBytes ∧ ([1, 0] ++ c).length ≤ 10000 ∧
    [1, 0] ++ c = [[(7 : Byte)]].flatMap frameOf ++ [5, 0] ∧ [(5 : Byte), 0].length < 4 ∧
    [1, 0] ++ d = [[(7 : Byte)]].flatMap frameOf ++ [0x11, 0x27, 0, 0] ∧
    (([0x11, 0x27, 0, 0] : Bytes).length : Int) < sle32 [0x11, 0x27, 0, 0] 0 + 4 ∧
    sle32 [0x10, 0x27, 0, 0] 0 ≤ 10000 := by decide +kernel

/-- FRM-6, from a partial prefix. -/
theorem witness_FeedNegativeLengthFaults :
    let c : Bytes := [0, 0, 0, 1, 0xFF, 0xFF, 0xFF, 0xFF]
    (feeding [1] c).operands = [.bytes c] ∧
    c.length ≤ (feeding [1] c).params.maxOperandBytes ∧ ([1] ++ c).length ≤ 10000 ∧
    [1] ++ c = [[(1 : Byte)]].flatMap frameOf ++ [0xFF, 0xFF, 0xFF, 0xFF] ∧
    sle32 [0xFF, 0xFF, 0xFF, 0xFF] 0 < 0 := by decide +kernel

/-- FRM-9. -/
theorem witness_RereadLengthIsCaughtNextFeed :
    let c : Bytes := [1, 0, 0, 0, 1, 0x11, 0x27, 0, 0]
    c.length ≤ State.reset.params.maxOperandBytes ∧
    ([] : Bytes).length ≤ State.reset.params.maxOperandBytes ∧
    (State.reset.frmAcc ++ c).length ≤ 10000 ∧
    State.reset.frmAcc ++ c = [[(1 : Byte)]].flatMap frameOf ++ [0x11, 0x27, 0, 0] ∧
    10000 < sle32 [0x11, 0x27, 0, 0] 0 := by decide +kernel

theorem witness_FeedEventsAndCap :
    (feeding [1] [0, 0, 0]).operands = [.bytes [0, 0, 0]] ∧
    ([0, 0, 0] : Bytes).length ≤ (feeding [1] [0, 0, 0]).params.maxOperandBytes := by
  decide +kernel

/-- FRM-3 and FRM-4: one stream in one chunk and in three, without a fault. -/
theorem witness_ChunkingDoesNotChangeMessages :
    let cs : List Bytes := [[1, 0, 0, 0, 1, 2, 0, 0, 0, 2, 3]]
    let ds : List Bytes := [[1, 0, 0], [0, 1, 2], [0, 0, 0, 2, 3]]
    State.reset.frmAcc = [] ∧ (∀ c ∈ cs, c.length ≤ State.reset.params.maxOperandBytes) ∧
    (∀ d ∈ ds, d.length ≤ State.reset.params.maxOperandBytes) ∧ cs.flatten = ds.flatten ∧
    (afterAll (feeds cs) State.reset).map (fun t => faultsOf t.channel) = some [] ∧
    (afterAll (feeds ds) State.reset).map (fun t => (faultsOf t.channel, messagesOf t.channel)) =
      some ([], [[1], [2, 3]]) := by decide +kernel

/-- Both clauses at the bound of the smallest instance: payloads of 10000 and 10001 bytes. -/
theorem witness_FrameBuildsPrefixAndPayload :
    let s := fun n => { State.resetWith smallest with operands := [.bytes (List.replicate n 0)] }
    (∀ n, legalParams (s n).params = true ∧ (s n).operands = [.bytes (List.replicate n 0)]) ∧
    (List.replicate 10000 (0 : Byte)).length + 4 ≤ smallest.maxOperandBytes ∧
    smallest.maxOperandBytes < (List.replicate 10001 (0 : Byte)).length + 4 := by
  exact ⟨fun _ => ⟨rfl, rfl⟩, by rw [List.length_replicate]; decide,
    by rw [List.length_replicate]; decide⟩

/-- FRM-1. -/
theorem witness_FeedOfFrameRoundTrip :
    let p : Bytes := [0xAA, 0xBB, 0xCC]
    legalParams State.reset.params = true ∧ State.reset.frmAcc = [] ∧
    (nextOf (exec .frmFrame { State.reset with operands := [.bytes p] })).map State.history =
      some (State.reset.history ++
        [.response (Response.ofBytes [3, 0, 0, 0, 0xAA, 0xBB, 0xCC])]) := by decide +kernel

/-- A payload of 10001 bytes, its prefix in one chunk and the rest in another (FRM-15). -/
theorem witness_OversizePayloadIsNeverDelivered :
    let p := List.replicate 10001 (0 : Byte)
    State.reset.frmAcc = [] ∧ 10000 < p.length ∧
    (∀ c ∈ [putLe32 p.length, p], c.length ≤ State.reset.params.maxOperandBytes) ∧
    [putLe32 p.length, p].flatten = frameOf p := by
  intro p
  have hp : p.length = 10001 := List.length_replicate
  refine ⟨rfl, by omega, fun c hc => ?_, by simp [frameOf]⟩
  rcases List.mem_cons.mp hc with rfl | hc
  · decide
  · rw [List.mem_singleton.mp hc, hp]; decide

/-- RTP-4 at 11 bytes, a full header of exactly 12, RTP-9 with a CSRC word missing, RTP-7 and RTP-8. -/
theorem witness_ParseShortAndTruncatedInput :
    (List.replicate 11 (0 : Byte)).length < 12 ∧
    (∀ b : Bytes, (ready [.bytes b]).operands = [.bytes b]) ∧
    (let b : Bytes := [0x80, 0, 0, 1, 0, 0, 0, 0, 0, 0, 0, 0]
     b.length ≤ (ready [.bytes b]).params.maxOperandBytes ∧
     b.length = 12 ∧ headerCsrc b = 0 ∧ headerExtension b = false ∧ headerTruncated b = false) ∧
    headerTruncated [0x81, 0, 0, 1, 0, 0, 0, 2, 0, 0, 0, 3, 0x11, 0x11] = true ∧
    headerTruncated [0x90, 0, 0, 1, 0, 0, 0, 2, 0, 0, 0, 3, 0xBE, 0xDE] = true ∧
    headerTruncated [0x90, 0, 0, 1, 0, 0, 0, 2, 0, 0, 0, 3, 0xBE, 0xDE, 0, 2, 1, 2, 3, 4, 0x99] = true :=
  ⟨by decide, fun _ => rfl, by decide +kernel, by decide +kernel, by decide +kernel,
    by decide +kernel⟩

/-- RTP-6. -/
theorem witness_ParseReadsEveryField :
    let b : Bytes := [0x90, 0, 0, 1, 0, 0, 0, 2, 0, 0, 0, 3, 0xBE, 0xDE, 0, 1, 1, 2, 3, 4, 0x99]
    (ready [.bytes b]).operands = [.bytes b] ∧
    b.length ≤ (ready [.bytes b]).params.maxOperandBytes ∧ 12 ≤ b.length ∧
    headerTruncated b = false ∧ headerEnd b = 20 := by decide +kernel

/-- RTP-16: 20 header bytes and no payload. -/
theorem witness_ParsedLengthsAddUp :
    (rtpParse [0x82, 0, 0, 1, 0, 0, 0, 2, 0, 0, 0, 3, 0x11, 0x11, 0x11, 0x11, 0x22, 0x22, 0x22,
      0x22]).pkt.valid = true := by decide +kernel

/-- Both clauses at the bound of the smallest instance: payloads of 9992 and 9993 bytes. -/
theorem witness_SerializeWritesTheHeader :
    let p := fun n => { Packet.empty with payload := List.replicate n 0 }
    (∀ n, (ready [.pkt (p n)]).operands = [.pkt (p n)]) ∧
    (p 9993).payload.length ≤ smallest.maxOperandBytes ∧
    12 + (p 9992).payload.length ≤ smallest.maxOperandBytes ∧
    smallest.maxOperandBytes < 12 + (p 9993).payload.length := by
  exact ⟨fun _ => rfl, by rw [List.length_replicate]; decide,
    by rw [List.length_replicate]; decide,
    by rw [List.length_replicate]; decide⟩

/-- RTP-18's record. -/
theorem witness_ParseOfSerializeReversesSourceId :
    let p := { Packet.empty with version := 2, sourceId := 0x12344321 }
    p.csrcCount = 0 ∧ p.extension = false ∧
    12 + p.payload.length ≤ State.reset.params.maxOperandBytes := by decide

/-- RTP-19. -/
theorem witness_SerializeOfParseReversesSourceId :
    let b : Bytes := [0x80, 0xE0, 0x12, 0x34, 0x89, 0xAB, 0xCD, 0xEF, 1, 2, 3, 4, 0xAA, 0xBB]
    nextOf (exec .rtpParse { State.reset with operands := [.bytes b] }) =
      some { State.reset with
        operands := []
        history := State.reset.history ++ [.response (Response.ofPacket .ok (rtpParse b).pkt)] } ∧
    (rtpParse b).pkt.csrcCount = 0 ∧ (rtpParse b).pkt.extension = false := by decide +kernel

theorem witness_StartArmsAndFills : (ready []).operands = [] := rfl

theorem witness_StopDiscardsTheQueue :
    ({ ready [] with jbQueue := [packet 1], jbRunning := true }).operands = [] := rfl

/-- Both clauses at the capacity 4: four packets queued, five queued, and an overflow latched. -/
theorem witness_AddAppendsOrDrops :
    let s := fun n o => { ready [.pkt (packet 9)] with
      jbQueue := List.replicate n (packet 1), jbOverflowing := o }
    (∀ n o, (s n o).operands = [.pkt (packet 9)]) ∧
    (packet 9).payload.length ≤ (s 4 false).params.maxOperandBytes ∧
    ((s 4 false).jbOverflowing = false ∧
      (s 4 false).jbQueue.length ≤ (s 4 false).params.maxPackets) ∧
    (s 5 false).params.maxPackets < (s 5 false).jbQueue.length ∧ (s 0 true).jbOverflowing = true :=
  ⟨fun _ _ => rfl, by decide +kernel, by decide +kernel, by decide +kernel, rfl⟩

/-- The four clauses at H = 2: stopped, empty, one packet while filling, two packets while filling. -/
theorem witness_TickPacesTheQueue :
    let s := fun n r => { ready [] with jbQueue := List.replicate n (packet 1), jbRunning := r }
    (∀ n r, (s n r).operands = []) ∧ (s 3 false).jbRunning = false ∧
    ((s 0 true).jbRunning = true ∧ (s 0 true).jbQueue = []) ∧
    ((s 1 true).jbQueue = packet 1 :: [] ∧ (s 1 true).jbFilling = true ∧
      (s 1 true).jbQueue.length < (s 1 true).params.maxPackets / 2) ∧
    ((s 2 true).jbQueue = packet 1 :: [packet 1] ∧
      (s 2 true).params.maxPackets / 2 ≤ (s 2 true).jbQueue.length) :=
  ⟨fun _ _ => rfl, rfl, ⟨rfl, rfl⟩, by decide +kernel, by decide +kernel⟩

/-- JB-2's six packets. -/
theorem witness_BackToBackAddsDropAfterCapacity :
    let ps := List.replicate 6 (packet 1)
    State.reset.jbQueue = [] ∧ State.reset.jbOverflowing = false ∧
    (∀ p ∈ ps, p.payload.length ≤ State.reset.params.maxOperandBytes) ∧
    State.reset.params.maxPackets + 1 < ps.length := by decide +kernel

/-- JB-1's packets, after JB_START. -/
theorem witness_PacingEmitsAfterHalfFull :
    let s := { State.reset with jbRunning := true }
    let ps := [packet 1, packet 2, packet 3]
    legalParams s.params = true ∧ s.jbQueue = [] ∧ s.jbFilling = true ∧ s.jbOverflowing = false ∧
    s.jbRunning = true ∧ (∀ p ∈ ps, p.payload.length ≤ s.params.maxOperandBytes) := by
  decide +kernel

/-- A stopped buffer with packets queued and ticks pending. -/
theorem witness_NoPacketAfterStop :
    let s := { pending 0x23 [] with jbQueue := [packet 1, packet 2, packet 3] }
    legalParams s.params = true ∧ s.resetPending = false ∧ s.jbRunning = false ∧ noStartPending s := by
  refine ⟨by decide, rfl, rfl, fun p c hc imm => ?_⟩
  cases p
  · cases hc
  · cases hc
  · rw [List.mem_singleton.mp hc]
    have h : decode (0x23 : Word) = .ok .jbTick := by decide
    intro h'; rw [h] at h'; cases h'

theorem witness_EncodedByteHasSignSegmentMantissa : (ready []).operands = [] := rfl

theorem witness_DecodedSampleFollowsTheFormula : (ready []).operands = [] := rfl

theorem witness_CompandingErrorIsBounded : (ready []).operands = [] := rfl

/-- Five bytes: two frames of one 16-bit channel and a byte over. -/
theorem witness_EncodeStreamTakesChannelZero :
    let b : Bytes := [0xE8, 0x03, 0x18, 0xFC, 1]
    (ready [.bytes b]).operands = [.bytes b] ∧
    b.length ≤ (ready [.bytes b]).params.maxOperandBytes := by decide +kernel

/-- Both clauses at the bound of the smallest instance: 2501 and 2502 codes, four bytes each. -/
theorem witness_DecodeStreamReplicatesChannels :
    let s := fun n => { State.resetWith smallest with operands := [.bytes (List.replicate n 0)] }
    (∀ n, (s n).operands = [.bytes (List.replicate n 0)]) ∧
    (List.replicate 2502 (0 : Byte)).length ≤ smallest.maxOperandBytes ∧
    (List.replicate 2501 (0 : Byte)).length * 2 * 2 ≤ smallest.maxOperandBytes ∧
    smallest.maxOperandBytes < (List.replicate 2502 (0 : Byte)).length * 2 * 2 := by
  exact ⟨fun _ => rfl, by rw [List.length_replicate]; decide,
    by rw [List.length_replicate]; decide,
    by rw [List.length_replicate]; decide⟩

/-- MIX-1's streams, and one with an odd byte. -/
theorem witness_MixSixteenBitSums :
    let l : List Bytes := [[100, 0, 0x9C, 0xFF], [50, 0, 50], []]
    (ready [.list l]).operands = [.list l] ∧ l.length ≤ (ready [.list l]).params.maxStreams ∧
    (∀ b ∈ l, b.length ≤ (ready [.list l]).params.maxOperandBytes) := by decide +kernel

theorem witness_MixEightBitSums :
    let l : List Bytes := [[200, 1], [100]]
    (ready [.list l]).operands = [.list l] ∧ l.length ≤ (ready [.list l]).params.maxStreams ∧
    (∀ b ∈ l, b.length ≤ (ready [.list l]).params.maxOperandBytes) := by decide +kernel

/-- No stream, three empty streams, and one stream of odd length. -/
theorem witness_MixOfOneStreamIsACopy :
    (ready [.list []]).operands = [.list (List.replicate 0 [])] ∧
    (ready [.list [[], [], []]]).operands = [.list (List.replicate 3 [])] ∧
    3 ≤ State.reset.params.maxStreams ∧ (ready [.list [[1, 2, 3]]]).operands = [.list [[1, 2, 3]]] ∧
    ([1, 2, 3] : Bytes).length ≤ State.reset.params.maxOperandBytes := by decide +kernel

theorem witness_SubtractClampsEachDifference :
    let a : Bytes := [0, 0x80, 7, 0, 9]
    let b : Bytes := [1, 0]
    (ready [.bytes a, .bytes b]).operands = [.bytes a, .bytes b] ∧
    a.length ≤ (ready [.bytes a, .bytes b]).params.maxOperandBytes ∧
    b.length ≤ (ready [.bytes a, .bytes b]).params.maxOperandBytes := by decide +kernel

/-- A state with bytes and packets held that meets every invariant, and takes a step: the one reached
from reset by feeding two bytes and adding a packet, with a tick pending. -/
def busy : State :=
  { (pending 0x23 []) with
    frmAcc := [1, 0]
    jbQueue := [packet 1]
    history := [.taken .producer ⟨0x01, [.bytes [1, 0]]⟩, .response (Response.ofStatus .ok),
      .taken .producer ⟨0x22, [.pkt (packet 1)]⟩, .response (Response.ofStatus .ok)] }

/-- `busy` takes a step, for each statement about a step. -/
theorem witness_busy_steps : (nextOf (step busy)).isSome = true := by decide +kernel

theorem witness_StepKeepsBounds : WithinBounds busy where
  legal := by decide +kernel
  acc := by decide +kernel
  queue := by decide +kernel
  interval := by decide +kernel
  idle := rfl

theorem witness_StepKeepsLastPacket : LastPacketEmitted busy := rfl

theorem witness_StepKeepsFifoOrder : FifoOrder busy := by unfold FifoOrder; decide +kernel

theorem witness_StepKeepsQueueSinceStop : QueueSinceStop busy := by
  unfold QueueSinceStop; decide +kernel

theorem witness_StepKeepsStreamAccount : noFramingFault busy ∧ StreamAccounted busy :=
  ⟨rfl, fun _ => by decide +kernel⟩

theorem witness_ResetMeetsTheInvariants : legalParams Config.defaultParams = true := by decide

end Sys2Proof.Tests
end

section
/-! 00_scope.md: the instances the block is defined for, and that only an instance outside
them is refused. -/
namespace Sys2Proof.Machine

/-! ## The bounds on the parameters (R11, R13, R14, R160) -/

theorem legalParams_iff (p : Params) :
    legalParams p = true ↔
      2 ≤ p.maxPackets ∧ p.maxPackets ≤ 65535 ∧ 10004 ≤ p.maxOperandBytes ∧
      p.maxOperandBytes < 2 ^ 31 ∧ 2 ≤ p.maxStreams := by
  simp only [legalParams, Bool.and_eq_true, decide_eq_true_eq, and_assoc]

/-! ## Commands and steps of a legal instance always have a next state (R324, R352) -/

theorem exec_has_next (i : Instr) (s : State) : ∃ t, exec i s = .next t := by
  obtain ⟨-, h⟩ | ⟨-, -, h⟩ | ⟨-, -, h⟩ := exec_cases i s
  all_goals exact ⟨_, h⟩

theorem runCommand_has_next (c : Command) (s : State) : ∃ t, runCommand c s = .next t := by
  obtain ⟨-, h⟩ | ⟨i, -, h⟩ := runCommand_cases c s
  · exact ⟨_, h⟩
  · rw [h]
    exact exec_has_next i s

theorem step_has_next_of_legal {s : State} (hl : legalParams s.params = true) :
    ∃ t, step s = .next t := by
  obtain ⟨hf, -⟩ | ⟨-, -, h⟩ | ⟨-, -, -, h⟩ | ⟨-, -, p, c, rest, -, -, h⟩ := step_cases s
  · simp [hl] at hf
  · exact ⟨_, h⟩
  · exact ⟨_, h⟩
  · rw [h]
    exact runCommand_has_next c _

theorem step_of_illegal {s : State} (hl : legalParams s.params = false) :
    step s = .refused .illegalInstance := by
  obtain ⟨-, h⟩ | ⟨ht, -⟩ | ⟨ht, -⟩ | ⟨ht, -⟩ := step_cases s
  · exact h
  all_goals simp [hl] at ht

theorem step_refused_iff (s : State) :
    step s = .refused .illegalInstance ↔ legalParams s.params = false := by
  constructor
  · intro hr
    refine Bool.eq_false_iff.mpr fun hl => ?_
    obtain ⟨t, ht⟩ := step_has_next_of_legal hl
    simp [ht] at hr
  · exact step_of_illegal

/-- Settles O20: a legal instance always steps to a next state, so the refusal marks exactly the
illegal ones, and legality is the list of bounds. -/
theorem illegalInstanceIsRefused : Obligations.IllegalInstanceIsRefused :=
  ⟨fun s => (step_refused_iff s).symm, legalParams_iff⟩

end Sys2Proof.Machine
end

section
/-! 10_state.md: the reset values, the register view, the lengths of a parsed packet record, and the
invariants every step keeps. -/
namespace Sys2Proof.Machine

/-! ## Commands that only answer (R41, R81) -/

theorem frmFrame_answers (payload : Bytes) (s : State) :
    ∃ r, frmFrame payload s = s.respond r := by
  unfold frmFrame
  split
  all_goals exact ⟨_, rfl⟩

theorem rtpSerialize_answers (p : Packet) (s : State) :
    ∃ r, rtpSerialize p s = s.respond r := by
  unfold rtpSerialize
  split
  all_goals exact ⟨_, rfl⟩

theorem ulawDecStream_answers (width : SampleWidth) (ch : Channels) (mu : Bytes) (s : State) :
    ∃ r, ulawDecStream width ch mu s = s.respond r := by
  unfold ulawDecStream
  split
  all_goals exact ⟨_, rfl⟩

theorem rdReg_answers (n : BitVec 16) (s : State) : ∃ r, rdReg n s = s.respond r := by
  unfold rdReg
  split
  all_goals exact ⟨_, rfl⟩

/-! ## What a command can do -/

/-- What a command makes of the state: `Effect s i t` holds when command i, run in s, may end in t.
`exec_effect` ties it to exec, and each invariant is a case split over it. -/
inductive Effect (s : State) : Instr → State → Prop
  /-- A refusal, a stateless command, RD_REG, or a tick while stopped. -/
  | answer {i : Instr} (r : Response) : Effect s i (s.respond r)
  /-- FRM_FEED: messages, then at most one fault (R151 to R155). -/
  | feed (ms : List Bytes) (rest : Bytes) (f : Option FrameFault)
      (hrest : rest.length ≤ maxBufferLength) :
      Effect s .frmFeed
        { s with
          frmAcc := rest
          operands := []
          history := s.history ++ (ms.map Event.msg ++ f.toList.map Event.fault).map Obs.event ++
            [.response (Response.ofStatus .ok)] }
  /-- JB_START (R220). -/
  | start (imm : BitVec 16) : Effect s (.jbStart imm) (jbStart imm s)
  /-- JB_STOP (R222). -/
  | stop : Effect s .jbStop (jbStop s)
  /-- JB_ADD of a packet that is admitted (R230). -/
  | append (hshape : shapeOk .pkt s.operands = true)
      (hroom : s.jbQueue.length ≤ s.params.maxPackets) :
      Effect s .jbAdd { s with jbQueue := s.jbQueue ++ [pktArg s.operands] }.complete
  /-- JB_ADD of a packet that is dropped (R231). -/
  | drop : Effect s .jbAdd { s with jbOverflowing := true }.complete
  /-- JB_TICK that emits nothing: only the two flags may change (R233, R234, R236). -/
  | tickFlags (overflowing filling : Bool) :
      Effect s .jbTick { s with jbOverflowing := overflowing, jbFilling := filling }.complete
  /-- JB_TICK that emits the oldest packet (R235). -/
  | tickEmit (p : Packet) (rest : List Packet) (overflowing : Bool)
      (hqueue : s.jbQueue = p :: rest) :
      Effect s .jbTick
        ({ s with
          jbOverflowing := overflowing, jbFilling := false, jbQueue := rest,
          jbLastPacket := some p }.emit (.data p)).complete

theorem Effect.of_answers {s t : State} {i : Instr} (h : ∃ r, t = s.respond r) : Effect s i t := by
  obtain ⟨r, rfl⟩ := h
  exact .answer r

theorem frmFeed_effect (chunk : Bytes) (s : State) : Effect s .frmFeed (frmFeed chunk s) := by
  obtain ⟨ms, rest, f, -, hrest, -, -, h⟩ := frmFeed_result chunk s
  rw [h]
  exact .feed ms rest f hrest

theorem jbAdd_effect {s : State} (hshape : shapeOk .pkt s.operands = true) :
    Effect s .jbAdd (jbAdd (pktArg s.operands) s) := by
  unfold jbAdd
  split
  · next hadmits => exact .append hshape ((jbAdmits_iff s).mp hadmits).2
  · exact .drop

theorem jbTick_effect (s : State) : Effect s .jbTick (jbTick s) := by
  obtain ⟨-, h⟩ | ⟨-, -, h⟩ | ⟨-, -, -, h⟩ | ⟨-, -, p, rest, hqueue, h⟩ := jbTick_cases s
  all_goals rw [h]
  · exact .answer _
  · exact .tickFlags false (fillingAfterEmpty s)
  · exact .tickFlags (overflowAfterRecovery s) s.jbFilling
  · exact .tickEmit p rest _ hqueue

theorem ruleOf_effect {i : Instr} {s : State} (hshape : shapeOk (shapeOf i) s.operands = true) :
    Effect s i (ruleOf i s) := by
  cases i with
  | frmFeed => exact frmFeed_effect _ s
  | jbStart imm => exact .start imm
  | jbStop => exact .stop
  | jbAdd => exact jbAdd_effect hshape
  | jbTick => exact jbTick_effect s
  | frmFrame => exact .of_answers (frmFrame_answers _ s)
  | rtpSerialize => exact .of_answers (rtpSerialize_answers _ s)
  | ulawDecStream width ch => exact .of_answers (ulawDecStream_answers width ch _ s)
  | rdReg n => exact .of_answers (rdReg_answers n s)
  | _ => exact .answer _

/-- Every command that ends in t has one of the effects. -/
theorem exec_effect {i : Instr} {s t : State} (h : exec i s = .next t) : Effect s i t := by
  obtain ⟨-, hx⟩ | ⟨-, -, hx⟩ | ⟨hshape, -, hx⟩ := exec_cases i s
  all_goals
    rw [hx] at h
    cases h
  · exact .answer _
  · exact .answer _
  · exact ruleOf_effect hshape

/-- A step that has a next state resets, waits, refuses a word that is no command, or runs the command
it takes. -/
theorem step_next_cases {s t : State} (h : step s = .next t) :
    legalParams s.params = true ∧
    (t = s.takeReset ∨ t = s ∨
      (∃ p c rest, (∃ e, decode c.word = .error e) ∧
        t = (s.takeCommand p c rest).refuse .illegalCommand) ∨
      ∃ p c rest i, decode c.word = .ok i ∧ exec i (s.takeCommand p c rest) = .next t) := by
  obtain ⟨-, hx⟩ | ⟨hl, -, hx⟩ | ⟨hl, -, -, hx⟩ | ⟨hl, -, p, c, rest, -, -, hx⟩ := step_cases s
  all_goals rw [hx] at h
  · cases h
  · cases h
    exact ⟨hl, .inl rfl⟩
  · cases h
    exact ⟨hl, .inr (.inl rfl)⟩
  · refine ⟨hl, .inr (.inr ?_)⟩
    obtain ⟨he, hr⟩ | ⟨i, hd, hr⟩ := runCommand_cases c (s.takeCommand p c rest)
    all_goals rw [hr] at h
    · cases h
      exact .inl ⟨p, c, rest, he, rfl⟩
    · exact .inr ⟨p, c, rest, i, hd, h⟩

/-! ## What every command leaves -/

/-- Every command adds its events, then one response, and leaves no operand (R88, R341). -/
theorem exec_answered {i : Instr} {s t : State} (h : exec i s = .next t) :
    ∃ events r, Answered s t events r := by
  cases exec_effect h with
  | answer r => exact ⟨[], r, by simp, rfl⟩
  | feed ms rest f _ => exact ⟨_, _, rfl, rfl⟩
  | tickEmit p rest o _ => exact ⟨[.data p], _, rfl, rfl⟩
  | _ => exact ⟨[], Response.ofStatus .ok, by simp [jbStart, jbStop], rfl⟩

theorem exec_params {i : Instr} {s t : State} (h : exec i s = .next t) : t.params = s.params := by
  cases exec_effect h <;> rfl

/-- Only FRM_FEED changes FRM.acc, and it leaves at most 10000 bytes (R32). -/
theorem exec_frmAcc {i : Instr} {s t : State} (h : exec i s = .next t) :
    t.frmAcc = s.frmAcc ∨ t.frmAcc.length ≤ maxBufferLength := by
  cases exec_effect h with
  | feed ms rest f hrest => exact .inr hrest
  | _ => exact .inl rfl

/-- The queue only shrinks, but for a JB_ADD with room, which appends its packet (R33, R230). -/
theorem exec_jbQueue {i : Instr} {s t : State} (h : exec i s = .next t) :
    t.jbQueue.Sublist s.jbQueue ∨
    (i = .jbAdd ∧ shapeOk .pkt s.operands = true ∧ s.jbQueue.length ≤ s.params.maxPackets ∧
      t.jbQueue = s.jbQueue ++ [pktArg s.operands]) := by
  cases exec_effect h with
  | append hshape hroom => exact .inr ⟨rfl, hshape, hroom, rfl⟩
  | stop => exact .inl (List.nil_sublist _)
  | tickEmit p rest o hqueue =>
    rw [hqueue]
    exact .inl (List.sublist_cons_self p rest)
  | _ => exact .inl (List.Sublist.refl _)

/-- Only JB_START changes the interval (R38, R220). -/
theorem exec_jbInterval {i : Instr} {s t : State} (h : exec i s = .next t) :
    t.jbInterval = s.jbInterval ∨ ∃ imm, t.jbInterval = startInterval imm := by
  cases exec_effect h with
  | start imm => exact .inr ⟨imm, rfl⟩
  | _ => exact .inl rfl

theorem startInterval_ne_zero (imm : BitVec 16) : startInterval imm ≠ 0 := by
  unfold startInterval
  split
  · decide
  · assumption

/-! ## The bounds (R57) -/

/-- A command keeps the bounds, and reaches them with its own operands still in place. -/
theorem exec_withinBounds {i : Instr} {s t : State} (h : exec i s = .next t)
    (hlegal : legalParams s.params = true) (hacc : s.frmAcc.length ≤ maxBufferLength)
    (hqueue : s.jbQueue.length ≤ s.params.maxPackets + 1) (hinterval : s.jbInterval ≠ 0) :
    WithinBounds t where
  legal := by rwa [exec_params h]
  acc := by
    obtain hsame | hcap := exec_frmAcc h
    · rwa [hsame]
    · exact hcap
  queue := by
    rw [exec_params h]
    obtain hsub | ⟨-, -, hroom, happend⟩ := exec_jbQueue h
    · exact hsub.length_le.trans hqueue
    · rw [happend, List.length_append, List.length_singleton]
      exact Nat.succ_le_succ hroom
  interval := by
    obtain hsame | ⟨imm, hset⟩ := exec_jbInterval h
    · rwa [hsame]
    · rw [hset]
      exact startInterval_ne_zero imm
  idle := by
    obtain ⟨events, r, ha⟩ := exec_answered h
    exact ha.operands

theorem resetWith_withinBounds {p : Params} (hlegal : legalParams p = true) :
    WithinBounds (State.resetWith p) where
  legal := hlegal
  acc := Nat.zero_le _
  queue := Nat.zero_le _
  interval := show (20 : BitVec 16) ≠ 0 by decide
  idle := rfl

theorem takeReset_withinBounds {s : State} (hlegal : legalParams s.params = true) :
    WithinBounds s.takeReset :=
  have h := resetWith_withinBounds hlegal
  ⟨h.legal, h.acc, h.queue, h.interval, h.idle⟩

/-- Settles O54: a reset sets every bounded element to its reset value, and each command keeps each
bound by the one command that changes the element. -/
theorem stepKeepsBounds : Obligations.StepKeepsBounds := by
  intro s t hs h
  obtain ⟨hlegal, rfl | rfl | ⟨p, c, rest, -, rfl⟩ | ⟨p, c, rest, i, -, hx⟩⟩ := step_next_cases h
  · exact takeReset_withinBounds hlegal
  · exact hs
  · exact ⟨by simpa using hlegal, by simpa using hs.acc, by simpa using hs.queue,
      by simpa using hs.interval, by simp⟩
  · exact exec_withinBounds hx (by simpa using hlegal) (by simpa using hs.acc)
      (by simpa using hs.queue) (by simpa using hs.interval)

/-! ## The last packet (R37, R235) -/

@[simp] theorem dataPackets_faults (fs : List FrameFault) : dataPackets (fs.map .fault) = [] := by
  induction fs with
  | nil => rfl
  | cons f fs ih => simpa [dataPackets] using ih

/-- FRM_FEED puts no packet on the channel. -/
theorem dataPackets_channelOf_feed (h : List Obs) (ms : List Bytes) (fs : List FrameFault)
    (r : Response) :
    dataPackets (channelOf (h ++ (ms.map Event.msg ++ fs.map Event.fault).map Obs.event ++
      [.response r])) = dataPackets (channelOf h) := by
  rw [channelOf_append_response, channelOf_append_events]
  simp

/-- Only a tick emits a packet, and it remembers the one it emits. -/
theorem exec_lastPacketEmitted {i : Instr} {s t : State} (h : exec i s = .next t)
    (hs : LastPacketEmitted s) : LastPacketEmitted t := by
  unfold LastPacketEmitted at *
  cases exec_effect h with
  | feed ms rest f _ =>
    unfold State.channel at *
    rwa [dataPackets_channelOf_feed]
  | tickEmit p rest o _ =>
    rw [State.channel_complete, State.channel_emit, dataPackets_append]
    simp [dataPackets]
  | _ => simpa [State.channel, jbStart, jbStop] using hs

/-- Settles O56: a reset forgets the packet and the channel together, and a command keeps them
together. -/
theorem stepKeepsLastPacket : Obligations.StepKeepsLastPacket := by
  intro s t hs h
  have htaken : ∀ p c rest, LastPacketEmitted (s.takeCommand p c rest) := fun p c rest => by
    simpa [LastPacketEmitted] using hs
  obtain ⟨-, rfl | rfl | ⟨p, c, rest, -, rfl⟩ | ⟨p, c, rest, i, -, hx⟩⟩ := step_next_cases h
  · simp [LastPacketEmitted, dataPackets]
  · exact hs
  · simpa [LastPacketEmitted] using htaken p c rest
  · exact exec_lastPacketEmitted hx (htaken p c rest)

/-! ## The queue since the last stop (R57, R222) -/

theorem Command.isInstr_of_decode {c : Command} {i : Instr} (h : decode c.word = .ok i)
    (j : Instr) : c.isInstr j = decide (i = j) := by
  simp [Command.isInstr, h]

theorem Command.isInstr_of_error {c : Command} {e : DecodeError} (h : decode c.word = .error e)
    (j : Instr) : c.isInstr j = false := by
  simp [Command.isInstr, h]

@[simp] theorem offeredSinceStop_append_event (h : List Obs) (e : Event) :
    offeredSinceStop (h ++ [.event e]) = offeredSinceStop h := offeredSinceStop_append h _

@[simp] theorem offeredSinceStop_append_response (h : List Obs) (r : Response) :
    offeredSinceStop (h ++ [.response r]) = offeredSinceStop h := offeredSinceStop_append h _

theorem offeredSinceStop_append_events (h : List Obs) (es : List Event) :
    offeredSinceStop (h ++ es.map .event) = offeredSinceStop h := by
  induction es generalizing h with
  | nil => simp
  | cons e es ih => rw [List.map_cons, List.append_cons, ih, offeredSinceStop_append_event]

/-- A command's events and response offer nothing. -/
theorem offeredSinceStop_answered {s t : State} {events : List Event} {r : Response}
    (h : Answered s t events r) : offeredSinceStop t.history = offeredSinceStop s.history := by
  rw [h.history, offeredSinceStop_append_response, offeredSinceStop_append_events]

theorem offeredSinceStop_append_add {c : Command} (hd : decode c.word = .ok .jbAdd)
    (hshape : shapeOk .pkt c.operands = true) (h : List Obs) (p : Port) :
    offeredSinceStop (h ++ [.taken p c]) = offeredSinceStop h ++ [pktArg c.operands] := by
  rw [offeredSinceStop_append]
  simp [Command.isInstr_of_decode hd, hshape]

/-- Taking a command that is not a JB_STOP of the right shape withdraws no offer. -/
theorem offeredSinceStop_append_taken {c : Command}
    (hstop : (c.isInstr .jbStop && shapeOk .none c.operands) = false) (h : List Obs) (p : Port) :
    (offeredSinceStop h).Sublist (offeredSinceStop (h ++ [.taken p c])) := by
  rw [offeredSinceStop_append]
  simp only [hstop]
  split
  · exact List.sublist_append_left _ _
  · exact List.Sublist.refl _

theorem shapeOk_none_iff (ops : List Operand) : shapeOk .none ops = true ↔ ops = [] := by
  cases ops <;> simp [shapeOk]

theorem exec_jbStop {s : State} (hops : s.operands = []) : exec .jbStop s = .next (jbStop s) :=
  exec_runs .jbStop s (by rw [hops]; rfl) (by rw [hops]; rfl)

/-- A command taken keeps the queue to the packets offered: a stop empties it, an admitted packet has
just been offered, and nothing else grows it. -/
theorem exec_queueSinceStop {s t : State} {p : Port} {c : Command} {rest : List Command} {i : Instr}
    (hd : decode c.word = .ok i) (hx : exec i (s.takeCommand p c rest) = .next t)
    (hs : QueueSinceStop s) : QueueSinceStop t := by
  unfold QueueSinceStop at *
  obtain ⟨events, r, ha⟩ := exec_answered hx
  rw [offeredSinceStop_answered ha, State.takeCommand_history]
  cases hstop : c.isInstr .jbStop && shapeOk .none c.operands with
  | true =>
    rw [Bool.and_eq_true, Command.isInstr_of_decode hd, decide_eq_true_eq,
      shapeOk_none_iff] at hstop
    obtain ⟨rfl, hops⟩ := hstop
    rw [exec_jbStop hops] at hx
    cases hx
    exact List.nil_sublist _
  | false =>
    obtain hsub | ⟨rfl, hshape, -, happend⟩ := exec_jbQueue hx
    · rw [State.takeCommand_jbQueue] at hsub
      exact (hsub.trans hs).trans (offeredSinceStop_append_taken hstop _ p)
    · rw [happend, offeredSinceStop_append_add hd hshape, State.takeCommand_jbQueue]
      exact hs.append (List.Sublist.refl _)

/-- Settles O58: a reset empties the queue, a word that is no command offers and stops nothing, and
a command keeps the queue to the packets offered. -/
theorem stepKeepsQueueSinceStop : Obligations.StepKeepsQueueSinceStop := by
  intro s t hs h
  obtain ⟨-, rfl | rfl | ⟨p, c, rest, ⟨e, he⟩, rfl⟩ | ⟨p, c, rest, i, hd, hx⟩⟩ :=
    step_next_cases h
  · exact List.nil_sublist _
  · exact hs
  · have hkept := offeredSinceStop_append_taken (c := c)
      (by rw [Command.isInstr_of_error he]; rfl) s.history p
    unfold QueueSinceStop at *
    rw [State.refuse_history, offeredSinceStop_append_response, State.refuse_jbQueue,
      State.takeCommand_jbQueue, State.takeCommand_history]
    exact hs.trans hkept
  · exact exec_queueSinceStop hd hx hs

/-! ## The register view (R43, R320) -/

/-- RD_REG of a register answers its value and changes nothing else. -/
theorem exec_rdReg {s : State} {n : BitVec 16} {v : Word} (hops : s.operands = [])
    (hv : regValue s n.toNat = some v) :
    exec (.rdReg n) s = .next
      { s with operands := [], history := s.history ++ [.response (Response.ofValue v)] } := by
  rw [exec_runs (.rdReg n) s (by rw [hops]; rfl) (by rw [hops]; rfl)]
  simp only [ruleOf, rdReg, hv, State.respond]

theorem toWord_natCast (n : Nat) : toWord n = BitVec.ofNat 32 n := BitVec.ofInt_natCast 32 n

/-- The bits of JB_STATUS, bit 0 first; every other bit is 0 (R43). -/
theorem jbStatus_getLsbD (s : State) (k : Nat) :
    (jbStatus s).getLsbD k =
      [s.jbFilling, s.jbOverflowing, s.jbRunning, s.jbLastPacket.isSome, lastHasPayload s].getD k
        false := by
  unfold jbStatus
  match k with
  | 0 | 1 | 2 | 3 | 4 =>
    simp only [BitVec.getLsbD_setWidth, BitVec.getLsbD_append]
    simp
  | k + 5 => simp

/-- Settles O15, register by register. -/
theorem rdRegReturnsTheRegister : Obligations.RdRegReturnsTheRegister := by
  intro s hops
  refine ⟨exec_rdReg hops ?_, ⟨jbStatus s, exec_rdReg hops rfl, ?_⟩, exec_rdReg hops ?_,
    exec_rdReg hops ?_, exec_rdReg hops ?_, exec_rdReg hops rfl⟩
  · exact congrArg some (toWord_natCast _)
  · simp only [jbStatus_getLsbD]
    refine ⟨rfl, rfl, rfl, ?_, lastHasPayload_iff s, fun k hk => List.getD_eq_default _ _ hk⟩
    cases s.jbLastPacket <;> rfl
  · exact congrArg some (toWord_natCast _)
  · exact congrArg some (toWord_natCast _)
  · exact congrArg some (BitVec.ofNat_toNat 32 s.jbInterval).symm

/-! ## The lengths of a parsed record (R48, R185) -/

theorem be16_lt (S : Bytes) (k : Nat) : be16 S k < 65536 := by
  have := byteAt_lt S k
  have := byteAt_lt S (k + 1)
  unfold be16
  omega

theorem rtpCsrcEnd_le (p : Packet) : rtpCsrcEnd p ≤ 72 := by
  have := p.csrcCount.isLt
  unfold rtpCsrcEnd
  omega

/-- A valid record's header, of a length 32 bits hold, and payload make up the input. -/
theorem rtpFinish_lengths {b : Bytes} {p : Packet} {hl : Nat} (hlt : hl < 2 ^ 32)
    (hvalid : (rtpFinish b p hl).pkt.valid = true) :
    (rtpFinish b p hl).pkt.headerLength.toNat + (rtpFinish b p hl).pkt.payload.length =
      b.length := by
  unfold rtpFinish at *
  split at hvalid
  · cases hvalid
  · next hfits =>
    rw [if_neg hfits]
    simp only [Response.ofPacket, BitVec.toNat_ofNat, Nat.mod_eq_of_lt hlt, slice,
      List.take_length, List.length_drop]
    omega

/-- Settles O34: an input too short for the header it describes gives no valid record, and no header
is longer than 32 bits hold. -/
theorem parsedLengthsAddUp : Obligations.ParsedLengthsAddUp := by
  intro b hvalid
  unfold rtpParse at *
  split at hvalid
  · cases hvalid
  next hlong =>
  have hbase := rtpCsrcEnd_le (rtpFixedHeader b)
  have hwords := be16_lt b (rtpCsrcEnd (rtpFixedHeader b) + 2)
  rw [if_neg hlong]
  dsimp only at hvalid ⊢
  split at hvalid
  · next hext =>
    rw [if_pos hext]
    split at hvalid
    · cases hvalid
    next hroom =>
    rw [if_neg hroom]
    exact rtpFinish_lengths (by omega) hvalid
  · next hplain =>
    rw [if_neg hplain]
    exact rtpFinish_lengths (by omega) hvalid

/-! ## Reset (R56) -/

/-- Settles O17: the reset state is given by these values. -/
theorem resetLeavesTheResetValues : Obligations.ResetLeavesTheResetValues := fun _ =>
  ⟨rfl, rfl, rfl, rfl, rfl, rfl, rfl, rfl, rfl⟩

/-- Settles O55: with nothing held and nothing yet taken, every account is of empty lists. -/
theorem resetMeetsTheInvariants : Obligations.ResetMeetsTheInvariants := fun _ =>
  ⟨resetWith_withinBounds, rfl, List.nil_sublist _, List.nil_sublist _, fun _ => rfl⟩

end Sys2Proof.Machine
end

section
/-! 20_memory.md: what each command reads, changes and leaves unchanged (R81, R82, R86), the order in
which commands are taken and answered (R83 to R85, R88), and that a stopped buffer stays silent
(R87). -/
namespace Sys2Proof.Machine

/-! ## Frames compose -/

theorem SameOutside.trans {s t u : State} (hst : SameOutside s t) (htu : SameOutside t u) :
    SameOutside s u where
  params := htu.params.trans hst.params
  producerPort := htu.producerPort.trans hst.producerPort
  tickPort := htu.tickPort.trans hst.tickPort
  hostPort := htu.hostPort.trans hst.hostPort
  arbCount := htu.arbCount.trans hst.arbCount
  resetPending := htu.resetPending.trans hst.resetPending

theorem SameOutside.symm {s t : State} (h : SameOutside s t) : SameOutside t s where
  params := h.params.symm
  producerPort := h.producerPort.symm
  tickPort := h.tickPort.symm
  hostPort := h.hostPort.symm
  arbCount := h.arbCount.symm
  resetPending := h.resetPending.symm

theorem SameOutside.portQueue {s t : State} (h : SameOutside s t) (p : Port) :
    t.portQueue p = s.portQueue p := by
  cases p with
  | producer => exact h.producerPort
  | tick => exact h.tickPort
  | host => exact h.hostPort

theorem sameOutside_withOperands (s : State) (ops : List Operand) :
    SameOutside s { s with operands := ops } := ⟨rfl, rfl, rfl, rfl, rfl, rfl⟩

theorem sameJb_withOperands (s : State) (ops : List Operand) :
    SameJb s { s with operands := ops } := ⟨rfl, rfl, rfl, rfl, rfl, rfl⟩

theorem SameJb.trans {s t u : State} (hst : SameJb s t) (htu : SameJb t u) : SameJb s u where
  queue := htu.queue.trans hst.queue
  filling := htu.filling.trans hst.filling
  overflowing := htu.overflowing.trans hst.overflowing
  running := htu.running.trans hst.running
  lastPacket := htu.lastPacket.trans hst.lastPacket
  interval := htu.interval.trans hst.interval

theorem SameJb.symm {s t : State} (h : SameJb s t) : SameJb t s where
  queue := h.queue.symm
  filling := h.filling.symm
  overflowing := h.overflowing.symm
  running := h.running.symm
  lastPacket := h.lastPacket.symm
  interval := h.interval.symm

/-! ## What an answer adds to the history (R88) -/

theorem answered_respond (s : State) (r : Response) : Answered s (s.respond r) [] r :=
  ⟨by simp, rfl⟩

theorem Answered.channel {s t : State} {events : List Event} {r : Response}
    (h : Answered s t events r) : t.channel = s.channel ++ events := by
  rw [State.channel, h.history, channelOf_append_response, channelOf_append_events]
  rfl

theorem Answered.events_unique {s t : State} {events events' : List Event} {r r' : Response}
    (h : Answered s t events r) (h' : Answered s t events' r') : events = events' :=
  List.append_cancel_left (h.channel.symm.trans h'.channel)

/-- Writes before the events of a command leave its answer as it is. -/
theorem Answered.after_write {s s' t : State} {events : List Event} {r : Response}
    (h : Answered s' t events r) (hw : s'.history = s.history) : Answered s t events r :=
  ⟨by rw [h.history, hw], h.operands⟩

/-- An event emitted before the rest of a command comes before the rest's events. -/
theorem Answered.after_event {s s' t : State} {e : Event} {events : List Event} {r : Response}
    (h : Answered s' t events r) (he : s'.history = s.history ++ [.event e]) :
    Answered s t (e :: events) r :=
  ⟨by rw [h.history, he]; simp, h.operands⟩

/-! ## Every command answers and changes nothing outside the units (R88) -/

theorem exec_sameOutside {i : Instr} {s t : State} (h : exec i s = .next t) : SameOutside s t := by
  cases exec_effect h <;> exact ⟨rfl, rfl, rfl, rfl, rfl, rfl⟩

/-- Settles O11: every effect of a command is events, then one response. -/
theorem everyCommandAnswersOnce : Obligations.EveryCommandAnswersOnce := by
  intro i s
  obtain ⟨t, ht⟩ := exec_has_next i s
  obtain ⟨events, r, ha⟩ := exec_answered ht
  exact ⟨t, events, r, ht, ha, exec_sameOutside ht⟩

/-- A word that is no command is answered too. -/
theorem runCommand_answers (c : Command) (s : State) :
    ∃ t events r, runCommand c s = .next t ∧ Answered s t events r ∧ SameOutside s t := by
  obtain ⟨-, h⟩ | ⟨i, -, h⟩ := runCommand_cases c s
  · exact ⟨_, [], _, h, answered_respond s _, rfl, rfl, rfl, rfl, rfl, rfl⟩
  · rw [h]
    exact everyCommandAnswersOnce i s

/-! ## One step of a legal instance with no reset asked for (R83 to R85) -/

section Step

variable {s : State} (hlegal : legalParams s.params = true) (hreset : s.resetPending = false)
include hlegal hreset

theorem step_idle_or_serves :
    ((∀ p, s.portQueue p = []) ∧ step s = .next s) ∨
    ∃ p c rest, s.portQueue p = c :: rest ∧ step s = runCommand c (s.takeCommand p c rest) := by
  obtain ⟨hl, -⟩ | ⟨-, hr, -⟩ | ⟨-, -, hidle, h⟩ | ⟨-, -, p, c, rest, -, hq, h⟩ := step_cases s
  · simp [hlegal] at hl
  · simp [hreset] at hr
  · exact .inl ⟨hidle, h⟩
  · exact .inr ⟨p, c, rest, hq, h⟩

theorem step_of_idle (hidle : ∀ p, s.portQueue p = []) : step s = .next s := by
  obtain ⟨-, h⟩ | ⟨p, c, rest, hq, -⟩ := step_idle_or_serves hlegal hreset
  · exact h
  · rw [hidle p] at hq
    cases hq

theorem step_of_pending (hpending : ∃ p, s.portQueue p ≠ []) :
    ∃ p c rest, s.portQueue p = c :: rest ∧ step s = runCommand c (s.takeCommand p c rest) := by
  obtain ⟨hidle, -⟩ | hserves := step_idle_or_serves hlegal hreset
  · obtain ⟨p, hp⟩ := hpending
    exact absurd (hidle p) hp
  · exact hserves

end Step

/-- Settles O21: a step that serves a command needs a port with one pending. -/
theorem idleStepWaits : Obligations.IdleStepWaits := fun _ => step_of_idle

/-- Settles O8: taking the command changes its own port and the history, and running it changes no
port. -/
theorem stepKeepsIssueOrder : Obligations.StepKeepsIssueOrder := by
  intro s hlegal hreset hpending
  obtain ⟨p, c, rest, hq, hstep⟩ := step_of_pending hlegal hreset hpending
  obtain ⟨t, events, r, hrun, ha, hout⟩ := runCommand_answers c (s.takeCommand p c rest)
  refine ⟨p, c, rest, t, hq, hstep.trans hrun, ?_, fun p' hp' => ?_, events, r, ?_⟩
  · rw [hout.portQueue, State.portQueue_takeCommand]
  · rw [hout.portQueue, State.portQueue_takeCommand_other s hp']
  · rw [ha.history, State.takeCommand_history]

/-! ## What each unit leaves unchanged (R81) -/

/-- FRM_FEED touches no JB element and puts no packet on the channel. -/
theorem exec_frmFeed_frame {s t : State} (h : exec .frmFeed s = .next t) :
    SameJb s t ∧ ∃ events r, Answered s t events r ∧ dataPackets events = [] := by
  cases exec_effect h with
  | answer r => exact ⟨⟨rfl, rfl, rfl, rfl, rfl, rfl⟩, [], r, answered_respond s r, rfl⟩
  | feed ms rest f _ =>
    exact ⟨⟨rfl, rfl, rfl, rfl, rfl, rfl⟩, _, _, ⟨rfl, rfl⟩, by simp⟩

/-- A JB command leaves FRM.acc and puts neither message nor fault on the channel. -/
theorem exec_jb_frame {i : Instr} {s t : State} (hi : isJb i = true) (h : exec i s = .next t) :
    SameFrm s t ∧ ∃ events r, Answered s t events r ∧ messagesOf events = [] ∧
      faultsOf events = [] := by
  cases exec_effect h with
  | answer r => exact ⟨rfl, [], r, answered_respond s r, rfl, rfl⟩
  | feed => cases hi
  | tickEmit p => exact ⟨rfl, [.data p], _, ⟨rfl, rfl⟩, rfl, rfl⟩
  | _ => exact ⟨rfl, [], _, (answered_respond _ _).after_write rfl, rfl, rfl⟩

/-- RD_REG only answers. -/
theorem exec_rdReg_frame {n : BitVec 16} {s t : State} (h : exec (.rdReg n) s = .next t) :
    ∃ r, t = s.respond r := by
  cases exec_effect h with
  | answer r => exact ⟨r, rfl⟩

/-- Settles O13, unit by unit. -/
theorem unitsTouchOnlyTheirState : Obligations.UnitsTouchOnlyTheirState := by
  refine ⟨fun s => ?_, fun i s hi => ?_, fun n s => ?_⟩
  · obtain ⟨t, ht⟩ := exec_has_next .frmFeed s
    obtain ⟨hjb, events, r, ha, hdata⟩ := exec_frmFeed_frame ht
    exact ⟨t, events, r, ht, hjb, exec_sameOutside ht, ha, hdata⟩
  · obtain ⟨t, ht⟩ := exec_has_next i s
    obtain ⟨hfrm, events, r, ha, hmsg, hfault⟩ := exec_jb_frame hi ht
    exact ⟨t, events, r, ht, hfrm, exec_sameOutside ht, ha, hmsg, hfault⟩
  · obtain ⟨t, ht⟩ := exec_has_next (.rdReg n) s
    obtain ⟨r, rfl⟩ := exec_rdReg_frame ht
    exact ⟨_, r, ht, rfl, ⟨rfl, rfl, rfl, rfl, rfl, rfl⟩, exec_sameOutside ht,
      answered_respond s r⟩

/-! ## What a command reads: runs from two states that agree on it -/

/-- The checks read the operands and the parameters only, so two states that agree on these are both
refused alike, or both run the rule (R322). -/
theorem exec_alike {i : Instr} {s u t : State} {R : State → State → Prop}
    (hops : u.operands = s.operands) (hparams : u.params = s.params)
    (hrefuse : ∀ st, R (s.refuse st) (u.refuse st)) (hrule : R (ruleOf i s) (ruleOf i u))
    (ht : exec i s = .next t) : ∃ v, exec i u = .next v ∧ R t v := by
  rw [exec_eq_checked, checked] at ht ⊢
  rw [hops, hparams]
  split_ifs at ht ⊢
  all_goals cases ht
  · exact ⟨_, rfl, hrefuse _⟩
  · exact ⟨_, rfl, hrefuse _⟩
  · exact ⟨_, rfl, hrule⟩

/-! ### Stateless commands (R41, R82) -/

theorem frmFrame_eq_respond (payload : Bytes) (s : State) :
    frmFrame payload s = s.respond
      (if s.params.maxOperandBytes < payload.length + 4 then Response.ofStatus .operandLimit
       else Response.ofBytes (frameOf payload)) := by
  unfold frmFrame
  split <;> rfl

theorem rtpSerialize_eq_respond (p : Packet) (s : State) :
    rtpSerialize p s = s.respond
      (if s.params.maxOperandBytes < 12 + p.payload.length then Response.ofStatus .operandLimit
       else Response.ofBytes (rtpBytes p)) := by
  unfold rtpSerialize
  split <;> rfl

theorem ulawDecStream_eq_respond (width : SampleWidth) (ch : Channels) (mu : Bytes) (s : State) :
    ulawDecStream width ch mu s = s.respond
      (if s.params.maxOperandBytes < mu.length * channelCount ch * sampleBytes width then
        Response.ofStatus .operandLimit
       else Response.ofBytes (ulawDecodeStream width ch mu)) := by
  unfold ulawDecStream
  split <;> rfl

/-- A stateless command's rule answers, and its answer reads the operands and the parameters only. -/
theorem ruleOf_stateless {i : Instr} {s u : State} (hi : isStateless i = true)
    (hops : u.operands = s.operands) (hparams : u.params = s.params) :
    ∃ r, ruleOf i s = s.respond r ∧ ruleOf i u = u.respond r := by
  cases i with
  | frmFeed | jbStart | jbStop | jbAdd | jbTick | rdReg => cases hi
  | frmFrame =>
    exact ⟨_, frmFrame_eq_respond _ s, by rw [ruleOf, frmFrame_eq_respond, hops, hparams]⟩
  | rtpSerialize =>
    exact ⟨_, rtpSerialize_eq_respond _ s, by rw [ruleOf, rtpSerialize_eq_respond, hops, hparams]⟩
  | ulawDecStream width ch =>
    exact ⟨_, ulawDecStream_eq_respond width ch _ s,
      by rw [ruleOf, ulawDecStream_eq_respond, hops, hparams]⟩
  | _ => exact ⟨_, rfl, by simp only [ruleOf, hops]⟩

/-- Settles O12: the checks and the rule read the operands and the parameters only. -/
theorem statelessCommandsOnlyAnswer : Obligations.StatelessCommandsOnlyAnswer := by
  intro i s u hi hops hparams
  obtain ⟨t, ht⟩ := exec_has_next i s
  obtain ⟨v, hv, r, rfl, rfl⟩ :=
    exec_alike (R := fun t v => ∃ r, t = s.respond r ∧ v = u.respond r) hops hparams
      (fun st => ⟨Response.ofStatus st, rfl, rfl⟩) (ruleOf_stateless hi hops hparams) ht
  exact ⟨r, _, _, ht, hv, answered_respond s r, answered_respond u r, rfl,
    ⟨rfl, rfl, rfl, rfl, rfl, rfl⟩, exec_sameOutside ht⟩

/-! ### The commands of one unit (R86) -/

/-- A command run from s to t and from u to v leaves its unit alike in both, after the same events
and the same response. -/
def EndAlike (Same : State → State → Prop) (s u t v : State) : Prop :=
  Same t v ∧ ∃ events r, Answered s t events r ∧ Answered u v events r

theorem respond_alike {Same : State → State → Prop} {s s' u u' : State} (r : Response)
    (hs : s'.history = s.history) (hu : u'.history = u.history)
    (h : Same (s'.respond r) (u'.respond r)) :
    EndAlike Same s u (s'.respond r) (u'.respond r) :=
  ⟨h, [], r, (answered_respond s' r).after_write hs, (answered_respond u' r).after_write hu⟩

theorem EndAlike.after_write {Same : State → State → Prop} {s s' u u' t v : State}
    (h : EndAlike Same s' u' t v) (hs : s'.history = s.history) (hu : u'.history = u.history) :
    EndAlike Same s u t v := by
  obtain ⟨hsame, events, r, ht, hv⟩ := h
  exact ⟨hsame, events, r, ht.after_write hs, hv.after_write hu⟩

theorem EndAlike.after_event {Same : State → State → Prop} {s s' u u' t v : State} {e : Event}
    (h : EndAlike Same s' u' t v) (hs : s'.history = s.history ++ [.event e])
    (hu : u'.history = u.history ++ [.event e]) : EndAlike Same s u t v := by
  obtain ⟨hsame, events, r, ht, hv⟩ := h
  exact ⟨hsame, e :: events, r, ht.after_event hs, hv.after_event hu⟩

/-- The events of the one run are those of the other. -/
theorem EndAlike.answered {Same : State → State → Prop} {s u t v : State} {events : List Event}
    {r : Response} (h : EndAlike Same s u t v) (ha : Answered s t events r) :
    ∃ q, Answered u v events q := by
  obtain ⟨-, events', q, ht, hv⟩ := h
  rw [ha.events_unique ht]
  exact ⟨q, hv⟩

theorem raiseFrameFault_alike (s u : State) (f : FrameFault) :
    EndAlike SameFrm s u (s.raiseFrameFault f) (u.raiseFrameFault f) :=
  ⟨rfl, [.fault f], _, ⟨rfl, rfl⟩, ⟨rfl, rfl⟩⟩

theorem frmTakeFrame_sameFrm {s u : State} (h : SameFrm s u) (L : Int) :
    SameFrm (frmTakeFrame L s) (frmTakeFrame L u) := congrArg (List.drop _) h

theorem frmTakeFrame_history (L : Int) (s : State) :
    (frmTakeFrame L s).history =
      s.history ++ [.event (.msg (slice s.frmAcc 4 (4 + L.toNat)))] := rfl

/-- The emission loop reads FRM.acc only. -/
theorem frmLoop_alike (n : Nat) (L : Int) {s u : State} (h : SameFrm s u) :
    EndAlike SameFrm s u (frmLoop n L s) (frmLoop n L u) := by
  induction n generalizing L s u with
  | zero => exact respond_alike _ rfl rfl h
  | succ n ih =>
    have hacc : u.frmAcc = s.frmAcc := h
    have htake := frmTakeFrame_sameFrm h L
    have hacc' : (frmTakeFrame L u).frmAcc = (frmTakeFrame L s).frmAcc := htake
    have hmsg := frmTakeFrame_history L u
    rw [hacc] at hmsg
    unfold frmLoop
    rw [hacc, hacc']
    split_ifs
    · exact respond_alike _ rfl rfl h
    · exact raiseFrameFault_alike s u _
    · exact (respond_alike _ rfl rfl htake).after_event (frmTakeFrame_history L s) hmsg
    · exact (ih _ htake).after_event (frmTakeFrame_history L s) hmsg

theorem frmParse_alike {s u : State} (h : SameFrm s u) :
    EndAlike SameFrm s u (frmParse s) (frmParse u) := by
  have hacc : u.frmAcc = s.frmAcc := h
  unfold frmParse
  rw [hacc]
  split_ifs
  · exact raiseFrameFault_alike s u _
  · exact respond_alike _ rfl rfl h
  · exact raiseFrameFault_alike s u _
  · exact frmLoop_alike _ _ h

/-- FRM_FEED reads FRM.acc, its chunk and the parameters only. -/
theorem exec_frmFeed_alike {s u t : State} (h : SameFrm s u) (hops : u.operands = s.operands)
    (hparams : u.params = s.params) (ht : exec .frmFeed s = .next t) :
    ∃ v, exec .frmFeed u = .next v ∧ EndAlike SameFrm s u t v := by
  refine exec_alike hops hparams (fun st => respond_alike _ rfl rfl h) ?_ ht
  have happend : SameFrm { s with frmAcc := s.frmAcc ++ bytesArg s.operands }
      { u with frmAcc := u.frmAcc ++ bytesArg u.operands } := by
    rw [hops]
    exact congrArg (· ++ _) h
  exact (frmParse_alike happend).after_write rfl rfl

theorem SameJb.respond {s u : State} (h : SameJb s u) (r : Response) :
    SameJb (s.respond r) (u.respond r) :=
  ⟨h.queue, h.filling, h.overflowing, h.running, h.lastPacket, h.interval⟩

theorem jbStart_alike {s u : State} (imm : BitVec 16) (h : SameJb s u) :
    EndAlike SameJb s u (jbStart imm s) (jbStart imm u) :=
  respond_alike _ rfl rfl ⟨h.queue, rfl, h.overflowing, rfl, h.lastPacket, rfl⟩

theorem jbStop_alike {s u : State} (h : SameJb s u) :
    EndAlike SameJb s u (jbStop s) (jbStop u) :=
  respond_alike _ rfl rfl ⟨rfl, h.filling, h.overflowing, rfl, h.lastPacket, h.interval⟩

theorem jbTick_of_stopped {s : State} (h : s.jbRunning = false) : jbTick s = s.complete := by
  simp only [jbTick, h, Bool.false_eq_true, if_false]

theorem jbTick_of_running {s : State} (h : s.jbRunning = true) :
    jbTick s = jbPace { s with jbOverflowing := overflowAfterRecovery s } := by
  rw [jbTick, if_pos h]

theorem jbEmitOldest_alike {s u : State} (p : Packet) (rest : List Packet) (h : SameJb s u) :
    EndAlike SameJb s u (jbEmitOldest p rest s) (jbEmitOldest p rest u) :=
  ⟨⟨rfl, rfl, h.overflowing, h.running, rfl, h.interval⟩, [.data p], Response.ofStatus .ok,
    ⟨by simp [jbEmitOldest], rfl⟩, ⟨by simp [jbEmitOldest], rfl⟩⟩

section JbReads

variable {s u : State} (h : SameJb s u) (hparams : u.params = s.params)

include h in
theorem SameJb.lastHasPayload_eq : lastHasPayload u = lastHasPayload s := by
  rw [lastHasPayload, h.lastPacket, lastHasPayload]

include h in
theorem SameJb.fillingAfterEmpty_eq : fillingAfterEmpty u = fillingAfterEmpty s := by
  rw [fillingAfterEmpty, h.filling, h.lastHasPayload_eq, fillingAfterEmpty]

include h hparams

theorem SameJb.jbAdmits_eq : jbAdmits u = jbAdmits s := by
  rw [jbAdmits, h.overflowing, h.queue, hparams, jbAdmits]

theorem SameJb.overflowAfterRecovery_eq : overflowAfterRecovery u = overflowAfterRecovery s := by
  rw [overflowAfterRecovery, h.overflowing, h.queue, halfFull, hparams]
  rfl

theorem SameJb.stillFilling_eq : stillFilling u = stillFilling s := by
  rw [stillFilling, h.filling, h.queue, halfFull, hparams]
  rfl

theorem jbAdd_alike (p : Packet) : EndAlike SameJb s u (jbAdd p s) (jbAdd p u) := by
  unfold jbAdd
  rw [h.jbAdmits_eq hparams]
  split_ifs
  · exact respond_alike _ rfl rfl ⟨congrArg (· ++ [p]) h.queue, h.filling, h.overflowing,
      h.running, h.lastPacket, h.interval⟩
  · exact respond_alike _ rfl rfl ⟨h.queue, h.filling, rfl, h.running, h.lastPacket, h.interval⟩

theorem jbPace_alike : EndAlike SameJb s u (jbPace s) (jbPace u) := by
  obtain ⟨hq, hs⟩ | ⟨hq, hfill, hs⟩ | ⟨hfill, p, rest, hq, hs⟩ := jbPace_cases s
  · have hu : jbPace u = jbDrained u := by rw [jbPace, h.queue, hq]
    rw [hs, hu]
    exact respond_alike _ rfl rfl
      ⟨h.queue, h.fillingAfterEmpty_eq, rfl, h.running, h.lastPacket, h.interval⟩
  · obtain ⟨p, rest, hcons⟩ := List.exists_cons_of_ne_nil hq
    have hu : jbPace u = u.complete := by
      rw [jbPace, h.queue, hcons, h.stillFilling_eq hparams, hfill]
      rfl
    rw [hs, hu]
    exact respond_alike _ rfl rfl (h.respond _)
  · have hu : jbPace u = jbEmitOldest p rest u := by
      rw [jbPace, h.queue, hq, h.stillFilling_eq hparams, hfill]
      rfl
    rw [hs, hu]
    exact jbEmitOldest_alike p rest h

theorem jbTick_alike : EndAlike SameJb s u (jbTick s) (jbTick u) := by
  cases hrun : s.jbRunning with
  | false =>
    rw [jbTick_of_stopped hrun, jbTick_of_stopped (h.running.trans hrun)]
    exact respond_alike _ rfl rfl (h.respond _)
  | true =>
    rw [jbTick_of_running hrun, jbTick_of_running (h.running.trans hrun)]
    have hrecovered : SameJb { s with jbOverflowing := overflowAfterRecovery s }
        { u with jbOverflowing := overflowAfterRecovery u } :=
      ⟨h.queue, h.filling, h.overflowAfterRecovery_eq hparams, h.running, h.lastPacket,
        h.interval⟩
    exact (jbPace_alike hrecovered hparams).after_write rfl rfl

/-- A JB command reads the JB elements, its operands and the parameters only. -/
theorem exec_jb_alike {i : Instr} {t : State} (hi : isJb i = true)
    (hops : u.operands = s.operands) (ht : exec i s = .next t) :
    ∃ v, exec i u = .next v ∧ EndAlike SameJb s u t v := by
  refine exec_alike hops hparams (fun st => respond_alike _ rfl rfl (h.respond _)) ?_ ht
  cases i with
  | jbStart imm => exact jbStart_alike imm h
  | jbStop => exact jbStop_alike h
  | jbAdd =>
    rw [ruleOf, ruleOf, hops]
    exact jbAdd_alike h hparams _
  | jbTick => exact jbTick_alike h hparams
  | _ => cases hi

end JbReads

/-! ## FRM_FEED and a JB command commute (R86) -/

theorem execAll_pair {a b : Instr} {aops bops : List Operand} {s t u : State}
    (ha : exec a { s with operands := aops } = .next t)
    (hb : exec b { t with operands := bops } = .next u) :
    execAll [(a, aops), (b, bops)] s = .next u := by
  simp only [execAll, ha, hb]

/-- Two commands in a row: their events, in order, and nothing outside the units changed. -/
theorem exec_pair_leaves {a b : Instr} {aops bops : List Operand} {s t u : State}
    {es fs : List Event} {r q : Response}
    (ha : exec a { s with operands := aops } = .next t)
    (hb : exec b { t with operands := bops } = .next u)
    (hes : Answered { s with operands := aops } t es r)
    (hfs : Answered { t with operands := bops } u fs q) :
    SameOutside s u ∧ u.channel = s.channel ++ es ++ fs := by
  refine ⟨((sameOutside_withOperands s aops).trans (exec_sameOutside ha)).trans
    ((sameOutside_withOperands t bops).trans (exec_sameOutside hb)), ?_⟩
  have ht : t.channel = s.channel ++ es := hes.channel
  have hu : u.channel = t.channel ++ fs := hfs.channel
  rw [hu, ht]

/-- Settles O14: each unit's command meets its own unit as it would alone, so it leaves the same
there and emits the same, and the two kinds of events are read apart. -/
theorem framerAndJitterCommute : Obligations.FramerAndJitterCommute := by
  intro i ops fops s hi
  obtain ⟨t₁, ht₁⟩ := exec_has_next .frmFeed { s with operands := fops }
  obtain ⟨u₁, hu₁⟩ := exec_has_next i { s with operands := ops }
  obtain ⟨hfeedJb, es, r, hes, hdata⟩ := exec_frmFeed_frame ht₁
  obtain ⟨hjbFrm, fs, q, hfs, hmsg, hfault⟩ := exec_jb_frame hi hu₁
  have hjb₁ : SameJb { s with operands := ops } { t₁ with operands := ops } :=
    ⟨hfeedJb.queue, hfeedJb.filling, hfeedJb.overflowing, hfeedJb.running, hfeedJb.lastPacket,
      hfeedJb.interval⟩
  have hfrm₁ : SameFrm { s with operands := fops } { u₁ with operands := fops } := hjbFrm
  have ht₁params : t₁.params = s.params := (exec_params ht₁ :)
  have hu₁params : u₁.params = s.params := (exec_params hu₁ :)
  obtain ⟨t, ht, hjb⟩ := exec_jb_alike hjb₁ ht₁params hi rfl hu₁
  obtain ⟨u, hu, hfrm⟩ := exec_frmFeed_alike hfrm₁ rfl hu₁params ht₁
  obtain ⟨_, hfst⟩ := hjb.answered hfs
  obtain ⟨_, hesu⟩ := hfrm.answered hes
  obtain ⟨htOut, htCh⟩ := exec_pair_leaves ht₁ ht hes hfst
  obtain ⟨huOut, huCh⟩ := exec_pair_leaves hu₁ hu hfs hesu
  have hfrmt : SameFrm { t₁ with operands := ops } t := (exec_jb_frame hi ht).1
  have hjbu : SameJb u₁ u := (sameJb_withOperands u₁ fops).trans (exec_frmFeed_frame hu).1
  refine ⟨t, u, execAll_pair ht₁ ht, execAll_pair hu₁ hu, hfrm.1.trans hfrmt.symm,
    hjb.1.symm.trans hjbu, htOut.symm.trans huOut, ?_, ?_, ?_⟩
  all_goals rw [htCh, huCh]
  · simp [hmsg]
  · simp [hfault]
  · simp [hdata]

/-! ## A stopped buffer stays silent (R87, R223, R232) -/

/-- A legal instance, stopped, with no reset asked for and no JB_START on any port: what every step
keeps. -/
structure StaysStopped (s : State) : Prop where
  legal : legalParams s.params = true
  noReset : s.resetPending = false
  stopped : s.jbRunning = false
  noStart : noStartPending s

theorem noStartPending_of_subset {s t : State} (h : noStartPending s)
    (hsub : ∀ p, t.portQueue p ⊆ s.portQueue p) : noStartPending t :=
  fun p c hc => h p c (hsub p hc)

theorem portQueue_takeCommand_subset {s : State} {p : Port} {c : Command} {rest : List Command}
    (hq : s.portQueue p = c :: rest) (p' : Port) :
    (s.takeCommand p c rest).portQueue p' ⊆ s.portQueue p' := by
  by_cases hp : p' = p
  · rw [hp, State.portQueue_takeCommand, hq]
    exact List.subset_cons_self c rest
  · rw [State.portQueue_takeCommand_other s hp]
    exact List.Subset.refl _

theorem takeCommand_staysStopped {s : State} {p : Port} {c : Command} {rest : List Command}
    (hs : StaysStopped s) (hq : s.portQueue p = c :: rest) :
    StaysStopped (s.takeCommand p c rest) where
  legal := by simpa using hs.legal
  noReset := by simpa using hs.noReset
  stopped := by simpa using hs.stopped
  noStart := noStartPending_of_subset hs.noStart (portQueue_takeCommand_subset hq)

theorem SameOutside.staysStopped {s t : State} (h : SameOutside s t) (hs : StaysStopped s)
    (hrun : t.jbRunning = false) : StaysStopped t where
  legal := by rw [h.params, hs.legal]
  noReset := by rw [h.resetPending, hs.noReset]
  stopped := hrun
  noStart := noStartPending_of_subset hs.noStart fun p _ hc => h.portQueue p ▸ hc

/-- A tick while stopped only answers. -/
theorem exec_jbTick_stopped {s t : State} (hrun : s.jbRunning = false)
    (h : exec .jbTick s = .next t) : ∃ r, t = s.respond r := by
  obtain ⟨-, hx⟩ | ⟨-, -, hx⟩ | ⟨-, -, hx⟩ := exec_cases .jbTick s
  all_goals
    rw [hx] at h
    cases h
  · exact ⟨_, rfl⟩
  · exact ⟨_, rfl⟩
  · exact ⟨_, jbTick_of_stopped hrun⟩

/-- No command but JB_START starts a stopped buffer, and the only command that emits packets, the
tick, emits none while stopped. -/
theorem exec_stopped {i : Instr} {s t : State} (h : exec i s = .next t)
    (hrun : s.jbRunning = false) (hstart : ∀ imm, i ≠ .jbStart imm) :
    t.jbRunning = false ∧ dataPackets t.channel = dataPackets s.channel := by
  by_cases htick : i = .jbTick
  · subst htick
    obtain ⟨r, rfl⟩ := exec_jbTick_stopped hrun h
    exact ⟨hrun, by rw [State.channel_respond]⟩
  cases exec_effect h with
  | answer r => exact ⟨hrun, by rw [State.channel_respond]⟩
  | feed ms rest f _ => exact ⟨hrun, dataPackets_channelOf_feed _ _ _ _⟩
  | start imm => exact absurd rfl (hstart imm)
  | stop => exact ⟨rfl, by rw [jbStop, State.channel_complete]; rfl⟩
  | append | drop => exact ⟨hrun, by rw [State.channel_complete]; rfl⟩
  | tickFlags | tickEmit => exact absurd rfl htick

theorem step_staysStopped {s : State} (hs : StaysStopped s) :
    ∃ t, step s = .next t ∧ StaysStopped t ∧ dataPackets t.channel = dataPackets s.channel := by
  obtain ⟨-, hstep⟩ | ⟨p, c, rest, hq, hstep⟩ := step_idle_or_serves hs.legal hs.noReset
  · exact ⟨s, hstep, hs, rfl⟩
  have htaken := takeCommand_staysStopped hs hq
  obtain ⟨t, -, -, hrun, -, hout⟩ := runCommand_answers c (s.takeCommand p c rest)
  refine ⟨t, hstep.trans hrun, ?_⟩
  obtain ⟨-, hx⟩ | ⟨i, hd, hx⟩ := runCommand_cases c (s.takeCommand p c rest)
  · cases hrun.symm.trans hx
    exact ⟨hout.staysStopped htaken htaken.stopped, by simp⟩
  · have hstart : ∀ imm, i ≠ .jbStart imm := fun imm hi =>
      hs.noStart p c (by simp [hq]) imm (hi ▸ hd)
    obtain ⟨hstopped, hdata⟩ := exec_stopped (hx.symm.trans hrun) htaken.stopped hstart
    exact ⟨hout.staysStopped htaken hstopped, by rw [hdata, State.channel_takeCommand]⟩

theorem core_run_succ {s t : State} (h : step s = .next t) (n : Nat) :
    Sys2Proof.core.run (n + 1) s = Sys2Proof.core.run n t := by
  have hcore : Sys2Proof.core.step s = .next t := h
  simp only [Host.Core.run, hcore]

/-- Settles O44, by induction on the number of steps. -/
theorem noPacketAfterStop : Obligations.NoPacketAfterStop := by
  intro n s hlegal hreset hrun hstart
  have hs : StaysStopped s := ⟨hlegal, hreset, hrun, hstart⟩
  clear hlegal hreset hrun hstart
  induction n generalizing s with
  | zero => exact ⟨s, rfl, hs.stopped, rfl⟩
  | succ n ih =>
    obtain ⟨s', hstep, hs', hdata⟩ := step_staysStopped hs
    obtain ⟨t, ht, hstopped, hdata'⟩ := ih s' hs'
    exact ⟨t, (core_run_succ hstep n).trans ht, hstopped, hdata'.trans hdata⟩

end Sys2Proof.Machine
end

section
/-! 30_encoding.md: the decoder and the encoder are each other's inverse on the commands of the opcode
map, the match and mask table says the same as the decoder, and what a word outside the map, a wrong
operand list and ULAW_ENC answer. -/
namespace Sys2Proof.Machine

open Sys2Proof.Laws

/-! ## Words and their fields (R101) -/

theorem packWord_eq_iff {opc : BitVec 8} {a b : BitVec 4} {imm : BitVec 16} {w : Word} :
    packWord opc a b imm = w ↔
      fieldOpc w = opc ∧ fieldA w = a ∧ fieldB w = b ∧ fieldImm w = imm := by
  constructor
  · rintro rfl
    exact ⟨fieldOpc_packWord .., fieldA_packWord .., fieldB_packWord .., fieldImm_packWord ..⟩
  · rintro ⟨rfl, rfl, rfl, rfl⟩
    exact packWord_fields w

theorem encode_eq_iff {i : Instr} {w : Word} :
    encode i = w ↔
      fieldOpc w = i.opcode ∧ fieldA w = i.selectorA ∧ fieldB w = i.selectorB ∧
        fieldImm w = i.imm16 :=
  packWord_eq_iff

theorem word_eq_iff_fields {v w : Word} :
    v = w ↔ fieldOpc v = fieldOpc w ∧ fieldA v = fieldA w ∧ fieldB v = fieldB w ∧
      fieldImm v = fieldImm w := by
  rw [← packWord_eq_iff, packWord_fields, eq_comm]

/-- IMM16 of an ULAW_DEC word is its byte, with eight zeros above (R108). -/
theorem highByte_eq_zero_iff (m : BitVec 16) :
    m.extractLsb' 8 8 = 0 ↔ m = (m.extractLsb' 0 8).setWidth 16 := by
  simp only [← BitVec.toNat_inj, BitVec.extractLsb'_toNat, BitVec.toNat_setWidth]
  have := m.isLt
  simp
  omega

theorem lowByte_setWidth (u : Byte) : (u.setWidth 16).extractLsb' 0 8 = u := by
  apply BitVec.eq_of_toNat_eq
  have := u.isLt
  simp
  omega

/-! ## When each form of row decodes (R105) -/

theorem decodeWidth_eq_ok_iff {a : BitVec 4} {width : SampleWidth} :
    decodeWidth a = .ok width ↔ a = encodeWidth width := by
  revert a
  cases width <;> decide

theorem decodeChannels_eq_ok_iff {b : BitVec 4} {ch : Channels} :
    decodeChannels b = .ok ch ↔ b = encodeChannels ch := by
  revert b
  cases ch <;> decide

theorem guarded_eq_ok_iff {c : Prop} [Decidable c] {r : Except DecodeError Instr} {e : DecodeError}
    {j : Instr} : (if c then r else .error e) = .ok j ↔ c ∧ r = .ok j := by
  split <;> simp [*]

section Rows

variable {w : Word} {i j : Instr}

theorem decodeImmRow_eq_ok_iff :
    decodeImmRow w i = .ok j ↔ i = j ∧ fieldA w = 0 ∧ fieldB w = 0 := by
  rw [decodeImmRow, guarded_eq_ok_iff, Except.ok.injEq, and_comm]

theorem decodePlainRow_eq_ok_iff :
    decodePlainRow w i = .ok j ↔ i = j ∧ fieldA w = 0 ∧ fieldB w = 0 ∧ fieldImm w = 0 := by
  rw [decodePlainRow, guarded_eq_ok_iff, decodeImmRow_eq_ok_iff]
  tauto

theorem decodeStreamRow_eq_ok_iff {mk : SampleWidth → Channels → Instr} :
    decodeStreamRow w mk = .ok j ↔
      ∃ width ch, mk width ch = j ∧ fieldA w = encodeWidth width ∧
        fieldB w = encodeChannels ch ∧ fieldImm w = 0 := by
  simp only [← decodeWidth_eq_ok_iff, ← decodeChannels_eq_ok_iff]
  unfold decodeStreamRow
  cases decodeWidth (fieldA w) <;> cases decodeChannels (fieldB w) <;>
    simp [guarded_eq_ok_iff, and_comm]

theorem decodeMixRow_eq_ok_iff :
    decodeMixRow w = .ok j ↔
      ∃ width, .mix width = j ∧ fieldA w = encodeWidth width ∧ fieldB w = 0 ∧
        fieldImm w = 0 := by
  simp only [← decodeWidth_eq_ok_iff]
  unfold decodeMixRow
  cases decodeWidth (fieldA w) <;> simp [guarded_eq_ok_iff, and_comm]

theorem decodeUlawDecRow_eq_ok_iff :
    decodeUlawDecRow w = .ok j ↔
      ∃ u : Byte, .ulawDec u = j ∧ fieldA w = 0 ∧ fieldB w = 0 ∧
        fieldImm w = u.setWidth 16 := by
  rw [decodeUlawDecRow, guarded_eq_ok_iff, decodeImmRow_eq_ok_iff, highByte_eq_zero_iff]
  constructor
  · rintro ⟨himm, hj, ha, hb⟩
    exact ⟨_, hj, ha, hb, himm⟩
  · rintro ⟨u, hj, ha, hb, himm⟩
    rw [himm, lowByte_setWidth]
    exact ⟨rfl, hj, ha, hb⟩

theorem decodeRdRegRow_eq_ok_iff :
    decodeRdRegRow w = .ok j ↔
      .rdReg (fieldImm w) = j ∧ fieldA w = 0 ∧ fieldB w = 0 ∧ (fieldImm w).toNat ≤ 5 := by
  rw [decodeRdRegRow, guarded_eq_ok_iff, decodeImmRow_eq_ok_iff]
  tauto

end Rows

/-! ## The decoder and the encoder (R101, R105, R108) -/

theorem encode_of_decode {w : Word} {i : Instr} (h : decode w = .ok i) :
    encode i = w ∧ i.wellFormed = true := by
  rw [encode_eq_iff]
  unfold decode at h
  split at h
  -- JB_START and ULAW_ENC read all of IMM16.
  case h_5 hopc | h_9 hopc =>
    obtain ⟨rfl, ha, hb⟩ := decodeImmRow_eq_ok_iff.mp h
    exact ⟨⟨BitVec.eq_of_toNat_eq hopc, ha, hb, rfl⟩, rfl⟩
  case h_10 hopc =>
    obtain ⟨u, rfl, ha, hb, himm⟩ := decodeUlawDecRow_eq_ok_iff.mp h
    exact ⟨⟨BitVec.eq_of_toNat_eq hopc, ha, hb, himm⟩, rfl⟩
  case h_11 hopc | h_12 hopc =>
    obtain ⟨width, ch, rfl, ha, hb, himm⟩ := decodeStreamRow_eq_ok_iff.mp h
    exact ⟨⟨BitVec.eq_of_toNat_eq hopc, ha, hb, himm⟩, rfl⟩
  case h_13 hopc =>
    obtain ⟨width, rfl, ha, hb, himm⟩ := decodeMixRow_eq_ok_iff.mp h
    exact ⟨⟨BitVec.eq_of_toNat_eq hopc, ha, hb, himm⟩, rfl⟩
  case h_15 hopc =>
    obtain ⟨rfl, ha, hb, hreg⟩ := decodeRdRegRow_eq_ok_iff.mp h
    exact ⟨⟨BitVec.eq_of_toNat_eq hopc, ha, hb, rfl⟩, decide_eq_true hreg⟩
  case h_16 => cases h
  -- The rows left are those whose fields other than OPC are all 0.
  all_goals
    next hopc =>
    obtain ⟨rfl, ha, hb, himm⟩ := decodePlainRow_eq_ok_iff.mp h
    exact ⟨⟨BitVec.eq_of_toNat_eq hopc, ha, hb, himm⟩, rfl⟩

theorem decode_encode {i : Instr} (hwf : i.wellFormed = true) : decode (encode i) = .ok i := by
  obtain ⟨hopc, ha, hb, himm⟩ := encode_eq_iff.mp (rfl : encode i = encode i)
  generalize encode i = w at hopc ha hb himm ⊢
  unfold decode
  rw [hopc]
  cases i with
  | jbStart interval => exact decodeImmRow_eq_ok_iff.mpr ⟨by rw [himm]; rfl, ha, hb⟩
  | ulawEnc sample => exact decodeImmRow_eq_ok_iff.mpr ⟨by rw [himm]; rfl, ha, hb⟩
  | ulawDec u => exact decodeUlawDecRow_eq_ok_iff.mpr ⟨u, rfl, ha, hb, himm⟩
  | ulawEncStream width ch =>
    exact decodeStreamRow_eq_ok_iff.mpr ⟨width, ch, rfl, ha, hb, himm⟩
  | ulawDecStream width ch =>
    exact decodeStreamRow_eq_ok_iff.mpr ⟨width, ch, rfl, ha, hb, himm⟩
  | mix width => exact decodeMixRow_eq_ok_iff.mpr ⟨width, rfl, ha, hb, himm⟩
  | rdReg n =>
    refine decodeRdRegRow_eq_ok_iff.mpr ?_
    rw [himm]
    exact ⟨rfl, ha, hb, of_decide_eq_true hwf⟩
  | _ => exact decodePlainRow_eq_ok_iff.mpr ⟨rfl, ha, hb, himm⟩

/-- A word stands for a command exactly when it is the word of that command. -/
theorem decode_eq_ok_iff {w : Word} {i : Instr} :
    decode w = .ok i ↔ encode i = w ∧ i.wellFormed = true := by
  refine ⟨encode_of_decode, ?_⟩
  rintro ⟨rfl, hwf⟩
  exact decode_encode hwf

/-- Settles O1: the fields of the encoded word are those of the command's row, and that row's decoder
reads the command back from them. -/
theorem decodeOfEncodeIsIdentity : Obligations.DecodeOfEncodeIsIdentity := fun _ => decode_encode

/-- Settles O2: each row of the decoder pins every field of the word to the field its command
encodes. -/
theorem encodeOfDecodeIsIdentity : Obligations.EncodeOfDecodeIsIdentity :=
  fun _ _ => encode_of_decode

/-! ## The match and mask table (R106, R107) -/

theorem fieldOpc_and (v w : Word) : fieldOpc (v &&& w) = fieldOpc v &&& fieldOpc w :=
  BitVec.extractLsb'_and

theorem fieldA_and (v w : Word) : fieldA (v &&& w) = fieldA v &&& fieldA w :=
  BitVec.extractLsb'_and

theorem fieldB_and (v w : Word) : fieldB (v &&& w) = fieldB v &&& fieldB w :=
  BitVec.extractLsb'_and

theorem fieldImm_and (v w : Word) : fieldImm (v &&& w) = fieldImm v &&& fieldImm w :=
  BitVec.extractLsb'_and

theorem tableRow_holds_iff {r : TableRow} {w : Word} :
    r.holds w = true ↔ w &&& r.mask = r.pattern ∧ (fieldImm w).toNat ≤ r.immMax := by
  simp [TableRow.holds]

theorem eq_of_and_allOnes {n : Nat} {x y : BitVec n} (h : x &&& BitVec.allOnes n = y) : x = y := by
  rwa [BitVec.and_allOnes] at h

/-- A selector with no bit of 1110 is 0 or 1 (R101). -/
theorem selector_eq_zero_or_one {a : BitVec 4} (h : a &&& 0xE = 0) : a = 0 ∨ a = 1 := by
  revert a
  decide

theorem exists_encodeWidth {a : BitVec 4} (h : a &&& 0xE = 0) : ∃ width, a = encodeWidth width := by
  obtain h0 | h1 := selector_eq_zero_or_one h
  · exact ⟨.bits8, h0⟩
  · exact ⟨.bits16, h1⟩

theorem exists_encodeChannels {b : BitVec 4} (h : b &&& 0xE = 0) : ∃ ch, b = encodeChannels ch := by
  obtain h0 | h1 := selector_eq_zero_or_one h
  · exact ⟨.one, h0⟩
  · exact ⟨.two, h1⟩

/-- The mask of ULAW_DEC's row leaves the low byte of IMM16 free (R106, R108). -/
theorem exists_setWidth_of_highByte {m : BitVec 16} (h : m &&& 0xFF00 = 0) :
    ∃ u : Byte, m = u.setWidth 16 := by
  refine ⟨_, (highByte_eq_zero_iff m).mp (eq_of_and_allOnes ?_)⟩
  calc m.extractLsb' 8 8 &&& BitVec.allOnes 8
      = (m &&& 0xFF00).extractLsb' 8 8 := by rw [BitVec.extractLsb'_and]; rfl
    _ = 0 := by rw [h]; rfl

theorem setWidth_and_highByte (u : Byte) : u.setWidth 16 &&& 0xFF00 = 0 := by
  revert u
  decide

/-- Matching a mask that covers OPC, field by field. -/
theorem and_packWord_eq_iff {w : Word} {opc : BitVec 8} {ma mb : BitVec 4} {mi : BitVec 16} :
    w &&& packWord 0xFF ma mb mi = packWord opc 0 0 0 ↔
      fieldOpc w = opc ∧ fieldA w &&& ma = 0 ∧ fieldB w &&& mb = 0 ∧ fieldImm w &&& mi = 0 := by
  simp only [word_eq_iff_fields, fieldOpc_and, fieldA_and, fieldB_and, fieldImm_and,
    fieldOpc_packWord, fieldA_packWord, fieldB_packWord, fieldImm_packWord]
  rw [show (0xFF : BitVec 8) = BitVec.allOnes 8 from rfl, BitVec.and_allOnes]

/-! ### Each form of mask and the words it admits (R106)

The right-hand sides are the words the encoder writes for a command of such a row. -/

section Masks

variable {w : Word} {opc : BitVec 8}

theorem immMask_iff :
    w &&& 0x0000FFFF = packWord opc 0 0 0 ↔ ∃ imm, packWord opc 0 0 imm = w := by
  refine (and_packWord_eq_iff (ma := 0xF) (mb := 0xF) (mi := 0)).trans ?_
  simp only [packWord_eq_iff]
  constructor
  · rintro ⟨hopc, ha, hb, -⟩
    exact ⟨_, hopc, eq_of_and_allOnes ha, eq_of_and_allOnes hb, rfl⟩
  · rintro ⟨imm, hopc, ha, hb, -⟩
    exact ⟨hopc, by simp [ha], by simp [hb], BitVec.and_zero⟩

theorem ulawDecMask_iff :
    w &&& 0xFF00FFFF = packWord opc 0 0 0 ↔
      ∃ u : Byte, packWord opc 0 0 (u.setWidth 16) = w := by
  refine (and_packWord_eq_iff (ma := 0xF) (mb := 0xF) (mi := 0xFF00)).trans ?_
  simp only [packWord_eq_iff]
  constructor
  · rintro ⟨hopc, ha, hb, himm⟩
    obtain ⟨u, hu⟩ := exists_setWidth_of_highByte himm
    exact ⟨u, hopc, eq_of_and_allOnes ha, eq_of_and_allOnes hb, hu⟩
  · rintro ⟨u, hopc, ha, hb, himm⟩
    exact ⟨hopc, by simp [ha], by simp [hb], by rw [himm, setWidth_and_highByte]⟩

theorem streamMask_iff :
    w &&& 0xFFFFEEFF = packWord opc 0 0 0 ↔
      ∃ width ch, packWord opc (encodeWidth width) (encodeChannels ch) 0 = w := by
  refine (and_packWord_eq_iff (ma := 0xE) (mb := 0xE) (mi := 0xFFFF)).trans ?_
  simp only [packWord_eq_iff]
  constructor
  · rintro ⟨hopc, ha, hb, himm⟩
    obtain ⟨width, hwidth⟩ := exists_encodeWidth ha
    obtain ⟨ch, hch⟩ := exists_encodeChannels hb
    exact ⟨width, ch, hopc, hwidth, hch, eq_of_and_allOnes himm⟩
  · rintro ⟨width, ch, hopc, ha, hb, himm⟩
    exact ⟨hopc, by rw [ha]; cases width <;> rfl, by rw [hb]; cases ch <;> rfl, by simp [himm]⟩

theorem mixMask_iff :
    w &&& 0xFFFFFEFF = packWord opc 0 0 0 ↔
      ∃ width, packWord opc (encodeWidth width) 0 0 = w := by
  refine (and_packWord_eq_iff (ma := 0xE) (mb := 0xF) (mi := 0xFFFF)).trans ?_
  simp only [packWord_eq_iff]
  constructor
  · rintro ⟨hopc, ha, hb, himm⟩
    obtain ⟨width, hwidth⟩ := exists_encodeWidth ha
    exact ⟨width, hopc, hwidth, eq_of_and_allOnes hb, eq_of_and_allOnes himm⟩
  · rintro ⟨width, hopc, ha, hb, himm⟩
    exact ⟨hopc, by rw [ha]; cases width <;> rfl, by simp [hb], by simp [himm]⟩

end Masks

theorem fieldImm_le (w : Word) : (fieldImm w).toNat ≤ 65535 := Nat.le_of_lt_succ (fieldImm w).isLt

/-! ### The table and the decoder -/

theorem exists_row_of_decode {w : Word} {i : Instr} (h : decode w = .ok i) :
    ∃ r ∈ opcodeTable, r.mnemonic = i.mnemonic ∧ r.holds w = true := by
  obtain ⟨rfl, hwf⟩ := encode_of_decode h
  clear h
  cases i with
  | jbStart interval =>
    exact ⟨opcodeTable[4], List.getElem_mem _, rfl,
      tableRow_holds_iff.mpr ⟨(immMask_iff (opc := 0x20)).mpr ⟨interval, rfl⟩, fieldImm_le _⟩⟩
  | ulawEnc sample =>
    exact ⟨opcodeTable[8], List.getElem_mem _, rfl,
      tableRow_holds_iff.mpr ⟨(immMask_iff (opc := 0x30)).mpr ⟨sample, rfl⟩, fieldImm_le _⟩⟩
  | ulawDec u =>
    exact ⟨opcodeTable[9], List.getElem_mem _, rfl,
      tableRow_holds_iff.mpr ⟨(ulawDecMask_iff (opc := 0x31)).mpr ⟨u, rfl⟩, fieldImm_le _⟩⟩
  | ulawEncStream width ch =>
    exact ⟨opcodeTable[10], List.getElem_mem _, rfl,
      tableRow_holds_iff.mpr ⟨(streamMask_iff (opc := 0x32)).mpr ⟨width, ch, rfl⟩, fieldImm_le _⟩⟩
  | ulawDecStream width ch =>
    exact ⟨opcodeTable[11], List.getElem_mem _, rfl,
      tableRow_holds_iff.mpr ⟨(streamMask_iff (opc := 0x33)).mpr ⟨width, ch, rfl⟩, fieldImm_le _⟩⟩
  | mix width =>
    exact ⟨opcodeTable[12], List.getElem_mem _, rfl,
      tableRow_holds_iff.mpr ⟨(mixMask_iff (opc := 0x40)).mpr ⟨width, rfl⟩, fieldImm_le _⟩⟩
  | rdReg n =>
    refine ⟨opcodeTable[14], List.getElem_mem _, rfl,
      tableRow_holds_iff.mpr ⟨(immMask_iff (opc := 0xF0)).mpr ⟨n, rfl⟩, ?_⟩⟩
    rw [encode, fieldImm_packWord]
    exact of_decide_eq_true hwf
  | _ => decide

/-- A plain row's mask covers the word, so its pattern is the one word it admits. -/
theorem plainRow_decodes {w : Word} {i : Instr} (h : w &&& 0xFFFFFFFF = encode i)
    (hwf : i.wellFormed = true) : ∃ j, decode w = .ok j ∧ j.mnemonic = i.mnemonic :=
  ⟨i, decode_eq_ok_iff.mpr ⟨(eq_of_and_allOnes h).symm, hwf⟩, rfl⟩

theorem exists_instr_of_row {w : Word} {r : TableRow} (hr : r ∈ opcodeTable)
    (h : r.holds w = true) : ∃ i, decode w = .ok i ∧ i.mnemonic = r.mnemonic := by
  obtain ⟨hmask, himm⟩ := tableRow_holds_iff.mp h
  clear h
  simp only [opcodeTable, List.mem_cons, List.not_mem_nil, or_false] at hr
  obtain rfl | rfl | rfl | rfl | rfl | rfl | rfl | rfl | rfl | rfl | rfl | rfl | rfl | rfl | rfl := hr
  · exact plainRow_decodes (i := .frmFeed) hmask rfl
  · exact plainRow_decodes (i := .frmFrame) hmask rfl
  · exact plainRow_decodes (i := .rtpParse) hmask rfl
  · exact plainRow_decodes (i := .rtpSerialize) hmask rfl
  · obtain ⟨interval, rfl⟩ := (immMask_iff (opc := 0x20)).mp hmask
    exact ⟨_, decode_encode (i := .jbStart interval) rfl, rfl⟩
  · exact plainRow_decodes (i := .jbStop) hmask rfl
  · exact plainRow_decodes (i := .jbAdd) hmask rfl
  · exact plainRow_decodes (i := .jbTick) hmask rfl
  · obtain ⟨sample, rfl⟩ := (immMask_iff (opc := 0x30)).mp hmask
    exact ⟨_, decode_encode (i := .ulawEnc sample) rfl, rfl⟩
  · obtain ⟨u, rfl⟩ := (ulawDecMask_iff (opc := 0x31)).mp hmask
    exact ⟨_, decode_encode (i := .ulawDec u) rfl, rfl⟩
  · obtain ⟨width, ch, rfl⟩ := (streamMask_iff (opc := 0x32)).mp hmask
    exact ⟨_, decode_encode (i := .ulawEncStream width ch) rfl, rfl⟩
  · obtain ⟨width, ch, rfl⟩ := (streamMask_iff (opc := 0x33)).mp hmask
    exact ⟨_, decode_encode (i := .ulawDecStream width ch) rfl, rfl⟩
  · obtain ⟨width, rfl⟩ := (mixMask_iff (opc := 0x40)).mp hmask
    exact ⟨_, decode_encode (i := .mix width) rfl, rfl⟩
  · exact plainRow_decodes (i := .sub16) hmask rfl
  · obtain ⟨n, rfl⟩ := (immMask_iff (opc := 0xF0)).mp hmask
    rw [fieldImm_packWord] at himm
    exact ⟨_, decode_encode (i := .rdReg n) (decide_eq_true himm), rfl⟩

/-- Settles O3: each command's word matches its row, and a word that matches a row is the encoded word
of a command of the row. -/
theorem decodeFollowsMatchAndMask : Obligations.DecodeFollowsMatchAndMask := by
  intro w name
  constructor
  · rintro ⟨i, hd, rfl⟩
    exact exists_row_of_decode hd
  · rintro ⟨r, hr, rfl, hw⟩
    exact exists_instr_of_row hr hw

/-! ### No word matches two rows (R107) -/

theorem fieldOpc_of_mask {w : Word} {r : TableRow} (hr : r ∈ opcodeTable)
    (h : w &&& r.mask = r.pattern) : fieldOpc w = fieldOpc r.pattern := by
  have hmask : ∀ r ∈ opcodeTable, fieldOpc r.mask = BitVec.allOnes 8 := by decide
  rw [← h, fieldOpc_and, hmask r hr, BitVec.and_allOnes]

theorem row_unique {w : Word} {r r' : TableRow} (hr : r ∈ opcodeTable) (hr' : r' ∈ opcodeTable)
    (h : w &&& r.mask = r.pattern) (h' : w &&& r'.mask = r'.pattern) : r' = r := by
  have hinj : ∀ r ∈ opcodeTable, ∀ r' ∈ opcodeTable,
      fieldOpc r.pattern = fieldOpc r'.pattern → r' = r := by decide
  exact hinj r hr r' hr' ((fieldOpc_of_mask hr h).symm.trans (fieldOpc_of_mask hr' h'))

theorem exec_wrongShape {i : Instr} {s : State} (h : shapeOk (shapeOf i) s.operands = false) :
    exec i s = .next (s.refuse .illegalCommand) := by
  rw [exec_eq_checked, checked, if_pos h]

/-- Settles O4: a word that decodes has a row by R106, and only one since the rows' opcodes differ; a
word that does not decode has none. -/
theorem decodingIsTotalAndUnambiguous : Obligations.DecodingIsTotalAndUnambiguous := by
  refine ⟨fun w => ?_, fun w r hr r' hr' => row_unique hr hr', fun i s => exec_wrongShape⟩
  cases hd : decode w with
  | ok i =>
    obtain ⟨r, hr, hname, hw⟩ := exists_row_of_decode hd
    refine .inl ⟨r, hr, hw, fun r' hr' hw' => ?_, i, rfl, hname.symm⟩
    exact row_unique hr hr' (tableRow_holds_iff.mp hw).1 (tableRow_holds_iff.mp hw').1
  | error e =>
    refine .inr ⟨fun r hr => Bool.eq_false_iff.mpr fun hw => ?_, e, rfl⟩
    obtain ⟨i, hi, -⟩ := exists_instr_of_row hr hw
    rw [hd] at hi
    cases hi

/-! ## Sample words and aliases (R106, R134) -/

/-- Settles O5: each word's four fields, read off, are a row of R106, and 6 is no register. -/
theorem sampleWordsDecode : Obligations.SampleWordsDecode := by
  unfold Obligations.SampleWordsDecode
  decide

/-- Settles O6: the entries of the mnemonic table and the words of the two mnemonics with an optional
or a width operand, looked up. -/
theorem aliasesExpand : Obligations.AliasesExpand := by
  refine ⟨?_, ⟨_, rfl, rfl⟩, _, rfl, rfl, rfl⟩
  simp only [List.forall_mem_cons, List.not_mem_nil, false_imp_iff, implies_true, and_true]
  refine ⟨?_, ?_, ?_, ?_, ?_, ?_, ?_, ?_, ?_, ?_, ?_, ?_, ?_⟩
  all_goals exact ⟨_, rfl, rfl⟩

/-! ## A pending word that is no command (R128) -/

theorem step_of_choosePort {s : State} {p : Port} {c : Command} {rest : List Command}
    (hlegal : legalParams s.params = true) (hreset : s.resetPending = false)
    (hp : choosePort s = some p) (hq : s.portQueue p = c :: rest) :
    step s = runCommand c (s.takeCommand p c rest) := by
  simp [step, stepBlock, serve, hlegal, hreset, hp, hq]

theorem runCommand_of_error {c : Command} {e : DecodeError} (hd : decode c.word = .error e)
    (s : State) : runCommand c s = .next (s.refuse .illegalCommand) := by
  rw [runCommand, hd, refuseIllegalWord]

/-- Settles O9: taking the command changes its port and the history, and the refusal adds its
response. -/
theorem illegalWordIsRefused : Obligations.IllegalWordIsRefused := by
  intro s p c rest e hlegal hreset hp hq hd
  have hstep : step s = .next ((s.takeCommand p c rest).refuse .illegalCommand) :=
    (step_of_choosePort hlegal hreset hp hq).trans (runCommand_of_error hd _)
  refine ⟨_, hstep, ?_, ⟨?_, ?_, ?_, ?_, ?_, ?_⟩, ?_, ?_, ?_, ?_⟩
  all_goals simp [SameFrm, hreset]

/-! ## The byte ULAW_ENC answers (R260 to R264) -/

/-- g is the segment and k the mantissa of a biased magnitude m: the leading 1 of m is its bit g + 5,
and k is the four bits below it (R263, R264). -/
structure IsSegMant (m g k : Nat) : Prop where
  seg_lt : g < 8
  mant_lt : k < 16
  low : 2 ^ (g + 5) ≤ m
  high : m < 2 ^ (g + 6)
  mant : m / 2 ^ (g + 1) = 16 + k

theorem ulawSegment_spec {m : Nat} (hlo : 32 ≤ m) (hhi : m ≤ 8191) :
    ulawSegment m < 8 ∧ 2 ^ (ulawSegment m + 5) ≤ m ∧ m < 2 ^ (ulawSegment m + 6) := by
  simp only [ulawSegment, segEnd, List.findIdx_cons, List.findIdx_nil, Bool.cond_decide]
  split_ifs <;> omega

/-- The quotient by 2^(g + 1) keeps five bits, the leading 1 and the mantissa. -/
theorem isSegMant_of_le {m : Nat} (hlo : 32 ≤ m) (hhi : m ≤ 8191) :
    IsSegMant m (ulawSegment m) (m / 2 ^ (ulawSegment m + 1) % 16) := by
  obtain ⟨hseg, hl, hh⟩ := ulawSegment_spec hlo hhi
  refine ⟨hseg, Nat.mod_lt _ (by decide), hl, hh, ?_⟩
  have h1 : 16 ≤ m / 2 ^ (ulawSegment m + 1) := by
    rw [Nat.le_div_iff_mul_le (by positivity)]
    calc 16 * 2 ^ (ulawSegment m + 1) = 2 ^ (ulawSegment m + 5) := by ring
      _ ≤ m := hl
  have h2 : m / 2 ^ (ulawSegment m + 1) < 32 := by
    rw [Nat.div_lt_iff_lt_mul (by positivity)]
    calc m < 2 ^ (ulawSegment m + 6) := hh
      _ = 32 * 2 ^ (ulawSegment m + 1) := by ring
  omega

theorem ulawPack_of_le {m : Nat} (hlo : 32 ≤ m) (hhi : m ≤ 8191) :
    ulawPack m = 16 * ulawSegment m + m / 2 ^ (ulawSegment m + 1) % 16 := by
  obtain ⟨hseg, -, -⟩ := ulawSegment_spec hlo hhi
  have hmask : ∀ n : Nat, n &&& 0xF = n % 16 := fun n => Nat.and_two_pow_sub_one_eq_mod n 4
  rw [ulawPack, if_neg hseg.ne, hmask, Nat.shiftRight_eq_div_pow,
    ← Nat.shiftLeft_add_eq_or_of_lt (Nat.mod_lt _ (by decide)), Nat.shiftLeft_eq, Nat.mul_comm]

/-- 8192, the one magnitude above every segment, is packed as 8191 is (R264). -/
theorem ulawPack_spec {m : Nat} (hlo : 32 ≤ m) (hhi : m ≤ 8192) :
    ∃ g k, ulawPack m = 16 * g + k ∧ IsSegMant (min m 8191) g k := by
  obtain hm | rfl : m ≤ 8191 ∨ m = 8192 := by omega
  · rw [min_eq_left hm]
    exact ⟨_, _, ulawPack_of_le hlo hm, isSegMant_of_le hlo hm⟩
  · exact ⟨7, 15, rfl, by decide, by decide, by decide, by decide, by decide⟩

theorem ulawMagnitude_bounds (v : Int) : 33 ≤ ulawMagnitude v ∧ ulawMagnitude v ≤ 8192 := by
  simp only [ulawMagnitude, ulawClip, ulawBias]
  omega

/-- The sign mask inverts the seven bits of the packed byte (R261, R264). -/
theorem xor_ulawMask {n : Nat} (h : n < 128) (v : Int) :
    n ^^^ ulawMask v = ulawMask v - n := by
  have h7 : ∀ n < 128, n ^^^ 0x7F = 0x7F - n := by decide
  have h8 : ∀ n < 128, n ^^^ 0xFF = 0xFF - n := by decide
  unfold ulawMask
  split
  · exact h7 n h
  · exact h8 n h

theorem ulawEncode_spec (x : Int) :
    ∃ g k, (ulawEncode x).toNat = ulawMask (asr x 2) - (16 * g + k) ∧
      IsSegMant (min (ulawMagnitude (asr x 2)) 8191) g k := by
  obtain ⟨hlo, hhi⟩ := ulawMagnitude_bounds (asr x 2)
  obtain ⟨g, k, hpack, hcode⟩ := ulawPack_spec (by omega : 32 ≤ _) hhi
  refine ⟨g, k, ?_, hcode⟩
  obtain ⟨hg, hk, -⟩ := hcode
  rw [ulawEncode, hpack, xor_ulawMask (by omega), BitVec.toNat_ofNat]
  refine Nat.mod_eq_of_lt ?_
  unfold ulawMask
  split <;> omega

theorem exec_ulawEnc {s : State} (x : BitVec 16) (hops : s.operands = []) :
    exec (.ulawEnc x) s = .next (s.respond (Response.ofValue ((ulawEncode x.toInt).setWidth 32))) :=
  exec_runs _ s (by rw [hops]; rfl) (by rw [hops]; rfl)

/-- Settles O45: the packed byte holds segment and mantissa of the magnitude, the mask inverts them and
sets bit 7 for a sample that is not negative. -/
theorem encodedByteHasSignSegmentMantissa : Obligations.EncodedByteHasSignSegmentMantissa := by
  intro x s hops
  refine ⟨ulawEncode x.toInt, exec_ulawEnc x hops, ?_⟩
  obtain ⟨g, k, hu, hseg, hmant, hlow, hhigh, hdiv⟩ := ulawEncode_spec x.toInt
  have hshift : asr x.toInt 2 = x.toInt / 4 := rfl
  have hmag : ulawMagnitude (asr x.toInt 2) = min (x.toInt / 4).natAbs 8159 + 33 := rfl
  have hsign : ulawMask (asr x.toInt 2) = if x.toInt < 0 then 127 else 255 := by
    rw [ulawMask, hshift]
    split_ifs <;> omega
  have hg : 7 - (ulawEncode x.toInt).toNat / 16 % 8 = g := by
    rw [hu, hsign]; split <;> omega
  have hk : 15 - (ulawEncode x.toInt).toNat % 16 = k := by
    rw [hu, hsign]; split <;> omega
  simp only [hg, hk]
  rw [hmag] at hlow hhigh hdiv
  refine ⟨?_, hlow, hhigh, hdiv⟩
  rw [hu, hsign]
  split <;> omega

end Sys2Proof.Machine
end

section
/-! 40_framer.md: what FRM_FEED emits, keeps and faults on (R151 to R158), the account of the stream
that every step keeps and no chunking changes (R159, R162), and the frame FRM_FRAME answers (R160,
R161). -/
namespace Sys2Proof.Machine

/-! ## The state FRM_FEED leaves (R150) -/

/-- The state after an FRM_FEED that leaves these bytes in FRM.acc and puts these events on the
channel. -/
def State.afterFeed (s : State) (acc : Bytes) (events : List Event) : State :=
  { s with
    frmAcc := acc
    operands := []
    history := s.history ++ events.map .event ++ [.response (Response.ofStatus .ok)] }

@[simp] theorem State.afterFeed_frmAcc (s : State) (acc : Bytes) (events : List Event) :
    (s.afterFeed acc events).frmAcc = acc := rfl

theorem answered_afterFeed (s : State) (acc : Bytes) (events : List Event) :
    Answered s (s.afterFeed acc events) events (Response.ofStatus .ok) := ⟨rfl, rfl⟩

@[simp] theorem State.channel_afterFeed (s : State) (acc : Bytes) (events : List Event) :
    (s.afterFeed acc events).channel = s.channel ++ events :=
  (answered_afterFeed s acc events).channel

theorem State.complete_eq_afterFeed (s : State) : s.complete = s.afterFeed s.frmAcc [] := by
  simp [State.complete, State.respond, State.afterFeed]

theorem State.raiseFrameFault_eq_afterFeed (s : State) (f : FrameFault) :
    s.raiseFrameFault f = s.afterFeed [] [.fault f] := rfl

theorem afterMessages_complete (s : State) (ms : List Bytes) (rest : Bytes) :
    (afterMessages s ms rest).complete = s.afterFeed rest (ms.map .msg) := by
  simp [afterMessages, State.complete, State.respond, State.afterFeed]

theorem afterMessages_raiseFrameFault (s : State) (ms : List Bytes) (rest : Bytes)
    (f : FrameFault) :
    (afterMessages s ms rest).raiseFrameFault f = s.afterFeed [] (ms.map .msg ++ [.fault f]) := by
  simp [State.raiseFrameFault_eq_afterFeed, afterMessages, State.afterFeed]

/-- Bytes that start with no complete frame: a partial length, or a partial frame (R153). -/
def IncompleteFrame (r : Bytes) : Prop := r.length < 4 ∨ (r.length : Int) < sle32 r 0 + 4

/-! ## What FRM_FEED can do (R151 to R155) -/

/-- A feed overflows, meets a first length above 10000, emits whole frames and keeps an incomplete
one, or emits whole frames and meets a negative length. -/
theorem frmFeed_cases (chunk : Bytes) (s : State) :
    (10000 < (s.frmAcc ++ chunk).length ∧
      frmFeed chunk s = s.afterFeed [] [.fault .bufOverflow]) ∨
    ((s.frmAcc ++ chunk).length ≤ 10000 ∧ 4 ≤ (s.frmAcc ++ chunk).length ∧
      10000 < sle32 (s.frmAcc ++ chunk) 0 ∧
      frmFeed chunk s = s.afterFeed [] [.fault .lenTooBig]) ∨
    ((s.frmAcc ++ chunk).length ≤ 10000 ∧
      ((s.frmAcc ++ chunk).length < 4 ∨ sle32 (s.frmAcc ++ chunk) 0 ≤ 10000) ∧
      ∃ (ms : List Bytes) (rest : Bytes), s.frmAcc ++ chunk = ms.flatMap frameOf ++ rest ∧
        IncompleteFrame rest ∧ frmFeed chunk s = s.afterFeed rest (ms.map .msg)) ∨
    ((s.frmAcc ++ chunk).length ≤ 10000 ∧ sle32 (s.frmAcc ++ chunk) 0 ≤ 10000 ∧
      ∃ (ms : List Bytes) (rest : Bytes), s.frmAcc ++ chunk = ms.flatMap frameOf ++ rest ∧
        4 ≤ rest.length ∧ sle32 rest 0 < 0 ∧
        frmFeed chunk s = s.afterFeed [] (ms.map .msg ++ [.fault .negLength])) := by
  unfold frmFeed
  obtain ⟨hlong, h⟩ | ⟨hcap, hshort, h⟩ | ⟨hcap, hfour, hbig, h⟩ | ⟨hcap, hfour, hlen, h⟩ :=
    frmParse_cases { s with frmAcc := s.frmAcc ++ chunk }
  all_goals rw [h]
  · exact .inl ⟨hlong, State.raiseFrameFault_eq_afterFeed _ _⟩
  · exact .inr (.inr (.inl ⟨hcap, .inl hshort, [], _, rfl, .inl hshort,
      State.complete_eq_afterFeed _⟩))
  · exact .inr (.inl ⟨hcap, hfour, hbig, State.raiseFrameFault_eq_afterFeed _ _⟩)
  · obtain ⟨ms, rest, hsplit, ⟨hrest, h⟩ | ⟨hrest, hneg, h⟩⟩ := frmLoop_cases _ _ _ hfour rfl le_rfl
    all_goals rw [h]
    · exact .inr (.inr (.inl ⟨hcap, .inr hlen, ms, rest, hsplit, hrest,
        afterMessages_complete _ _ _⟩))
    · exact .inr (.inr (.inr ⟨hcap, hlen, ms, rest, hsplit, hrest, hneg,
        afterMessages_raiseFrameFault _ _ _ _⟩))

theorem frmFeed_of_overflow {chunk : Bytes} {s : State}
    (h : 10000 < (s.frmAcc ++ chunk).length) :
    frmFeed chunk s = s.afterFeed [] [.fault .bufOverflow] := by
  obtain ⟨-, hx⟩ | ⟨hcap, -⟩ | ⟨hcap, -⟩ | ⟨hcap, -⟩ := frmFeed_cases chunk s
  · exact hx
  all_goals omega

theorem sle32_append {S : Bytes} (h : 4 ≤ S.length) (T : Bytes) : sle32 (S ++ T) 0 = sle32 S 0 := by
  have hbyte : ∀ k < 4, byteAt (S ++ T) k = byteAt S k := fun k hk =>
    byteAt_append_left (by omega) T
  simp only [sle32, le32, hbyte 0 (by omega), hbyte (0 + 1) (by omega), hbyte (0 + 2) (by omega),
    hbyte (0 + 3) (by omega)]

/-- The first length of whole frames and a rest is the first frame's, or the rest's. -/
theorem sle32_frames_le {ms : List Bytes} {rest : Bytes} {b : Nat}
    (hb : (ms.flatMap frameOf ++ rest).length ≤ b) (hb31 : b < 2 ^ 31)
    (hrest : ms = [] → sle32 rest 0 ≤ b) : sle32 (ms.flatMap frameOf ++ rest) 0 ≤ b := by
  cases ms with
  | nil => simpa using hrest rfl
  | cons m ms =>
    have hm := message_length_le (ms := m :: ms) (r := rest) (m := m) (by simp)
    rw [List.flatMap_cons, List.append_assoc, sle32_frameOf (by omega)]
    omega

/-- Bytes as short as FRM.acc parse into frames and a rest in one way only. -/
theorem frames_unique_of_cap {S : Bytes} {ms ns : List Bytes} {r q : Bytes}
    (hcap : S.length ≤ 10000) (hr : NoFrameAtFront r) (hq : NoFrameAtFront q)
    (hms : S = ms.flatMap frameOf ++ r) (hns : S = ns.flatMap frameOf ++ q) : ms = ns ∧ r = q := by
  refine frames_unique ms ns r q (fun m hm => ?_) (fun n hn => ?_) hr hq (hms.symm.trans hns)
  · have := message_length_le (r := r) hm
    rw [← hms] at this
    omega
  · have := message_length_le (r := q) hn
    rw [← hns] at this
    omega

section Frames

variable {chunk rest : Bytes} {ms : List Bytes} {s : State}
  (hcap : (s.frmAcc ++ chunk).length ≤ 10000)
  (hsplit : s.frmAcc ++ chunk = ms.flatMap frameOf ++ rest)
include hcap hsplit

/-- Whole frames and an incomplete one: the frames are emitted and the rest is kept (R153). The
length of a rest that is not read first is not compared with 10000 (R155). -/
theorem frmFeed_of_incomplete (hrest : IncompleteFrame rest)
    (hfirst : ms = [] → rest.length < 4 ∨ sle32 rest 0 ≤ 10000) :
    frmFeed chunk s = s.afterFeed rest (ms.map .msg) := by
  obtain ⟨hlong, -⟩ | ⟨-, hfour, hbig, -⟩ | ⟨-, -, ns, q, hns, hq, h⟩ |
    ⟨-, -, ns, q, hns, hq, hneg, -⟩ := frmFeed_cases chunk s
  · omega
  · rw [hsplit] at hcap hfour hbig
    have := sle32_frames_le hcap (by norm_num) fun hnil => by
      have := hfirst hnil
      simp only [hnil, List.flatMap_nil, List.nil_append] at hfour
      omega
    omega
  · obtain ⟨rfl, rfl⟩ := frames_unique_of_cap hcap (.inl hq) (.inl hrest) hns hsplit
    exact h
  · obtain ⟨rfl, rfl⟩ := frames_unique_of_cap hcap (.inr ⟨hq, hneg⟩) (.inl hrest) hns hsplit
    exfalso
    obtain hrest | hrest := hrest
    all_goals omega

/-- Whole frames and a negative length: the frames are emitted and then the fault is raised (R154,
R156). -/
theorem frmFeed_of_negative (hfour : 4 ≤ rest.length) (hneg : sle32 rest 0 < 0) :
    frmFeed chunk s = s.afterFeed [] (ms.map .msg ++ [.fault .negLength]) := by
  obtain ⟨hlong, -⟩ | ⟨-, -, hbig, -⟩ | ⟨-, -, ns, q, hns, hq, -⟩ |
    ⟨-, -, ns, q, hns, hq, hnegq, h⟩ := frmFeed_cases chunk s
  · omega
  · rw [hsplit] at hcap hbig
    have := sle32_frames_le hcap (by norm_num) fun _ => by omega
    omega
  · obtain ⟨rfl, rfl⟩ := frames_unique_of_cap hcap (.inl hq) (.inr ⟨hfour, hneg⟩) hns hsplit
    exfalso
    obtain hq | hq := hq
    all_goals omega
  · obtain ⟨rfl, -⟩ := frames_unique_of_cap hcap (.inr ⟨hq, hnegq⟩) (.inr ⟨hfour, hneg⟩) hns hsplit
    exact h

end Frames

/-- A first length above 10000, in bytes that do not overflow, clears FRM.acc (R152). -/
theorem frmFeed_of_lenTooBig {chunk : Bytes} {s : State}
    (hcap : (s.frmAcc ++ chunk).length ≤ 10000) (hfour : 4 ≤ (s.frmAcc ++ chunk).length)
    (hbig : 10000 < sle32 (s.frmAcc ++ chunk) 0) :
    frmFeed chunk s = s.afterFeed [] [.fault .lenTooBig] := by
  obtain ⟨hlong, -⟩ | ⟨-, -, -, h⟩ | ⟨-, hshort | hlen, -⟩ | ⟨-, hlen, -⟩ := frmFeed_cases chunk s
  · omega
  · exact h
  all_goals omega

/-! ## FRM_FEED as a command (R150, R322) -/

theorem exec_frmFeed {s : State} {chunk : Bytes} (hops : s.operands = [.bytes chunk])
    (hsize : chunk.length ≤ s.params.maxOperandBytes) :
    exec .frmFeed s = .next (frmFeed chunk s) := by
  have hrun := exec_runs .frmFeed s (by rw [hops]; rfl) (by rw [hops]; exact sizeOk_bytes hsize)
  rwa [ruleOf, hops] at hrun

/-- Settles O22: the overflow is the first case of a feed, and the others raise another fault or
none. -/
theorem feedOverflowClears : Obligations.FeedOverflowClears := by
  intro s chunk hops hsize
  rw [exec_frmFeed hops hsize, ← List.length_append]
  refine ⟨fun hlong => ?_, fun hcap => ?_⟩
  · rw [frmFeed_of_overflow hlong]
    simp [State.afterFeed]
  · obtain ⟨hlong, -⟩ | ⟨-, -, -, h⟩ | ⟨-, -, ms, rest, -, -, h⟩ | ⟨-, -, ms, rest, -, -, -, h⟩ :=
      frmFeed_cases chunk s
    · omega
    all_goals
      rw [h]
      exact ⟨_, _, rfl, answered_afterFeed _ _ _, by simp⟩

/-- Settles O23: below 4 bytes there is no frame to emit; from 4 on the first length decides. -/
theorem feedReadsTheFirstLength : Obligations.FeedReadsTheFirstLength := by
  intro s chunk hops hsize hcap
  rw [exec_frmFeed hops hsize]
  refine ⟨fun hshort => ?_, fun hfour hbig => ?_, fun hfour hlen => ?_⟩
  · rw [frmFeed_of_incomplete (ms := []) hcap rfl (.inl hshort) fun _ => .inl hshort]
    simp [State.afterFeed]
  · rw [frmFeed_of_lenTooBig hcap hfour hbig]
    simp [State.afterFeed]
  · obtain ⟨hlong, -⟩ | ⟨-, -, hbig, -⟩ | ⟨-, -, ms, rest, -, -, h⟩ |
      ⟨-, -, ms, rest, -, -, -, h⟩ := frmFeed_cases chunk s
    · omega
    · omega
    all_goals
      rw [h]
      exact ⟨_, _, rfl, answered_afterFeed _ _ _, by simp⟩

/-- Settles O24: a rest that starts with no complete frame is incomplete, and its length is within
the cap when it is the first one read. -/
theorem feedEmitsEveryCompleteFrame : Obligations.FeedEmitsEveryCompleteFrame := by
  intro s chunk rest msgs hops hsize hcap hsplit hrest
  have hincomplete : IncompleteFrame rest := hrest.imp_right And.left
  have hfirst : msgs = [] → rest.length < 4 ∨ sle32 rest 0 ≤ 10000 := fun hnil =>
    hrest.imp_right fun h => h.2 hnil
  rw [exec_frmFeed hops hsize, frmFeed_of_incomplete hcap hsplit hincomplete hfirst]
  simp [State.afterFeed]

/-- Settles O25: a rest that starts with a negative length has no frame at its front, so the feed
reaches it. -/
theorem feedNegativeLengthFaults : Obligations.FeedNegativeLengthFaults := by
  intro s chunk rest msgs hops hsize hcap hsplit hfour hneg
  rw [exec_frmFeed hops hsize, frmFeed_of_negative hcap hsplit hfour hneg]
  simp [State.afterFeed]

/-- Settles O27: what a feed leaves in FRM.acc and on the channel, and that it writes
nothing else. -/
theorem feedEventsAndCap : Obligations.FeedEventsAndCap := by
  intro s chunk hops hsize
  obtain ⟨ms, rest, f, hms, hrest, hf, -, h⟩ := frmFeed_result chunk s
  rw [exec_frmFeed hops hsize, h]
  exact ⟨_, ms, f, rfl, ⟨rfl, rfl⟩, hf, hrest, hms, ⟨rfl, rfl, rfl, rfl, rfl, rfl⟩,
    ⟨rfl, rfl, rfl, rfl, rfl, rfl⟩⟩

theorem execAll_single {i : Instr} {ops : List Operand} {s t : State}
    (h : exec i { s with operands := ops } = .next t) : execAll [(i, ops)] s = .next t := by
  simp only [execAll, h]

/-- A length above 10000 at the front of FRM.acc is cleared by the next feed, whatever it brings
(R151, R152, R155). -/
theorem exec_frmFeed_after_big_length {s : State} {next : Bytes}
    (hsize : next.length ≤ s.params.maxOperandBytes) (hfour : 4 ≤ s.frmAcc.length)
    (hbig : 10000 < sle32 s.frmAcc 0) :
    exec .frmFeed { s with operands := [.bytes next] } = .next (s.afterFeed []
      [.fault (if 10000 < s.frmAcc.length + next.length then .bufOverflow else .lenTooBig)]) := by
  have hlen : (s.frmAcc ++ next).length = s.frmAcc.length + next.length := List.length_append
  refine Eq.trans (exec_frmFeed rfl hsize) (congrArg Host.Outcome.next ?_)
  split
  · exact frmFeed_of_overflow (by simp only; omega)
  · exact frmFeed_of_lenTooBig (by simp only; omega) (by simp only; omega)
      (by rwa [sle32_append hfour])

/-- Settles O26: the rest is too short for its length, so it is an incomplete frame to the first
feed, and its length is the first one the next feed reads. -/
theorem rereadLengthIsCaughtNextFeed : Obligations.RereadLengthIsCaughtNextFeed := by
  intro s chunk next rest m msgs hchunk hnext hcap hsplit hfour hbig
  have hrest : rest.length ≤ 10000 := by
    rw [hsplit, List.length_append] at hcap
    omega
  have hfeed : exec .frmFeed { s with operands := [.bytes chunk] } =
      .next (s.afterFeed rest ((m :: msgs).map .msg)) :=
    Eq.trans (exec_frmFeed rfl hchunk) (congrArg Host.Outcome.next
      (frmFeed_of_incomplete hcap hsplit (.inr (by omega)) (by simp)))
  have hfeed' := exec_frmFeed_after_big_length
    (s := s.afterFeed rest ((m :: msgs).map .msg)) hnext hfour hbig
  refine ⟨⟨_, execAll_single hfeed, rfl, ?_, ?_⟩, ⟨_, execAll_pair hfeed hfeed', rfl, ?_, ?_⟩⟩
  all_goals simp [messagesOf, faultsOf]

/-! ## What a run of the framer did to the stream (R153, R159) -/

/-- From s to t the framer was fed the stream, emitted these messages and raised these faults: what
it emitted and what it keeps is what it was fed, unless a fault was raised. -/
structure FramerRun (s t : State) (stream : Bytes) (ms : List Bytes) (fs : List FrameFault) :
    Prop where
  params : t.params = s.params
  messages : messagesOf t.channel = messagesOf s.channel ++ ms
  faults : faultsOf t.channel = faultsOf s.channel ++ fs
  cap : ∀ m ∈ ms, m.length ≤ 9996
  account : fs = [] → s.frmAcc ++ stream = ms.flatMap frameOf ++ t.frmAcc
  incomplete : fs = [] → IncompleteFrame s.frmAcc → IncompleteFrame t.frmAcc

/-- A command that leaves FRM.acc and emits neither message nor fault. -/
theorem FramerRun.of_answered {s t : State} {events : List Event} {r : Response}
    (hparams : t.params = s.params) (hfrm : SameFrm s t) (ha : Answered s t events r)
    (hmsg : messagesOf events = []) (hfault : faultsOf events = []) : FramerRun s t [] [] [] where
  params := hparams
  messages := by rw [ha.channel, messagesOf_append, hmsg]
  faults := by rw [ha.channel, faultsOf_append, hfault]
  cap := by simp
  account := fun _ => by
    rw [hfrm]
    simp
  incomplete := fun _ h => by rwa [hfrm]

theorem FramerRun.trans {s t u : State} {a b : Bytes} {ms ns : List Bytes} {fs gs : List FrameFault}
    (hst : FramerRun s t a ms fs) (htu : FramerRun t u b ns gs) :
    FramerRun s u (a ++ b) (ms ++ ns) (fs ++ gs) where
  params := htu.params.trans hst.params
  messages := by rw [htu.messages, hst.messages, List.append_assoc]
  faults := by rw [htu.faults, hst.faults, List.append_assoc]
  cap := fun m hm => (List.mem_append.mp hm).elim (hst.cap m) (htu.cap m)
  account := fun h => by
    obtain ⟨hfs, hgs⟩ := List.append_eq_nil_iff.mp h
    rw [← List.append_assoc, hst.account hfs, List.append_assoc, htu.account hgs,
      List.flatMap_append, List.append_assoc]
  incomplete := fun h hs => by
    obtain ⟨hfs, hgs⟩ := List.append_eq_nil_iff.mp h
    exact htu.incomplete hgs (hst.incomplete hfs hs)

@[simp] theorem messagesOf_faults (fs : List FrameFault) : messagesOf (fs.map .fault) = [] := by
  induction fs with
  | nil => rfl
  | cons f fs ih => simpa [messagesOf] using ih

@[simp] theorem faultsOf_faults (fs : List FrameFault) : faultsOf (fs.map .fault) = fs := by
  induction fs with
  | nil => rfl
  | cons f fs ih => simpa [faultsOf] using ih

theorem frmFeed_framerRun (chunk : Bytes) (s : State) :
    ∃ msgs faults, FramerRun s (frmFeed chunk s) chunk msgs faults := by
  obtain ⟨ms, rest, f, hcap, -, -, haccount, h⟩ := frmFeed_result chunk s
  have hfeed : frmFeed chunk s = s.afterFeed rest (ms.map .msg ++ f.toList.map .fault) := h
  rw [hfeed]
  have hnone : f.toList = [] → f = none := Option.toList_eq_nil_iff.mp
  exact ⟨ms, f.toList, rfl, by simp, by simp, hcap, fun hf => (haccount (hnone hf)).1,
    fun hf _ => (haccount (hnone hf)).2⟩

/-! ## A stream fed in chunks (R159, R162) -/

theorem exec_frmFeed_framerRun {s : State} {chunk : Bytes}
    (hsize : chunk.length ≤ s.params.maxOperandBytes) :
    ∃ t msgs faults, exec .frmFeed { s with operands := [.bytes chunk] } = .next t ∧
      FramerRun s t chunk msgs faults := by
  obtain ⟨msgs, faults, h⟩ := frmFeed_framerRun chunk { s with operands := [.bytes chunk] }
  exact ⟨_, msgs, faults, exec_frmFeed rfl hsize, h.params, h.messages, h.faults, h.cap, h.account,
    h.incomplete⟩

theorem execAll_feeds_framerRun (cs : List Bytes) (s : State)
    (hsize : ∀ c ∈ cs, c.length ≤ s.params.maxOperandBytes) :
    ∃ t msgs faults, execAll (feeds cs) s = .next t ∧ FramerRun s t cs.flatten msgs faults := by
  induction cs generalizing s with
  | nil => exact ⟨s, [], [], rfl, rfl, by simp, by simp, by simp, by simp, fun _ h => h⟩
  | cons c cs ih =>
    obtain ⟨u, ms, fs, hu, hrun⟩ := exec_frmFeed_framerRun (hsize c List.mem_cons_self)
    obtain ⟨t, ns, gs, ht, hrun'⟩ := ih u fun d hd => by
      rw [hrun.params]
      exact hsize d (List.mem_cons_of_mem c hd)
    refine ⟨t, ms ++ ns, fs ++ gs, ?_, hrun.trans hrun'⟩
    simpa only [feeds, List.map_cons, execAll, hu] using ht

/-- A run without a fault from an empty FRM.acc emits the frames at the front of the stream and
keeps an incomplete rest. -/
theorem execAll_feeds_without_fault {cs : List Bytes} {s t : State} (hacc : s.frmAcc = [])
    (hsize : ∀ c ∈ cs, c.length ≤ s.params.maxOperandBytes)
    (ht : execAll (feeds cs) s = .next t) (hfault : faultsOf t.channel = faultsOf s.channel) :
    ∃ msgs, messagesOf t.channel = messagesOf s.channel ++ msgs ∧ (∀ m ∈ msgs, m.length ≤ 9996) ∧
      cs.flatten = msgs.flatMap frameOf ++ t.frmAcc ∧ IncompleteFrame t.frmAcc := by
  obtain ⟨t', msgs, faults, ht', hrun⟩ := execAll_feeds_framerRun cs s hsize
  cases ht'.symm.trans ht
  have hnil : faults = [] := List.append_right_eq_self.mp (hrun.faults.symm.trans hfault)
  refine ⟨msgs, hrun.messages, hrun.cap, ?_, hrun.incomplete hnil (by simp [hacc, IncompleteFrame])⟩
  simpa [hacc] using hrun.account hnil

/-- Settles O28: both chunkings parse the one stream into frames and an incomplete rest, and there
is one way to do so. -/
theorem chunkingDoesNotChangeMessages : Obligations.ChunkingDoesNotChangeMessages := by
  intro s t u cs ds hacc hcs hds hstream ht hu htf huf
  obtain ⟨ms, hms, hmcap, hmsplit, hmrest⟩ := execAll_feeds_without_fault hacc hcs ht htf
  obtain ⟨ns, hns, hncap, hnsplit, hnrest⟩ := execAll_feeds_without_fault hacc hds hu huf
  obtain ⟨rfl, hrest⟩ := frames_unique ms ns _ _ (fun m hm => (hmcap m hm).trans_lt (by norm_num))
    (fun n hn => (hncap n hn).trans_lt (by norm_num)) (.inl hmrest) (.inl hnrest)
    (hmsplit.symm.trans (hstream.trans hnsplit))
  exact ⟨hms.trans hns.symm, hrest, ms, hms, hmsplit, hmrest⟩

/-- Settles O31: no message is as long as the payload. -/
theorem oversizePayloadIsNeverDelivered : Obligations.OversizePayloadIsNeverDelivered := by
  intro s p cs _ hp hsize _
  obtain ⟨t, msgs, faults, ht, hrun⟩ := execAll_feeds_framerRun cs s hsize
  refine ⟨t, msgs, ht, hrun.messages, fun hmem => ?_⟩
  have := hrun.cap p hmem
  omega

/-! ## Every step keeps the account of the stream (R159) -/

/-- What a command feeds when its operands pass the checks (R150, R323). -/
def fedBy (p : Params) (i : Instr) (ops : List Operand) : Bytes :=
  if i = .frmFeed ∧ shapeOk .bytes ops = true ∧ sizeOk p ops = true then bytesArg ops else []

theorem fedBytes_append_taken {c : Command} {i : Instr} (hd : decode c.word = .ok i) (p : Params)
    (h : List Obs) (port : Port) :
    fedBytes p (h ++ [.taken port c]) = fedBytes p h ++ fedBy p i c.operands := by
  rw [fedBytes_append, fedBy]
  simp only [Command.isInstr_of_decode hd, Bool.and_eq_true, decide_eq_true_eq, and_assoc]
  split <;> simp

theorem fedBytes_append_illegal {c : Command} {e : DecodeError} (hd : decode c.word = .error e)
    (p : Params) (h : List Obs) (port : Port) :
    fedBytes p (h ++ [.taken port c]) = fedBytes p h := by
  rw [fedBytes_append]
  simp [Command.isInstr_of_error hd]

@[simp] theorem fedBytes_append_event (p : Params) (h : List Obs) (e : Event) :
    fedBytes p (h ++ [.event e]) = fedBytes p h := fedBytes_append p h _

@[simp] theorem fedBytes_append_response (p : Params) (h : List Obs) (r : Response) :
    fedBytes p (h ++ [.response r]) = fedBytes p h := fedBytes_append p h _

theorem fedBytes_append_events (p : Params) (h : List Obs) (es : List Event) :
    fedBytes p (h ++ es.map .event) = fedBytes p h := by
  induction es generalizing h with
  | nil => simp
  | cons e es ih => rw [List.map_cons, List.append_cons, ih, fedBytes_append_event]

/-- A command's events and response feed nothing. -/
theorem fedBytes_answered {s t : State} {events : List Event} {r : Response}
    (h : Answered s t events r) (p : Params) : fedBytes p t.history = fedBytes p s.history := by
  rw [h.history, fedBytes_append_response, fedBytes_append_events]

theorem respond_framerRun (s : State) (r : Response) : FramerRun s (s.respond r) [] [] [] :=
  .of_answered rfl rfl (answered_respond s r) rfl rfl

/-- Every command but FRM_FEED leaves FRM.acc and emits neither message nor fault (R81). -/
theorem exec_framerRun_of_ne {i : Instr} {s t : State} (hi : i ≠ .frmFeed)
    (h : exec i s = .next t) : FramerRun s t [] [] [] := by
  have hparams := exec_params h
  cases exec_effect h with
  | answer r => exact respond_framerRun s r
  | feed => exact absurd rfl hi
  | tickEmit p => exact .of_answered (events := [.data p]) hparams rfl ⟨rfl, rfl⟩ rfl rfl
  | _ => exact .of_answered hparams rfl ((answered_respond _ _).after_write rfl) rfl rfl

/-- Every command runs the framer on what it feeds. -/
theorem exec_framerRun {i : Instr} {s t : State} (h : exec i s = .next t) :
    ∃ msgs faults, FramerRun s t (fedBy s.params i s.operands) msgs faults := by
  by_cases hi : i = .frmFeed
  · subst hi
    obtain ⟨hshape, hx⟩ | ⟨-, hsize, hx⟩ | ⟨hshape, hsize, hx⟩ := exec_cases .frmFeed s
    all_goals
      rw [hx] at h
      cases h
    · have hbytes : shapeOk .bytes s.operands = false := hshape
      rw [fedBy, if_neg (by simp [hbytes])]
      exact ⟨[], [], respond_framerRun s _⟩
    · rw [fedBy, if_neg (by simp [hsize])]
      exact ⟨[], [], respond_framerRun s _⟩
    · rw [fedBy, if_pos ⟨rfl, hshape, hsize⟩]
      exact frmFeed_framerRun _ s
  · rw [fedBy, if_neg (by simp [hi])]
    exact ⟨[], [], exec_framerRun_of_ne hi h⟩

theorem takeCommand_framerRun (s : State) (p : Port) (c : Command) (rest : List Command) :
    FramerRun s (s.takeCommand p c rest) [] [] [] :=
  ⟨by simp, by simp, by simp, by simp, by simp, by simp⟩

/-- A command taken keeps the account when its taking adds to the bytes fed what it runs the framer
on. -/
theorem FramerRun.streamAccounted {s t : State} {p : Port} {c : Command} {rest : List Command}
    {stream : Bytes} {ms : List Bytes} {fs : List FrameFault} {events : List Event} {r : Response}
    (hrun : FramerRun (s.takeCommand p c rest) t stream ms fs)
    (ha : Answered (s.takeCommand p c rest) t events r)
    (hfed : fedBytes s.params (s.history ++ [.taken p c]) = fedBytes s.params s.history ++ stream)
    (hs : StreamAccounted s) : StreamAccounted t := by
  intro hnone
  have h : FramerRun s t stream ms fs := (takeCommand_framerRun s p c rest).trans hrun
  obtain ⟨hnone, hfs⟩ := List.append_eq_nil_iff.mp (h.faults.symm.trans hnone)
  calc (messagesOf t.channel).flatMap frameOf ++ t.frmAcc
      = (messagesOf s.channel).flatMap frameOf ++ (s.frmAcc ++ stream) := by
        rw [h.messages, List.flatMap_append, List.append_assoc, h.account hfs]
    _ = fedBytes s.params s.history ++ stream := by rw [← List.append_assoc, hs hnone]
    _ = fedBytes t.params t.history := by
        rw [← hfed, h.params, fedBytes_answered ha, State.takeCommand_history]

theorem takeReset_streamAccounted (s : State) : StreamAccounted s.takeReset := fun _ => by
  rw [State.takeReset_history, fedBytes_append, State.channel_takeReset]
  rfl

/-- Settles O59: a reset empties both sides, a word that is no command feeds nothing, and a command
runs the framer on what its taking adds to the bytes fed. -/
theorem stepKeepsStreamAccount : Obligations.StepKeepsStreamAccount := by
  intro s t hs h
  obtain ⟨-, rfl | rfl | ⟨p, c, rest, ⟨e, hd⟩, rfl⟩ | ⟨p, c, rest, i, hd, hx⟩⟩ :=
    step_next_cases h
  · exact takeReset_streamAccounted s
  · exact hs
  · exact (respond_framerRun _ _).streamAccounted (answered_respond _ _)
      ((fedBytes_append_illegal hd _ _ p).trans (List.append_nil _).symm) hs
  · obtain ⟨ms, fs, hrun⟩ := exec_framerRun hx
    obtain ⟨events, r, ha⟩ := exec_answered hx
    rw [State.takeCommand_params, State.takeCommand_operands] at hrun
    exact hrun.streamAccounted ha (fedBytes_append_taken hd _ _ p) hs

/-! ## FRM_FRAME (R160, R161) -/

/-- An oversize payload is refused by the check of the operand as its frame is by the rule, so the
size of the frame alone decides. -/
theorem exec_frmFrame {s : State} {payload : Bytes} (hops : s.operands = [.bytes payload]) :
    exec .frmFrame s = .next (s.respond
      (if s.params.maxOperandBytes < payload.length + 4 then Response.ofStatus .operandLimit
       else Response.ofBytes (frameOf payload))) := by
  obtain ⟨hshape, -⟩ | ⟨-, hsize, h⟩ | ⟨-, -, h⟩ := exec_cases .frmFrame s
  · rw [hops] at hshape
    cases hshape
  · have hlong : s.params.maxOperandBytes < payload.length := by
      simpa [hops, sizeOk, operandFits] using hsize
    rw [h, if_pos (by omega), State.refuse]
  · rw [h, ruleOf, hops, bytesArg, frmFrame_eq_respond]

/-- Settles O29: below 2^31 bytes the first four bytes read back as the length. -/
theorem frameBuildsPrefixAndPayload : Obligations.FrameBuildsPrefixAndPayload := by
  intro s payload hlegal hops
  obtain ⟨-, -, -, hmax, -⟩ := (legalParams_iff s.params).mp hlegal
  rw [exec_frmFrame hops]
  refine ⟨fun hfits => ⟨frameOf payload, ?_, frameOf_length payload, ?_, ?_⟩, fun hlong => ?_⟩
  · rw [if_neg (by omega)]
    rfl
  · simpa using sle32_frameOf (m := payload) (by omega) []
  · simp [frameOf, putLe32]
  · rw [if_pos hlong]
    rfl

/-- Only a frame that fits is answered with bytes, and the bytes are the frame. -/
theorem frameOf_of_answered {s a : State} {p f : Bytes}
    (hexec : exec .frmFrame { s with operands := [.bytes p] } = .next a)
    (hanswer : a.history = s.history ++ [.response (Response.ofBytes f)]) :
    p.length + 4 ≤ s.params.maxOperandBytes ∧ f = frameOf p := by
  rw [exec_frmFrame rfl] at hexec
  cases hexec
  have hresponse := List.append_cancel_left hanswer
  split_ifs at hresponse
  · simp [Response.ofBytes, Response.ofStatus] at hresponse
  · next hfits =>
    have hbytes : frameOf p = f := by simpa [Response.ofBytes] using hresponse
    exact ⟨Nat.le_of_not_lt hfits, hbytes.symm⟩

/-- Settles O30: the frame is one whole frame with nothing after it, or overflows. -/
theorem feedOfFrameRoundTrip : Obligations.FeedOfFrameRoundTrip := by
  intro s p f a _ hacc hexec hanswer
  obtain ⟨hfits, rfl⟩ := frameOf_of_answered hexec hanswer
  have hlen := frameOf_length p
  rw [exec_frmFeed rfl (by simp only; omega)]
  split_ifs with hp
  · rw [frmFeed_of_incomplete (ms := [p]) (rest := []) (by simp [hacc]; omega) (by simp [hacc])
      (.inl (by simp)) (by simp)]
    simp [State.afterFeed]
  · rw [frmFeed_of_overflow (by simp [hacc]; omega)]
    simp [State.afterFeed]

end Sys2Proof.Machine
end

section
/-! 41_rtp.md: what RTP_PARSE reads (R181 to R189), what RTP_SERIALIZE writes (R190 to R193), and
what is left of a packet after both (R194, R195). -/
namespace Sys2Proof.Machine

/-! ## The two commands behind the checks (R180, R190, R322) -/

theorem exec_rtpParse {s : State} {b : Bytes} (hops : s.operands = [.bytes b]) :
    exec .rtpParse s = .next (s.respond
      (if s.params.maxOperandBytes < b.length then Response.ofStatus .operandLimit
       else rtpParse b)) := by
  obtain ⟨hshape, -⟩ | ⟨-, hsize, h⟩ | ⟨-, hsize, h⟩ := exec_cases .rtpParse s
  · rw [hops] at hshape
    cases hshape
  · have hlong : s.params.maxOperandBytes < b.length := by
      simpa [hops, sizeOk, operandFits] using hsize
    rw [h, if_pos hlong, State.refuse]
  · have hfits : b.length ≤ s.params.maxOperandBytes := by
      simpa [hops, sizeOk, operandFits] using hsize
    rw [h, if_neg (by omega), ruleOf, hops, bytesArg]

/-- A payload over the limit is refused by the check of the operand as the packet is by the rule, so
the size of the packet alone decides. -/
theorem exec_rtpSerialize {s : State} {p : Packet} (hops : s.operands = [.pkt p]) :
    exec .rtpSerialize s = .next (s.respond
      (if s.params.maxOperandBytes < 12 + p.payload.length then Response.ofStatus .operandLimit
       else Response.ofBytes (rtpBytes p))) := by
  obtain ⟨hshape, -⟩ | ⟨-, hsize, h⟩ | ⟨-, -, h⟩ := exec_cases .rtpSerialize s
  · rw [hops] at hshape
    cases hshape
  · have hlong : s.params.maxOperandBytes < p.payload.length := by
      simpa [hops, sizeOk, operandFits] using hsize
    rw [h, if_pos (by omega), State.refuse]
  · rw [h, ruleOf, hops, pktArg, rtpSerialize_eq_respond]

theorem exec_rtpSerialize_of_fits {s : State} {p : Packet} (hops : s.operands = [.pkt p])
    (hfits : 12 + p.payload.length ≤ s.params.maxOperandBytes) :
    exec .rtpSerialize s = .next (s.respond (Response.ofBytes (rtpBytes p))) := by
  rw [exec_rtpSerialize hops, if_neg (Nat.not_lt.mpr hfits)]

/-! ## Fields of bits as numbers -/

theorem toNat_append_bits {n m : Nat} (x : BitVec n) (y : BitVec m) :
    (x ++ y).toNat = 2 ^ m * x.toNat + y.toNat := by
  rw [BitVec.toNat_append, ← Nat.shiftLeft_add_eq_or_of_lt y.isLt, Nat.shiftLeft_eq, Nat.mul_comm]

theorem getLsbD_toNat {n : Nat} (x : BitVec n) (i : Nat) :
    (x.getLsbD i).toNat = x.toNat / 2 ^ i % 2 := Nat.toNat_testBit ..

theorem extractLsb'_toNat_div {n : Nat} (x : BitVec n) (start len : Nat) :
    (x.extractLsb' start len).toNat = x.toNat / 2 ^ start % 2 ^ len := by
  rw [BitVec.extractLsb'_toNat, Nat.shiftRight_eq_div_pow]

theorem eq_decide_toNat (x : Bool) : x = decide (x.toNat = 1) := by
  cases x <;> rfl

theorem bool_eq_of_toNat_eq {x y : Bool} (h : x.toNat = y.toNat) : x = y := by
  rw [eq_decide_toNat x, h, ← eq_decide_toNat]

/-! ## Multi-byte values and their bytes (R19) -/

theorem byteOf_natCast_toNat {n : Nat} (h : n < 4294967296) (k : Nat) :
    (byteOf n k).toNat = n / 2 ^ (8 * k) % 256 := by
  rw [byteOf_toNat, Int.emod_eq_of_lt (by omega) (by omega), Int.toNat_natCast]

theorem byteOf_eq {n k : Nat} {x : Byte} (h : n < 4294967296)
    (hdigit : n / 2 ^ (8 * k) % 256 = x.toNat) : byteOf n k = x :=
  BitVec.eq_of_toNat_eq ((byteOf_natCast_toNat h k).trans hdigit)

section FourBytes
variable (a b c d : Byte)

theorem fourBytes_lt :
    2 ^ 24 * a.toNat + 2 ^ 16 * b.toNat + 2 ^ 8 * c.toNat + d.toNat < 4294967296 := by
  have := a.isLt
  have := b.isLt
  have := c.isLt
  have := d.isLt
  omega

theorem putBe16_twoBytes : putBe16 (2 ^ 8 * a.toNat + b.toNat : Nat) = [a, b] := by
  have := a.isLt
  have := b.isLt
  rw [putBe16, byteOf_eq (x := a) (by omega) (by omega), byteOf_eq (x := b) (by omega) (by omega)]

theorem putBe32_fourBytes :
    putBe32 (2 ^ 24 * a.toNat + 2 ^ 16 * b.toNat + 2 ^ 8 * c.toNat + d.toNat : Nat) =
      [a, b, c, d] := by
  have hlt := fourBytes_lt a b c d
  have := a.isLt
  have := b.isLt
  have := c.isLt
  have := d.isLt
  rw [putBe32, byteOf_eq (x := a) hlt (by omega), byteOf_eq (x := b) hlt (by omega),
    byteOf_eq (x := c) hlt (by omega), byteOf_eq (x := d) hlt (by omega)]

end FourBytes

section Reads
variable (S : Bytes) (k : Nat)

theorem be32_lt : be32 S k < 4294967296 := fourBytes_lt ..

/-- The bytes of a little-endian value, the highest first. -/
theorem le32_eq : le32 S k = 2 ^ 24 * (S.getD (k + 3) 0).toNat + 2 ^ 16 * (S.getD (k + 2) 0).toNat +
    2 ^ 8 * (S.getD (k + 1) 0).toNat + (S.getD k 0).toNat := by
  unfold le32 byteAt
  omega

theorem le32_lt : le32 S k < 4294967296 := by
  rw [le32_eq]
  exact fourBytes_lt ..

/-- Writing a value that was read gives its bytes back. -/
theorem putBe16_be16 : putBe16 (be16 S k) = [S.getD k 0, S.getD (k + 1) 0] := putBe16_twoBytes ..

theorem putBe32_be32 :
    putBe32 (be32 S k) = [S.getD k 0, S.getD (k + 1) 0, S.getD (k + 2) 0, S.getD (k + 3) 0] :=
  putBe32_fourBytes ..

/-- Writing big-endian what was read little-endian reverses the bytes. -/
theorem putBe32_le32 :
    putBe32 (le32 S k) = [S.getD (k + 3) 0, S.getD (k + 2) 0, S.getD (k + 1) 0, S.getD k 0] := by
  rw [le32_eq]
  exact putBe32_fourBytes ..

end Reads

/-- A 32-bit value written big-endian and read little-endian has its bytes reversed. -/
theorem ofNat_le32_putBe32 (v : Word) (T : Bytes) :
    BitVec.ofNat 32 (le32 (putBe32 v.toNat ++ T) 0) =
      v.extractLsb' 0 8 ++ v.extractLsb' 8 8 ++ v.extractLsb' 16 8 ++ v.extractLsb' 24 8 := by
  apply BitVec.eq_of_toNat_eq
  rw [BitVec.toNat_ofNat, Nat.mod_eq_of_lt (le32_lt _ 0)]
  simp only [toNat_append_bits, extractLsb'_toNat_div, le32, putBe32, List.cons_append,
    byteAt_cons_zero, byteAt_cons_succ, byteOf_natCast_toNat v.isLt, Nat.reduceMul, Nat.reducePow]
  omega

/-! ## The header as a reader of the bytes sees it (R112, R113, R182 to R185) -/

theorem headerTruncated_iff (b : Bytes) : headerTruncated b = true ↔ b.length < headerEnd b := by
  unfold headerTruncated headerEnd
  split
  · simp only [Bool.or_eq_true, decide_eq_true_eq]
    omega
  · exact decide_eq_true_iff

theorem headerEnd_bounds (b : Bytes) : 12 ≤ headerEnd b ∧ headerEnd b < 4294967296 := by
  have hwords := be16_lt b (headerBase b + 2)
  have hbase : 12 ≤ headerBase b ∧ headerBase b ≤ 72 := by unfold headerBase headerCsrc; omega
  unfold headerEnd
  split <;> omega

/-- Without CSRC words and extension the header is the fixed header (R183, R184). -/
theorem headerEnd_of_plain {b : Bytes} (hcsrc : headerCsrc b = 0)
    (hext : headerExtension b = false) : headerEnd b = 12 := by
  simp [headerEnd, headerBase, hcsrc, hext]

/-! ## The fields of the record (R182 to R185) -/

/-- The record of a packet that holds the header it describes (R182 to R185, R189). -/
def rtpRecord (b : Bytes) : Packet :=
  { rtpFixedHeader b with
    valid := true
    extensionHeaderId :=
      if headerExtension b then BitVec.ofNat 16 (be16 b (headerBase b)) else 0
    extensionLengthInWords :=
      if headerExtension b then BitVec.ofNat 16 (be16 b (headerBase b + 2)) else 0
    headerLength := BitVec.ofNat 32 (headerEnd b)
    payload := b.drop (headerEnd b) }

section Fields
variable (b : Bytes)

theorem rtpRecord_version : (rtpRecord b).version.toNat = byteAt b 0 / 64 := by
  have hbyte := byteAt_lt b 0
  calc _ = byteAt b 0 / 64 % 4 := extractLsb'_toNat_div ..
    _ = byteAt b 0 / 64 := by omega

theorem rtpRecord_padding : (rtpRecord b).padding.toNat = byteAt b 0 / 32 % 2 :=
  getLsbD_toNat ..

theorem rtpRecord_extension : (rtpRecord b).extension.toNat = byteAt b 0 / 16 % 2 :=
  getLsbD_toNat ..

theorem rtpRecord_csrcCount : (rtpRecord b).csrcCount.toNat = byteAt b 0 % 16 :=
  (extractLsb'_toNat_div ..).trans (by simp [byteAt])

theorem rtpRecord_marker : (rtpRecord b).marker.toNat = byteAt b 1 / 128 := by
  have hbyte := byteAt_lt b 1
  calc _ = byteAt b 1 / 128 % 2 := getLsbD_toNat ..
    _ = byteAt b 1 / 128 := by omega

theorem rtpRecord_payloadType : (rtpRecord b).payloadType.toNat = byteAt b 1 % 128 :=
  (extractLsb'_toNat_div ..).trans (by simp [byteAt])

theorem rtpRecord_sequenceNumber : (rtpRecord b).sequenceNumber.toNat = be16 b 2 :=
  Nat.mod_eq_of_lt (be16_lt b 2)

theorem rtpRecord_timestamp : (rtpRecord b).timestamp.toNat = be32 b 4 :=
  Nat.mod_eq_of_lt (be32_lt b 4)

theorem rtpRecord_sourceId : (rtpRecord b).sourceId.toNat = le32 b 8 :=
  Nat.mod_eq_of_lt (le32_lt b 8)

theorem rtpRecord_extensionHeaderId : (rtpRecord b).extensionHeaderId.toNat =
    if headerExtension b then be16 b (headerBase b) else 0 := by
  cases hext : headerExtension b
  · simp [rtpRecord, hext]
  · simp [rtpRecord, hext, Nat.mod_eq_of_lt (be16_lt b _)]

theorem rtpRecord_extensionLengthInWords : (rtpRecord b).extensionLengthInWords.toNat =
    if headerExtension b then be16 b (headerBase b + 2) else 0 := by
  cases hext : headerExtension b
  · simp [rtpRecord, hext]
  · simp [rtpRecord, hext, Nat.mod_eq_of_lt (be16_lt b _)]

theorem rtpRecord_headerLength : (rtpRecord b).headerLength.toNat = headerEnd b :=
  Nat.mod_eq_of_lt (headerEnd_bounds b).2

end Fields

theorem headerExtension_eq_rtpRecord (b : Bytes) : headerExtension b = (rtpRecord b).extension := by
  rw [eq_decide_toNat (rtpRecord b).extension, rtpRecord_extension]
  rfl

/-! ## What RTP_PARSE answers (R181, R187, R189) -/

theorem rtpFixedHeader_extension (b : Bytes) : (rtpFixedHeader b).extension = headerExtension b :=
  (headerExtension_eq_rtpRecord b).symm

theorem rtpCsrcEnd_rtpFixedHeader (b : Bytes) : rtpCsrcEnd (rtpFixedHeader b) = headerBase b := by
  have hcsrc : (rtpFixedHeader b).csrcCount.toNat = headerCsrc b := rtpRecord_csrcCount b
  rw [rtpCsrcEnd, hcsrc, headerBase]

theorem rtpFinish_of_truncated {b : Bytes} {hl : Nat} (p : Packet) (h : b.length < hl) :
    rtpFinish b p hl = Response.ofPacket .rtpTruncated Packet.empty := if_pos h

theorem rtpFinish_of_fits {b : Bytes} {hl : Nat} (p : Packet) (h : hl ≤ b.length) :
    rtpFinish b p hl = Response.ofPacket .ok
      { p with valid := true, headerLength := BitVec.ofNat 32 hl, payload := b.drop hl } := by
  rw [rtpFinish, if_neg (Nat.not_lt.mpr h), slice, List.take_length]

theorem rtpParse_of_short {b : Bytes} (h : b.length < 12) :
    rtpParse b = Response.ofPacket .rtpShort Packet.empty := if_pos h

/-- Input of at least a fixed header is finished at the end of the header it describes: where the
extension header is missing, so is the end of the whole header. -/
theorem rtpParse_eq_rtpFinish {b : Bytes} (h : 12 ≤ b.length) :
    rtpParse b = rtpFinish b (rtpRecord b) (headerEnd b) := by
  rw [rtpParse, rtpMinHeader, if_neg (Nat.not_lt.mpr h)]
  simp only [rtpFixedHeader_extension, rtpCsrcEnd_rtpFixedHeader]
  cases hext : headerExtension b
  · simp [headerEnd, rtpRecord, rtpFinish, hext, rtpFixedHeader, Packet.empty]
  · have hend : headerEnd b = headerBase b + 4 * be16 b (headerBase b + 2) + 4 := by
      rw [headerEnd, if_pos hext]
      omega
    simp only [if_true, ← hend]
    split
    · rw [rtpFinish_of_truncated _ (by omega)]
    · simp [rtpFinish, rtpRecord, hext, rtpFixedHeader_extension]

theorem rtpParse_of_truncated {b : Bytes} (h : 12 ≤ b.length) (ht : b.length < headerEnd b) :
    rtpParse b = Response.ofPacket .rtpTruncated Packet.empty := by
  rw [rtpParse_eq_rtpFinish h, rtpFinish_of_truncated _ ht]

theorem rtpParse_of_fits {b : Bytes} (h : headerEnd b ≤ b.length) :
    rtpParse b = Response.ofPacket .ok (rtpRecord b) := by
  rw [rtpParse_eq_rtpFinish ((headerEnd_bounds b).1.trans h), rtpFinish_of_fits _ h]
  rfl

theorem rtpParse_eq_ok {b : Bytes} {q : Packet} (hok : rtpParse b = Response.ofPacket .ok q) :
    headerEnd b ≤ b.length ∧ q = rtpRecord b := by
  obtain h | ⟨h, ht⟩ | h : b.length < 12 ∨ (12 ≤ b.length ∧ b.length < headerEnd b) ∨
      headerEnd b ≤ b.length := by omega
  · rw [rtpParse_of_short h] at hok
    cases hok
  · rw [rtpParse_of_truncated h ht] at hok
    cases hok
  · rw [rtpParse_of_fits h] at hok
    cases hok
    exact ⟨h, rfl⟩

/-- Input within the limit that holds the header it describes (R182 to R189). -/
theorem exec_rtpParse_of_fits {s : State} {b : Bytes} (hops : s.operands = [.bytes b])
    (hfits : b.length ≤ s.params.maxOperandBytes) (hend : headerEnd b ≤ b.length) :
    exec .rtpParse s = .next (s.respond (Response.ofPacket .ok (rtpRecord b))) := by
  rw [exec_rtpParse hops, if_neg (Nat.not_lt.mpr hfits), rtpParse_of_fits hend]

/-- Settles O32: 12 bytes are the whole fixed header, and a longer input is truncated exactly when
it ends before the header it describes. -/
theorem parseShortAndTruncatedInput : Obligations.ParseShortAndTruncatedInput := by
  intro s b hops hfits
  have hexec : exec .rtpParse s = .next (s.respond (rtpParse b)) := by
    rw [exec_rtpParse hops, if_neg (Nat.not_lt.mpr hfits)]
  refine ⟨fun hshort => ?_, fun hlen hcsrc hext => ?_, fun hlen htrunc => ?_⟩
  · rw [hexec, rtpParse_of_short hshort]
    rfl
  · have hend := headerEnd_of_plain hcsrc hext
    exact ⟨rtpRecord b, exec_rtpParse_of_fits hops hfits (by omega), rfl,
      List.drop_eq_nil_of_le (by omega)⟩
  · rw [hexec, rtpParse_of_truncated hlen ((headerTruncated_iff b).mp htrunc)]
    rfl

/-- Settles O33: input that ends no earlier than its header is answered with its record. -/
theorem parseReadsEveryField : Obligations.ParseReadsEveryField := by
  intro s b hops hfits _ hwhole
  have hend : headerEnd b ≤ b.length := by
    rwa [Bool.eq_false_iff, Ne, headerTruncated_iff, Nat.not_lt] at hwhole
  have hpadding : (rtpRecord b).padding = decide (byteAt b 0 / 32 % 2 = 1) := by
    rw [eq_decide_toNat (rtpRecord b).padding, rtpRecord_padding]
  have hmarker : (rtpRecord b).marker = decide (128 ≤ byteAt b 1) := by
    have hbyte := byteAt_lt b 1
    rw [eq_decide_toNat (rtpRecord b).marker, rtpRecord_marker]
    exact decide_eq_decide.mpr (by omega)
  exact ⟨rtpRecord b, exec_rtpParse_of_fits hops hfits hend, rfl, rtpRecord_version b, hpadding,
    (headerExtension_eq_rtpRecord b).symm, rtpRecord_csrcCount b, hmarker, rtpRecord_payloadType b,
    rtpRecord_sequenceNumber b, rtpRecord_timestamp b, rtpRecord_sourceId b,
    rtpRecord_extensionHeaderId b, rtpRecord_extensionLengthInWords b, rtpRecord_headerLength b,
    rfl⟩

/-! ## The bytes RTP_SERIALIZE writes (R190 to R193) -/

theorem rtpByte0_toNat (p : Packet) : (rtpByte0 p).toNat =
    64 * p.version.toNat + 32 * p.padding.toNat + 16 * p.extension.toNat + p.csrcCount.toNat := by
  simp only [rtpByte0, toNat_append_bits, BitVec.toNat_ofBool]
  omega

theorem rtpByte1_toNat (p : Packet) :
    (rtpByte1 p).toNat = 128 * p.marker.toNat + p.payloadType.toNat := by
  simp only [rtpByte1, toNat_append_bits, BitVec.toNat_ofBool, Nat.reducePow]

theorem rtpBytes_length (p : Packet) : (rtpBytes p).length = 12 + p.payload.length := by
  simp only [rtpBytes, List.length_append, List.length_cons, List.length_nil, putBe16_length,
    putBe32_length]

theorem be16_putBe16_of_lt {n : Nat} (h : n < 65536) (T : Bytes) : be16 (putBe16 n ++ T) 0 = n := by
  have := be16_putBe16 n T
  omega

theorem be32_putBe32_of_lt {n : Nat} (h : n < 4294967296) (T : Bytes) :
    be32 (putBe32 n ++ T) 0 = n := by
  have := be32_putBe32 n T
  omega

theorem be16_rtpBytes_sequenceNumber (p : Packet) : be16 (rtpBytes p) 2 = p.sequenceNumber.toNat :=
  be16_putBe16_of_lt p.sequenceNumber.isLt
    (putBe32 p.timestamp.toNat ++ putBe32 p.sourceId.toNat ++ p.payload)

theorem be32_rtpBytes_timestamp (p : Packet) : be32 (rtpBytes p) 4 = p.timestamp.toNat :=
  be32_putBe32_of_lt p.timestamp.isLt (putBe32 p.sourceId.toNat ++ p.payload)

theorem be32_rtpBytes_sourceId (p : Packet) : be32 (rtpBytes p) 8 = p.sourceId.toNat :=
  be32_putBe32_of_lt p.sourceId.isLt p.payload

/-- Settles O35: the fields are read off the bytes of `rtpBytes`, and the size of the result
alone refuses the record. -/
theorem serializeWritesTheHeader : Obligations.SerializeWritesTheHeader := by
  intro s p hops _
  refine ⟨fun hfits => ?_, fun hlong => ?_⟩
  · exact ⟨rtpBytes p, exec_rtpSerialize_of_fits hops hfits, rtpBytes_length p,
      rtpByte0_toNat p, rtpByte1_toNat p, be16_rtpBytes_sequenceNumber p, be32_rtpBytes_timestamp p,
      be32_rtpBytes_sourceId p, rfl⟩
  · rw [exec_rtpSerialize hops, if_pos hlong]
    rfl

/-! ## A record read back from its bytes (R194) -/

section ReadBack
variable (p : Packet)

theorem byteAt_zero_rtpBytes_fields :
    byteAt (rtpBytes p) 0 / 64 = p.version.toNat ∧
    byteAt (rtpBytes p) 0 / 32 % 2 = p.padding.toNat ∧
    byteAt (rtpBytes p) 0 / 16 % 2 = p.extension.toNat ∧
    byteAt (rtpBytes p) 0 % 16 = p.csrcCount.toNat := by
  have hbyte : byteAt (rtpBytes p) 0 = _ := rtpByte0_toNat p
  have := p.padding.toNat_le
  have := p.extension.toNat_le
  have := p.csrcCount.isLt
  omega

theorem byteAt_one_rtpBytes_fields :
    byteAt (rtpBytes p) 1 / 128 = p.marker.toNat ∧
    byteAt (rtpBytes p) 1 % 128 = p.payloadType.toNat := by
  have hbyte : byteAt (rtpBytes p) 1 = _ := rtpByte1_toNat p
  have := p.payloadType.isLt
  omega

theorem headerExtension_rtpBytes : headerExtension (rtpBytes p) = p.extension := by
  obtain ⟨-, -, hextension, -⟩ := byteAt_zero_rtpBytes_fields p
  rw [headerExtension, hextension, ← eq_decide_toNat]

theorem headerEnd_rtpBytes (hcsrc : p.csrcCount = 0) (hext : p.extension = false) :
    headerEnd (rtpBytes p) = 12 := by
  obtain ⟨-, -, -, hcsrcCount⟩ := byteAt_zero_rtpBytes_fields p
  rw [hcsrc] at hcsrcCount
  exact headerEnd_of_plain hcsrcCount ((headerExtension_rtpBytes p).trans hext)

end ReadBack

theorem rtpRecord_rtpBytes {p : Packet} (hcsrc : p.csrcCount = 0) (hext : p.extension = false) :
    rtpRecord (rtpBytes p) =
      { p with
        valid := true, headerLength := 12, extensionHeaderId := 0, extensionLengthInWords := 0,
        sourceId := p.sourceId.extractLsb' 0 8 ++ p.sourceId.extractLsb' 8 8 ++
          p.sourceId.extractLsb' 16 8 ++ p.sourceId.extractLsb' 24 8 } := by
  obtain ⟨hversion, hpadding, hextension, hcsrcCount⟩ := byteAt_zero_rtpBytes_fields p
  obtain ⟨hmarker, hpayloadType⟩ := byteAt_one_rtpBytes_fields p
  have hend := headerEnd_rtpBytes p hcsrc hext
  have hplain := (headerExtension_rtpBytes p).trans hext
  refine Packet.mk.injEq .. |>.mpr ⟨rfl,
    BitVec.eq_of_toNat_eq ((rtpRecord_version _).trans hversion),
    bool_eq_of_toNat_eq ((rtpRecord_padding _).trans hpadding),
    bool_eq_of_toNat_eq ((rtpRecord_extension _).trans hextension),
    BitVec.eq_of_toNat_eq ((rtpRecord_csrcCount _).trans hcsrcCount),
    bool_eq_of_toNat_eq ((rtpRecord_marker _).trans hmarker),
    BitVec.eq_of_toNat_eq ((rtpRecord_payloadType _).trans hpayloadType),
    BitVec.eq_of_toNat_eq ((rtpRecord_sequenceNumber _).trans (be16_rtpBytes_sequenceNumber p)),
    BitVec.eq_of_toNat_eq ((rtpRecord_timestamp _).trans (be32_rtpBytes_timestamp p)),
    ofNat_le32_putBe32 p.sourceId p.payload, ?_, ?_, ?_, ?_⟩
  · exact if_neg (by simp [hplain])
  · exact if_neg (by simp [hplain])
  · exact congrArg (BitVec.ofNat 32) hend
  · exact congrArg (rtpBytes p).drop hend

/-- Settles O36: the header written is a plain one, and sourceId is the one field the two directions
read in different byte orders (R73). -/
theorem parseOfSerializeReversesSourceId : Obligations.ParseOfSerializeReversesSourceId := by
  intro s p hcsrc hext hfits answered
  have hlen := rtpBytes_length p
  have hend := headerEnd_rtpBytes p hcsrc hext
  refine ⟨rtpBytes p, rtpRecord (rtpBytes p), exec_rtpSerialize_of_fits rfl hfits,
    exec_rtpParse_of_fits rfl ?_ ?_, rtpRecord_rtpBytes hcsrc hext⟩
  · simp only
    omega
  · omega

/-! ## Input written back from its record (R195) -/

/-- The input with bytes 8 to 11, its sourceId, reversed. -/
def swapSourceId (b : Bytes) : Bytes := b.take 8 ++ (slice b 8 12).reverse ++ b.drop 12

/-- Bytes 0 and 1 are put together again from their fields. -/
theorem rtpByte0_rtpRecord (b : Bytes) : rtpByte0 (rtpRecord b) = b.getD 0 0 := by
  apply BitVec.eq_of_toNat_eq
  rw [rtpByte0_toNat, rtpRecord_version, rtpRecord_padding, rtpRecord_extension,
    rtpRecord_csrcCount, ← byteAt]
  omega

theorem rtpByte1_rtpRecord (b : Bytes) : rtpByte1 (rtpRecord b) = b.getD 1 0 := by
  apply BitVec.eq_of_toNat_eq
  rw [rtpByte1_toNat, rtpRecord_marker, rtpRecord_payloadType, ← byteAt]
  omega

theorem rtpBytes_rtpRecord {b : Bytes} (hlen : 12 ≤ b.length) (hend : headerEnd b = 12) :
    rtpBytes (rtpRecord b) = swapSourceId b := by
  have hpayload : (rtpRecord b).payload = b.drop 12 := congrArg b.drop hend
  rw [rtpBytes, rtpByte0_rtpRecord, rtpByte1_rtpRecord, rtpRecord_sequenceNumber, putBe16_be16,
    rtpRecord_timestamp, putBe32_be32, rtpRecord_sourceId, putBe32_le32, hpayload]
  match b, hlen with
  | _ :: _ :: _ :: _ :: _ :: _ :: _ :: _ :: _ :: _ :: _ :: _ :: _, _ => rfl

theorem swapSourceId_swapSourceId {b : Bytes} (hlen : 12 ≤ b.length) :
    swapSourceId (swapSourceId b) = b := by
  match b, hlen with
  | _ :: _ :: _ :: _ :: _ :: _ :: _ :: _ :: _ :: _ :: _ :: _ :: _, _ => rfl

theorem swapSourceId_length (b : Bytes) : (swapSourceId b).length = b.length := by
  simp only [swapSourceId, slice, List.length_append, List.length_take, List.length_reverse,
    List.length_drop]
  omega

theorem byteAt_zero_swapSourceId {b : Bytes} (hlen : 12 ≤ b.length) :
    byteAt (swapSourceId b) 0 = byteAt b 0 := by
  match b, hlen with
  | _ :: _, _ => rfl

theorem headerEnd_swapSourceId {b : Bytes} (hlen : 12 ≤ b.length) (hcsrc : headerCsrc b = 0)
    (hext : headerExtension b = false) : headerEnd (swapSourceId b) = 12 := by
  apply headerEnd_of_plain
  · rw [headerCsrc, byteAt_zero_swapSourceId hlen]
    exact hcsrc
  · rw [headerExtension, byteAt_zero_swapSourceId hlen]
    exact hext

theorem exec_rtpSerialize_rtpRecord {s : State} {b : Bytes}
    (hops : s.operands = [.pkt (rtpRecord b)]) (hfits : b.length ≤ s.params.maxOperandBytes)
    (hlen : 12 ≤ b.length) (hend : headerEnd b = 12) :
    exec .rtpSerialize s = .next (s.respond (Response.ofBytes (swapSourceId b))) := by
  have hbytes := rtpBytes_rtpRecord hlen hend
  have hsize : 12 + (rtpRecord b).payload.length = b.length := by
    rw [← rtpBytes_length, hbytes, swapSourceId_length]
  rw [exec_rtpSerialize_of_fits hops (by omega), hbytes]

/-- Only input within the limit that holds its header is answered with OK, and the answer is its
record. -/
theorem rtpRecord_of_answered {s t : State} {b : Bytes} {q : Packet}
    (hexec : exec .rtpParse { s with operands := [.bytes b] } = .next t)
    (hanswer : t.history = s.history ++ [.response (Response.ofPacket .ok q)]) :
    b.length ≤ s.params.maxOperandBytes ∧ headerEnd b ≤ b.length ∧ q = rtpRecord b := by
  rw [exec_rtpParse rfl] at hexec
  cases hexec
  have hresponse := List.append_cancel_left hanswer
  split_ifs at hresponse with hlong
  · simp [Response.ofPacket, Response.ofStatus] at hresponse
  · exact ⟨Nat.le_of_not_lt hlong, rtpParse_eq_ok (by simpa using hresponse)⟩

/-- Settles O37: one round reverses bytes 8 to 11 and leaves a plain header plain, so the second
round reverses them back. -/
theorem serializeOfParseReversesSourceId : Obligations.SerializeOfParseReversesSourceId := by
  intro s b q answered hparse hcsrc hext
  obtain ⟨hfits, hend, rfl⟩ := rtpRecord_of_answered hparse rfl
  have hlen : 12 ≤ b.length := (headerEnd_bounds b).1.trans hend
  have hbcsrc : headerCsrc b = 0 := (rtpRecord_csrcCount b).symm.trans (by rw [hcsrc]; rfl)
  have hbext : headerExtension b = false := (headerExtension_eq_rtpRecord b).trans hext
  have hswap := swapSourceId_length b
  have hswapEnd := headerEnd_swapSourceId hlen hbcsrc hbext
  refine ⟨swapSourceId b, rtpRecord (swapSourceId b), rfl,
    exec_rtpSerialize_rtpRecord rfl hfits hlen (headerEnd_of_plain hbcsrc hbext),
    exec_rtpParse_of_fits rfl (hswap.trans_le hfits) (by omega), ?_⟩
  have hsecond := exec_rtpSerialize_rtpRecord
    (s := { s with operands := [.pkt (rtpRecord (swapSourceId b))] })
    rfl (hswap.trans_le hfits) (by omega) hswapEnd
  rwa [swapSourceId_swapSourceId hlen] at hsecond

end Sys2Proof.Machine
end

section
/-! 42_jitter.md: the rule of each JB command (R220 to R236), the order packets keep (R237), and what
runs of JB_ADD and JB_TICK do (R238, R239). -/
namespace Sys2Proof.Machine

/-! ## The order of packets (R237) -/

/-- The packets admitted since the last reset and not discarded: those emitted, then those queued. -/
def emittedThenQueued (s : State) : List Packet := dataPackets s.channel ++ s.jbQueue

theorem fifoOrder_iff (s : State) :
    FifoOrder s ↔ (emittedThenQueued s).Sublist (offeredOf s.history) := Iff.rfl

@[simp] theorem emittedThenQueued_respond (s : State) (r : Response) :
    emittedThenQueued (s.respond r) = emittedThenQueued s := by simp [emittedThenQueued]

@[simp] theorem emittedThenQueued_takeCommand (s : State) (p : Port) (c : Command)
    (rest : List Command) : emittedThenQueued (s.takeCommand p c rest) = emittedThenQueued s := by
  simp [emittedThenQueued]

/-- A tick only moves the oldest packet from the queue to the channel and JB_STOP drops the queue, so
nothing but an admitting JB_ADD adds a packet, and it adds its own at the end. -/
theorem exec_emittedThenQueued {i : Instr} {s t : State} (h : exec i s = .next t) :
    (emittedThenQueued t).Sublist (emittedThenQueued s) ∨
    (i = .jbAdd ∧ shapeOk .pkt s.operands = true ∧
      emittedThenQueued t = emittedThenQueued s ++ [pktArg s.operands]) := by
  cases exec_effect h with
  | answer r => exact .inl (by simp)
  | feed ms rest f _ =>
    left
    unfold emittedThenQueued State.channel
    rw [dataPackets_channelOf_feed]
  | stop =>
    left
    simp [emittedThenQueued, State.channel, jbStop]
  | append hshape _ => exact .inr ⟨rfl, hshape, by simp [emittedThenQueued, State.channel]⟩
  | tickEmit p rest o hqueue =>
    left
    rw [emittedThenQueued, State.channel_complete, State.channel_emit]
    simp [emittedThenQueued, State.channel, hqueue, dataPackets]
  | start | drop | tickFlags =>
    left
    simp [emittedThenQueued, State.channel, jbStart]

@[simp] theorem offeredOf_append_event (h : List Obs) (e : Event) :
    offeredOf (h ++ [.event e]) = offeredOf h := offeredOf_append h _

@[simp] theorem offeredOf_append_response (h : List Obs) (r : Response) :
    offeredOf (h ++ [.response r]) = offeredOf h := offeredOf_append h _

theorem offeredOf_append_events (h : List Obs) (es : List Event) :
    offeredOf (h ++ es.map .event) = offeredOf h := by
  induction es generalizing h with
  | nil => simp
  | cons e es ih => rw [List.map_cons, List.append_cons, ih, offeredOf_append_event]

/-- A command's events and response offer nothing. -/
theorem offeredOf_answered {s t : State} {events : List Event} {r : Response}
    (h : Answered s t events r) : offeredOf t.history = offeredOf s.history := by
  rw [h.history, offeredOf_append_response, offeredOf_append_events]

theorem offeredOf_append_add {c : Command} (hd : decode c.word = .ok .jbAdd)
    (hshape : shapeOk .pkt c.operands = true) (h : List Obs) (p : Port) :
    offeredOf (h ++ [.taken p c]) = offeredOf h ++ [pktArg c.operands] := by
  rw [offeredOf_append]
  simp [Command.isInstr_of_decode hd, hshape]

/-- Taking a command withdraws no offer. -/
theorem offeredOf_append_taken (h : List Obs) (p : Port) (c : Command) :
    (offeredOf h).Sublist (offeredOf (h ++ [.taken p c])) := by
  rw [offeredOf_append]
  dsimp only
  split
  · exact List.sublist_append_left _ _
  · exact List.Sublist.refl _

/-- Taking a command may offer a packet, which leaves the order. -/
theorem takeCommand_fifoOrder {s : State} (hs : FifoOrder s) (p : Port) (c : Command)
    (rest : List Command) : FifoOrder (s.takeCommand p c rest) := by
  rw [fifoOrder_iff, emittedThenQueued_takeCommand, State.takeCommand_history]
  exact hs.trans (offeredOf_append_taken _ p c)

/-- A command taken keeps the order: an admitted packet is the one just offered, the last of both
lists. -/
theorem exec_fifoOrder {s t : State} {p : Port} {c : Command} {rest : List Command} {i : Instr}
    (hd : decode c.word = .ok i) (hx : exec i (s.takeCommand p c rest) = .next t)
    (hs : FifoOrder s) : FifoOrder t := by
  obtain ⟨events, r, ha⟩ := exec_answered hx
  rw [fifoOrder_iff, offeredOf_answered ha]
  obtain hsub | ⟨rfl, hshape, happend⟩ := exec_emittedThenQueued hx
  · exact hsub.trans (takeCommand_fifoOrder hs p c rest)
  · rw [happend, State.takeCommand_history, offeredOf_append_add hd hshape,
      emittedThenQueued_takeCommand]
    exact hs.append (List.Sublist.refl _)

/-- Settles O57: a reset empties the channel and the queue, a word that is no command only answers,
and a command taken keeps the order. -/
theorem stepKeepsFifoOrder : Obligations.StepKeepsFifoOrder := by
  intro s t hs h
  obtain ⟨-, rfl | rfl | ⟨p, c, rest, -, rfl⟩ | ⟨p, c, rest, i, hd, hx⟩⟩ := step_next_cases h
  · rw [fifoOrder_iff]
    simp [emittedThenQueued, dataPackets]
  · exact hs
  · have htaken := takeCommand_fifoOrder hs p c rest
    rw [fifoOrder_iff] at htaken ⊢
    rwa [State.refuse_history, offeredOf_append_response, State.refuse, emittedThenQueued_respond]
  · exact exec_fifoOrder hd hx hs

/-! ## JB_START and JB_STOP (R220 to R223) -/

/-- Settles O38: the rule writes the three elements and answers. -/
theorem startArmsAndFills : Obligations.StartArmsAndFills := by
  intro imm s hops
  exact exec_runs (.jbStart imm) s (by rw [hops]; rfl) (by rw [hops]; rfl)

/-- Settles O39: the rule writes the two elements and answers. -/
theorem stopDiscardsTheQueue : Obligations.StopDiscardsTheQueue := fun _ => exec_jbStop

/-! ## JB_ADD (R230, R231) -/

theorem exec_jbAdd {s : State} {p : Packet} (hops : s.operands = [.pkt p])
    (hsize : p.payload.length ≤ s.params.maxOperandBytes) :
    exec .jbAdd s = .next (jbAdd p s) := by
  rw [exec_runs .jbAdd s (by rw [hops]; rfl) (by rw [hops]; exact sizeOk_pkt hsize), ruleOf, hops]
  rfl

theorem jbAdd_of_room {s : State} (p : Packet) (hover : s.jbOverflowing = false)
    (hroom : s.jbQueue.length ≤ s.params.maxPackets) :
    jbAdd p s = { s with jbQueue := s.jbQueue ++ [p] }.complete :=
  if_pos ((jbAdmits_iff s).mpr ⟨hover, hroom⟩)

theorem jbAdd_of_no_room {s : State} (p : Packet)
    (h : s.jbOverflowing = true ∨ s.params.maxPackets < s.jbQueue.length) :
    jbAdd p s = { s with jbOverflowing := true }.complete := by
  refine if_neg fun hadmits => ?_
  obtain ⟨hover, hroom⟩ := (jbAdmits_iff s).mp hadmits
  obtain hover' | hfull := h
  · simp [hover] at hover'
  · omega

/-- Settles O40: whether the packet is admitted decides between the two writes of the rule. -/
theorem addAppendsOrDrops : Obligations.AddAppendsOrDrops := by
  intro s p hops hsize
  rw [exec_jbAdd hops hsize]
  refine ⟨fun ⟨hover, hroom⟩ => ?_, fun h => ?_⟩
  · rw [jbAdd_of_room p hover hroom]
    rfl
  · rw [jbAdd_of_no_room p h]
    rfl

/-! ## JB_TICK (R232 to R236) -/

theorem exec_jbTick {s : State} (hops : s.operands = []) : exec .jbTick s = .next (jbTick s) :=
  exec_runs .jbTick s (by rw [hops]; rfl) (by rw [hops]; rfl)

theorem overflowAfterRecovery_of_le {s : State} (h : s.jbQueue.length ≤ s.params.maxPackets / 2) :
    overflowAfterRecovery s = false := by
  rw [Bool.eq_false_iff, Ne, overflowAfterRecovery_iff]
  omega

theorem stillFilling_eq_false_iff (s : State) :
    stillFilling s = false ↔
      s.jbFilling = false ∨ s.params.maxPackets / 2 ≤ s.jbQueue.length := by
  rw [Bool.eq_false_iff, Ne, stillFilling_iff, not_and_or, Bool.not_eq_true, Nat.not_lt]

theorem jbPace_of_empty {s : State} (hqueue : s.jbQueue = []) : jbPace s = jbDrained s := by
  rw [jbPace, hqueue]

theorem jbPace_of_cons {s : State} {p : Packet} {rest : List Packet}
    (hqueue : s.jbQueue = p :: rest) :
    jbPace s = if stillFilling s then s.complete else jbEmitOldest p rest s := by
  rw [jbPace, hqueue]

section Running

variable {s : State} (hrun : s.jbRunning = true)
include hrun

theorem jbTick_of_empty (hqueue : s.jbQueue = []) :
    jbTick s = { s with jbOverflowing := false, jbFilling := fillingAfterEmpty s }.complete :=
  (jbTick_of_running hrun).trans (jbPace_of_empty hqueue)

theorem jbTick_of_filling (hqueue : s.jbQueue ≠ []) (hfill : s.jbFilling = true)
    (hbelow : s.jbQueue.length < s.params.maxPackets / 2) :
    jbTick s = { s with jbOverflowing := false }.complete := by
  obtain ⟨p, rest, hcons⟩ := List.exists_cons_of_ne_nil hqueue
  rw [jbTick_of_running hrun, overflowAfterRecovery_of_le hbelow.le]
  exact (jbPace_of_cons (s := { s with jbOverflowing := false }) hcons).trans
    (if_pos ((stillFilling_iff s).mpr ⟨hfill, hbelow⟩))

theorem jbTick_of_ready {p : Packet} {rest : List Packet} (hqueue : s.jbQueue = p :: rest)
    (hready : s.jbFilling = false ∨ s.params.maxPackets / 2 ≤ s.jbQueue.length) :
    jbTick s = ({ s with
      jbOverflowing := overflowAfterRecovery s, jbFilling := false, jbQueue := rest,
      jbLastPacket := some p }.emit (.data p)).complete := by
  rw [jbTick_of_running hrun]
  refine (jbPace_of_cons (s := { s with jbOverflowing := overflowAfterRecovery s })
    hqueue).trans (if_neg ?_)
  rw [Bool.not_eq_true]
  exact (stillFilling_eq_false_iff s).mpr hready

end Running

/-- Settles O41: the four cases of a tick, with each flag it leaves read as a condition. -/
theorem tickPacesTheQueue : Obligations.TickPacesTheQueue := by
  intro s hops
  rw [exec_jbTick hops]
  refine ⟨fun hrun => ?_, fun hrun hqueue => ?_, fun hrun p rest hqueue hfill hbelow => ?_,
    fun hrun p rest hqueue hready => ?_⟩
  · rw [jbTick_of_stopped hrun]
    rfl
  · have hfilling : fillingAfterEmpty s =
        decide (s.jbFilling = true ∨ ∃ p ∈ s.jbLastPacket, 0 < p.payload.length) := by
      rw [Bool.eq_iff_iff, decide_eq_true_iff]
      exact fillingAfterEmpty_iff s
    rw [jbTick_of_empty hrun hqueue, hfilling]
    rfl
  · rw [jbTick_of_filling hrun (by simp [hqueue]) hfill hbelow]
    rfl
  · have hover : overflowAfterRecovery s =
        decide (s.jbOverflowing = true ∧ s.params.maxPackets / 2 < s.jbQueue.length) := by
      rw [Bool.eq_iff_iff, decide_eq_true_iff]
      exact overflowAfterRecovery_iff s
    rw [jbTick_of_ready hrun hqueue hready, hover]
    simp [State.emit, State.complete, State.respond]

/-! ## Runs of commands -/

/-- A run of commands goes on from where its first part ends (R84). -/
theorem execAll_append {cs : List (Instr × List Operand)} {s t : State}
    (h : execAll cs s = .next t) (ds : List (Instr × List Operand)) :
    execAll (cs ++ ds) s = execAll ds t := by
  induction cs generalizing s with
  | nil =>
    cases h
    rfl
  | cons c cs ih =>
    rw [List.cons_append, execAll]
    rw [execAll] at h
    obtain ⟨u, hu⟩ := exec_has_next c.1 { s with operands := c.2 }
    rw [hu] at h ⊢
    exact ih h

/-- The state after an admitting JB_ADD. -/
def State.enqueue (s : State) (p : Packet) : State :=
  { s with jbQueue := s.jbQueue ++ [p] }.complete

@[simp] theorem State.enqueue_params (s : State) (p : Packet) :
    (s.enqueue p).params = s.params := rfl

@[simp] theorem State.enqueue_jbQueue (s : State) (p : Packet) :
    (s.enqueue p).jbQueue = s.jbQueue ++ [p] := rfl

@[simp] theorem State.channel_enqueue (s : State) (p : Packet) :
    (s.enqueue p).channel = s.channel := State.channel_complete _

section Offered

variable {s : State} {p : Packet} (hsize : p.payload.length ≤ s.params.maxOperandBytes)
include hsize

theorem exec_jbAdd_of_room (hover : s.jbOverflowing = false)
    (hroom : s.jbQueue.length ≤ s.params.maxPackets) :
    exec .jbAdd { s with operands := [.pkt p] } = .next (s.enqueue p) :=
  Eq.trans (exec_jbAdd rfl hsize) (congrArg Host.Outcome.next (jbAdd_of_room p hover hroom))

theorem exec_jbAdd_of_full (hfull : s.params.maxPackets < s.jbQueue.length) :
    exec .jbAdd { s with operands := [.pkt p] } = .next { s with jbOverflowing := true }.complete :=
  Eq.trans (exec_jbAdd rfl hsize)
    (congrArg Host.Outcome.next (jbAdd_of_no_room p (.inr hfull)))

/-- One period from a buffer with room: the packet is admitted, then the tick runs. -/
theorem execAll_period (hover : s.jbOverflowing = false)
    (hroom : s.jbQueue.length ≤ s.params.maxPackets) :
    execAll (addThenTick [p]) s = .next (jbTick (s.enqueue p)) :=
  execAll_pair (exec_jbAdd_of_room hsize hover hroom) (exec_jbTick rfl)

end Offered

/-! ## Back-to-back JB_ADD (R239) -/

/-- From s to t the packets were added, with no tick between, to a queue that was empty: the queue
holds the first MAX_PACKETS + 1 of them, and the flag says whether there were more. -/
structure AddRun (s : State) (ps : List Packet) (t : State) : Prop where
  params : t.params = s.params
  queue : t.jbQueue = ps.take (s.params.maxPackets + 1)
  overflowing : t.jbOverflowing = decide (s.params.maxPackets + 1 < ps.length)
  channel : t.channel = s.channel
  filling : t.jbFilling = s.jbFilling
  running : t.jbRunning = s.jbRunning

/-- One more packet is admitted while at most MAX_PACKETS were added before it, and dropped after. -/
theorem AddRun.add {s t : State} {ps : List Packet} (h : AddRun s ps t) {p : Packet}
    (hsize : p.payload.length ≤ s.params.maxOperandBytes) :
    ∃ u, execAll (adds [p]) t = .next u ∧ AddRun s (ps ++ [p]) u := by
  have hlen : (ps ++ [p]).length = ps.length + 1 := List.length_append
  have hparams := h.params
  have hqueue := h.queue
  have hsize' : p.payload.length ≤ t.params.maxOperandBytes := by rwa [hparams]
  obtain hroom | hfull := Nat.lt_or_ge ps.length (s.params.maxPackets + 1)
  · have htake : t.jbQueue = ps := by rw [hqueue, List.take_of_length_le hroom.le]
    have hover : t.jbOverflowing = false := by
      rw [h.overflowing, decide_eq_false_iff_not]
      omega
    refine ⟨t.enqueue p, execAll_single (exec_jbAdd_of_room hsize' hover ?_), hparams, ?_, ?_,
      (State.channel_enqueue t p).trans h.channel, h.filling, h.running⟩
    · rw [htake, hparams]
      omega
    · rw [List.take_of_length_le (by omega), State.enqueue_jbQueue, htake]
    · refine hover.trans (Eq.symm ?_)
      rw [decide_eq_false_iff_not]
      omega
  · refine ⟨_, execAll_single (exec_jbAdd_of_full hsize' ?_), hparams, ?_, ?_,
      (State.channel_complete _).trans h.channel, h.filling, h.running⟩
    · rw [hqueue, hparams, List.length_take_of_le hfull]
      omega
    · rw [List.take_append_of_le_length hfull]
      exact hqueue
    · rw [State.complete_jbOverflowing, eq_comm, decide_eq_true_iff]
      omega

theorem execAll_adds_addRun {s : State} {ps : List Packet} (hqueue : s.jbQueue = [])
    (hover : s.jbOverflowing = false)
    (hsize : ∀ p ∈ ps, p.payload.length ≤ s.params.maxOperandBytes) :
    ∃ t, execAll (adds ps) s = .next t ∧ AddRun s ps t := by
  induction ps using List.reverseRecOn with
  | nil => exact ⟨s, rfl, rfl, hqueue, hover, rfl, rfl, rfl⟩
  | append_singleton ps p ih =>
    obtain ⟨t, ht, hrun⟩ := ih fun q hq => hsize q (List.mem_append_left _ hq)
    obtain ⟨u, hu, hrun'⟩ := hrun.add (hsize p (by simp))
    refine ⟨u, ?_, hrun'⟩
    rw [← hu, ← execAll_append ht, adds, List.map_append]
    rfl

/-- Settles O42: by induction on the packets, from the last. -/
theorem backToBackAddsDropAfterCapacity : Obligations.BackToBackAddsDropAfterCapacity := by
  intro s ps hqueue hover hsize
  obtain ⟨t, ht, hrun⟩ := execAll_adds_addRun hqueue hover hsize
  exact ⟨t, ht, hrun.queue, hrun.overflowing, hrun.channel, hrun.filling, hrun.running⟩

/-! ## One JB_ADD then one JB_TICK per period (R238) -/

/-- From s to t one packet a period was added, from a started, filling, empty buffer: with H the
half-full threshold and n the periods so far, the first n + 1 - H packets have left. -/
structure PacedRun (s : State) (ps : List Packet) (t : State) : Prop where
  params : t.params = s.params
  running : t.jbRunning = true
  overflowing : t.jbOverflowing = false
  emitted : dataPackets t.channel =
    dataPackets s.channel ++ ps.take (ps.length + 1 - s.params.maxPackets / 2)
  queue : t.jbQueue = ps.drop (ps.length + 1 - s.params.maxPackets / 2)
  filling : t.jbFilling = decide (ps.length < s.params.maxPackets / 2)

section Period

variable {s t : State} {ps : List Packet} (h : PacedRun s ps t)
  (hcapacity : 2 ≤ s.params.maxPackets)
include h

theorem PacedRun.queue_length :
    t.jbQueue.length = ps.length - (ps.length + 1 - s.params.maxPackets / 2) := by
  rw [h.queue, List.length_drop]

include hcapacity

theorem PacedRun.enqueue_queue (p : Packet) :
    (t.enqueue p).jbQueue = (ps ++ [p]).drop (ps.length + 1 - s.params.maxPackets / 2) := by
  rw [State.enqueue_jbQueue, h.queue, List.drop_append_of_le_length (by omega)]

/-- While fewer than H packets have been added, the tick's own period included, it emits nothing. -/
theorem PacedRun.tick_of_below (p : Packet)
    (hbelow : ps.length + 1 < s.params.maxPackets / 2) :
    PacedRun s (ps ++ [p]) (jbTick (t.enqueue p)) := by
  have hlen : (ps ++ [p]).length = ps.length + 1 := List.length_append
  have hnone : ps.length + 1 - s.params.maxPackets / 2 = 0 := by omega
  have hnone' : (ps ++ [p]).length + 1 - s.params.maxPackets / 2 = 0 := by omega
  have hfill : t.jbFilling = true := by
    rw [h.filling, decide_eq_true_iff]
    omega
  have hshort : (t.enqueue p).jbQueue.length < (t.enqueue p).params.maxPackets / 2 := by
    rw [h.enqueue_queue hcapacity, State.enqueue_params, h.params, List.length_drop]
    omega
  rw [jbTick_of_filling (s := t.enqueue p) h.running (by simp) hfill hshort]
  refine ⟨h.params, h.running, rfl, ?_, ?_, ?_⟩
  · have hnothing : dataPackets t.channel = dataPackets s.channel := by
      rw [h.emitted, hnone, List.take_zero, List.append_nil]
    rw [State.channel_complete, hnone', List.take_zero, List.append_nil, ← hnothing]
    exact congrArg dataPackets (State.channel_enqueue t p)
  · rw [hnone', ← hnone]
    exact h.enqueue_queue hcapacity p
  · refine hfill.trans (Eq.symm ?_)
    rw [decide_eq_true_iff]
    omega

/-- From H packets on, the queue holds H of them after the JB_ADD, so the tick emits the oldest. -/
theorem PacedRun.tick_of_ready (p : Packet)
    (hready : s.params.maxPackets / 2 ≤ ps.length + 1) :
    PacedRun s (ps ++ [p]) (jbTick (t.enqueue p)) := by
  have hlen : (ps ++ [p]).length = ps.length + 1 := List.length_append
  have hlt : ps.length + 1 - s.params.maxPackets / 2 < (ps ++ [p]).length := by omega
  have hnext : (ps ++ [p]).length + 1 - s.params.maxPackets / 2 =
    ps.length + 1 - s.params.maxPackets / 2 + 1 := by omega
  have hqueue := h.enqueue_queue hcapacity p
  have hhalf : (t.enqueue p).jbQueue.length = (t.enqueue p).params.maxPackets / 2 := by
    rw [hqueue, State.enqueue_params, h.params, List.length_drop]
    omega
  rw [List.drop_eq_getElem_cons hlt] at hqueue
  rw [jbTick_of_ready (s := t.enqueue p) h.running hqueue (.inr hhalf.ge)]
  refine ⟨h.params, h.running, overflowAfterRecovery_of_le hhalf.le, ?_, ?_, ?_⟩
  · rw [State.channel_complete, State.channel_emit, dataPackets_append, hnext,
      List.take_succ_eq_append_getElem hlt, List.take_append_of_le_length (by omega),
      ← List.append_assoc, ← h.emitted]
    exact congrArg (dataPackets · ++ _) (State.channel_enqueue t p)
  · rw [hnext]
    rfl
  · rw [State.complete_jbFilling, State.emit_jbFilling, eq_comm, decide_eq_false_iff_not]
    omega

theorem PacedRun.period {p : Packet} (hsize : p.payload.length ≤ s.params.maxOperandBytes) :
    ∃ u, execAll (addThenTick [p]) t = .next u ∧ PacedRun s (ps ++ [p]) u := by
  have hroom : t.jbQueue.length ≤ t.params.maxPackets := by
    rw [h.queue_length, h.params]
    omega
  refine ⟨_, execAll_period (by rwa [h.params]) h.overflowing hroom, ?_⟩
  obtain hbelow | hready := Nat.lt_or_ge (ps.length + 1) (s.params.maxPackets / 2)
  · exact h.tick_of_below hcapacity p hbelow
  · exact h.tick_of_ready hcapacity p hready

end Period

theorem execAll_addThenTick_pacedRun {s : State} {ps : List Packet}
    (hcapacity : 2 ≤ s.params.maxPackets) (hqueue : s.jbQueue = []) (hfill : s.jbFilling = true)
    (hover : s.jbOverflowing = false) (hrun : s.jbRunning = true)
    (hsize : ∀ p ∈ ps, p.payload.length ≤ s.params.maxOperandBytes) :
    ∃ t, execAll (addThenTick ps) s = .next t ∧ PacedRun s ps t := by
  induction ps using List.reverseRecOn with
  | nil =>
    refine ⟨s, rfl, rfl, hrun, hover, by simp, by simpa using hqueue, ?_⟩
    rw [hfill, eq_comm, decide_eq_true_iff, List.length_nil]
    omega
  | append_singleton ps p ih =>
    obtain ⟨t, ht, hpaced⟩ := ih fun q hq => hsize q (List.mem_append_left _ hq)
    obtain ⟨u, hu, hpaced'⟩ := hpaced.period hcapacity (hsize p (by simp))
    refine ⟨u, ?_, hpaced'⟩
    rw [← hu, ← execAll_append ht, addThenTick, List.flatMap_append]
    rfl

/-- Settles O43: by induction on the packets, from the last. -/
theorem pacingEmitsAfterHalfFull : Obligations.PacingEmitsAfterHalfFull := by
  intro s ps hlegal hqueue hfill hover hrun hsize
  have hcapacity := ((legalParams_iff s.params).mp hlegal).1
  obtain ⟨t, ht, hpaced⟩ := execAll_addThenTick_pacedRun hcapacity hqueue hfill hover hrun hsize
  exact ⟨t, ht, hpaced.emitted, hpaced.queue, hpaced.filling⟩

end Sys2Proof.Machine
end

section
/-! 43_mulaw.md: the fields of a mu-law byte, ULAW_ENC and ULAW_DEC as inverses up to the segment's
step (R265 to R269), and the two stream commands (R270 to R273). -/
namespace Sys2Proof.Machine

/-! ## The fields of a mu-law byte (R264, R265) -/

/-- The segment a mu-law byte carries in its inverted bits 6 to 4. -/
def codeSegment (u : Byte) : Nat := 7 - u.toNat / 16 % 8

/-- The mantissa a mu-law byte carries in its inverted bits 3 to 0. -/
def codeMantissa (u : Byte) : Nat := 15 - u.toNat % 16

theorem codeSegment_le (u : Byte) : codeSegment u ≤ 7 := Nat.sub_le ..

theorem codeMantissa_le (u : Byte) : codeMantissa u ≤ 15 := Nat.sub_le ..

theorem segment_of_not (u : Byte) : ((~~~u).extractLsb' 4 3).toNat = codeSegment u := by
  rw [extractLsb'_toNat_div, BitVec.toNat_not, codeSegment]
  omega

theorem mantissa_of_not (u : Byte) : ((~~~u).extractLsb' 0 4).toNat = codeMantissa u := by
  rw [extractLsb'_toNat_div, BitVec.toNat_not, codeMantissa]
  omega

theorem sign_of_not (u : Byte) : (~~~u).getLsbD 7 = decide (u.toNat < 128) := by
  apply bool_eq_of_toNat_eq
  rw [getLsbD_toNat, BitVec.toNat_not]
  by_cases h : u.toNat < 128
  all_goals
    simp only [h, decide_true, decide_false, Bool.toNat_true, Bool.toNat_false]
    omega

/-- A byte is its sign, its segment and its mantissa, each inverted. -/
theorem toNat_eq_of_fields (u : Byte) :
    u.toNat = (if u.toNat < 128 then 127 else 255) - (16 * codeSegment u + codeMantissa u) := by
  unfold codeSegment codeMantissa
  split <;> omega

/-! ## Decoded magnitudes (R266, R267) -/

theorem ulawExpand_eq (seg mant : Nat) :
    ulawExpand seg mant = (8 * mant + 132) * 2 ^ seg - 132 := by
  simp [ulawExpand, asl, ulawBias, mul_comm]

/-- The decoded magnitude with its bias in quarters, the unit of ULAW_ENC's magnitudes. -/
theorem ulawExpand_eq_four_mul (seg mant : Nat) :
    ulawExpand seg mant = 4 * ((2 * mant + 33) * 2 ^ seg : Nat) - 132 := by
  rw [ulawExpand_eq]
  push_cast
  ring

theorem expanded_bounds {seg mant : Nat} (hseg : seg ≤ 7) (hmant : mant ≤ 15) :
    33 ≤ (2 * mant + 33) * 2 ^ seg ∧ (2 * mant + 33) * 2 ^ seg ≤ 8064 := by
  have hlow : 1 ≤ 2 ^ seg := Nat.one_le_two_pow
  have hhigh : 2 ^ seg ≤ 2 ^ 7 := Nat.pow_le_pow_right (by omega) hseg
  constructor
  · calc 33 ≤ (2 * mant + 33) * 1 := by omega
      _ ≤ (2 * mant + 33) * 2 ^ seg := Nat.mul_le_mul_left _ hlow
  · calc (2 * mant + 33) * 2 ^ seg ≤ 63 * 2 ^ 7 := Nat.mul_le_mul (by omega) hhigh
      _ = 8064 := by norm_num

theorem ulawExpand_bounds {seg mant : Nat} (hseg : seg ≤ 7) (hmant : mant ≤ 15) :
    0 ≤ ulawExpand seg mant ∧ ulawExpand seg mant ≤ 32124 := by
  have h := expanded_bounds hseg hmant
  rw [ulawExpand_eq_four_mul]
  omega

theorem ulawExpand_pos {seg mant : Nat} (h : 0 < seg ∨ 0 < mant) : 0 < ulawExpand seg mant := by
  have hbig : 34 ≤ (2 * mant + 33) * 2 ^ seg := by
    obtain hseg | hmant := h
    · calc 34 ≤ (2 * mant + 33) * 2 ^ 1 := by omega
        _ ≤ (2 * mant + 33) * 2 ^ seg :=
          Nat.mul_le_mul_left _ (Nat.pow_le_pow_right (by omega) hseg)
    · calc 34 ≤ (2 * mant + 33) * 1 := by omega
        _ ≤ (2 * mant + 33) * 2 ^ seg := Nat.mul_le_mul_left _ Nat.one_le_two_pow
  rw [ulawExpand_eq_four_mul]
  omega

/-! ## ULAW_DEC (R265) -/

theorem ulawDecode_eq (u : Byte) :
    ulawDecode u = if u.toNat < 128 then -ulawExpand (codeSegment u) (codeMantissa u)
      else ulawExpand (codeSegment u) (codeMantissa u) := by
  simp only [ulawDecode, segment_of_not, mantissa_of_not, sign_of_not, decide_eq_true_eq]

theorem ulawDecode_bounds (u : Byte) : -32124 ≤ ulawDecode u ∧ ulawDecode u ≤ 32124 := by
  have h := ulawExpand_bounds (codeSegment_le u) (codeMantissa_le u)
  rw [ulawDecode_eq]
  split <;> omega

theorem exec_ulawDec {s : State} (hops : s.operands = []) (u : Byte) :
    exec (.ulawDec u) s = .next (s.respond (Response.ofValue (toWord (ulawDecode u)))) :=
  exec_runs _ s (by rw [hops]; rfl) (by rw [hops]; rfl)

/-- Settles O46: the inverted fields of the byte, expanded, and the sign in bit 7. -/
theorem decodedSampleFollowsTheFormula : Obligations.DecodedSampleFollowsTheFormula := by
  intro u s hops seg mant mag v
  have hmag : mag = ulawExpand (codeSegment u) (codeMantissa u) := (ulawExpand_eq ..).symm
  have hv : v = ulawDecode u := by rw [ulawDecode_eq, ← hmag]
  rw [hv]
  exact ⟨exec_ulawDec hops u, ulawDecode_bounds u⟩

/-! ## The byte of a sample (R260 to R264) -/

/-- The magnitude ULAW_ENC cuts into segment and mantissa: a quarter of the sample, clipped, biased
and kept within the last segment. -/
def codedMagnitude (x : Int) : Nat := min (ulawMagnitude (asr x 2)) 8191

theorem codedMagnitude_eq (x : Int) :
    codedMagnitude x = min (min (x / 4).natAbs 8159 + 33) 8191 := rfl

/-- The byte u carries the sign of the sample x, and the segment and the mantissa of its magnitude. -/
structure IsCode (x : Int) (u : Byte) : Prop where
  sign : u.toNat < 128 ↔ x < 0
  fields : IsSegMant (codedMagnitude x) (codeSegment u) (codeMantissa u)

theorem isCode_ulawEncode (x : Int) : IsCode x (ulawEncode x) := by
  obtain ⟨g, k, hnat, hfields⟩ := ulawEncode_spec x
  have hg := hfields.seg_lt
  have hk := hfields.mant_lt
  have hmask : ulawMask (asr x 2) = if x < 0 then 127 else 255 := by
    have hneg : asr x 2 < 0 ↔ x < 0 := by
      unfold asr
      omega
    simp only [ulawMask, hneg]
  rw [hmask] at hnat
  have hseg : codeSegment (ulawEncode x) = g := by
    rw [codeSegment, hnat]
    split <;> omega
  have hmant : codeMantissa (ulawEncode x) = k := by
    rw [codeMantissa, hnat]
    split <;> omega
  refine ⟨?_, by rwa [hseg, hmant]⟩
  rw [hnat]
  split <;> omega

/-- The leading 1 of a magnitude lies in one segment. -/
theorem IsSegMant.unique {m g k g' k' : Nat} (h : IsSegMant m g k) (h' : IsSegMant m g' k') :
    g = g' ∧ k = k' := by
  have hle : g + 5 < g' + 6 :=
    (Nat.pow_lt_pow_iff_right (by decide : 1 < 2)).mp (h.low.trans_lt h'.high)
  have hge : g' + 5 < g + 6 :=
    (Nat.pow_lt_pow_iff_right (by decide : 1 < 2)).mp (h'.low.trans_lt h.high)
  obtain rfl : g = g' := by omega
  have hquot := h.mant.symm.trans h'.mant
  exact ⟨rfl, by omega⟩

theorem IsCode.unique {x : Int} {u v : Byte} (hu : IsCode x u) (hv : IsCode x v) : u = v := by
  obtain ⟨hseg, hmant⟩ := hu.fields.unique hv.fields
  apply BitVec.eq_of_toNat_eq
  rw [toNat_eq_of_fields u, toNat_eq_of_fields v, hseg, hmant]
  simp only [hu.sign, hv.sign]

/-! ## The error of a round trip from a sample (R268) -/

/-- The magnitudes of one segment and mantissa, times 4, fill an interval of the segment's step,
8 2^seg; the decoding with its bias is the middle of that interval. -/
theorem ulawExpand_near_magnitude {g k m : Nat} (h : IsSegMant m g k) :
    ulawExpand g k + 132 ≤ 4 * m + 4 * (2 ^ g : Nat) ∧
      4 * m + 4 ≤ ulawExpand g k + 132 + 4 * (2 ^ g : Nat) := by
  obtain ⟨hlow, hhigh⟩ := (Nat.div_eq_iff (Nat.two_pow_pos _)).mp h.mant
  have hstart : (16 + k) * 2 ^ (g + 1) = 32 * 2 ^ g + 2 * (k * 2 ^ g) := by ring
  have hexpand : ulawExpand g k = 8 * (k * 2 ^ g : Nat) + 132 * (2 ^ g : Nat) - 132 := by
    rw [ulawExpand_eq]
    push_cast
    ring
  have hpos : 0 < 2 ^ g := Nat.two_pow_pos g
  rw [hexpand]
  rw [hstart] at hlow hhigh
  rw [Nat.pow_succ] at hhigh
  generalize k * 2 ^ g = p at *
  generalize 2 ^ g = q at *
  omega

/-- A clipped sample falls into the last interval of the last segment, whose decoding is the
largest. -/
theorem ulawExpand_of_clipped {g k : Nat} (h : IsSegMant 8191 g k) :
    g = 7 ∧ ulawExpand g k = 32124 := by
  have hlast : IsSegMant 8191 7 15 := by constructor <;> decide
  obtain ⟨rfl, rfl⟩ := h.unique hlast
  exact ⟨rfl, rfl⟩

/-- The error of the magnitude: below the clip half a step and the two bits that were shifted out,
above it the distance to the largest decoding. -/
theorem magnitude_error {x : Int} {g k : Nat} (h : IsSegMant (codedMagnitude x) g k)
    (hlow : -32768 ≤ x) (hhigh : x ≤ 32767) :
    (ulawExpand g k - x.natAbs).natAbs ≤ 8 * 2 ^ g ∧
      (ulawExpand g k - x.natAbs).natAbs ≤ 644 := by
  rw [codedMagnitude_eq] at h
  obtain hin | hclip : (x / 4).natAbs ≤ 8158 ∨ 8159 ≤ (x / 4).natAbs := by omega
  · have hnear := ulawExpand_near_magnitude h
    have hpos : 1 ≤ 2 ^ g := Nat.one_le_two_pow
    have hstep : 2 ^ g ≤ 2 ^ 7 := Nat.pow_le_pow_right (by decide) (Nat.le_of_lt_succ h.seg_lt)
    generalize 2 ^ g = q at *
    omega
  · rw [show min (min (x / 4).natAbs 8159 + 33) 8191 = 8191 by omega] at h
    obtain ⟨rfl, hexpand⟩ := ulawExpand_of_clipped h
    rw [hexpand]
    omega

theorem IsCode.ulawDecode_eq {x : Int} {u : Byte} (h : IsCode x u) :
    ulawDecode u = if x < 0 then -ulawExpand (codeSegment u) (codeMantissa u)
      else ulawExpand (codeSegment u) (codeMantissa u) := by
  simp only [Machine.ulawDecode_eq, h.sign]

theorem IsCode.decode_error {x : Int} {u : Byte} (h : IsCode x u) (hlow : -32768 ≤ x)
    (hhigh : x ≤ 32767) :
    (ulawDecode u - x).natAbs ≤ 8 * 2 ^ codeSegment u ∧ (ulawDecode u - x).natAbs ≤ 644 := by
  have herror := magnitude_error h.fields hlow hhigh
  have habs : (ulawDecode u - x).natAbs =
      (ulawExpand (codeSegment u) (codeMantissa u) - x.natAbs).natAbs := by
    rw [h.ulawDecode_eq]
    split <;> omega
  rwa [habs]

/-! ## Round trips from a byte (R269) -/

theorem isSegMant_expanded {g k : Nat} (hg : g < 8) (hk : k < 16) :
    IsSegMant ((2 * k + 33) * 2 ^ g) g k where
  seg_lt := hg
  mant_lt := hk
  low := by
    rw [show 2 ^ (g + 5) = 32 * 2 ^ g by ring]
    exact Nat.mul_le_mul_right _ (by omega)
  high := by
    rw [show 2 ^ (g + 6) = 64 * 2 ^ g by ring]
    exact Nat.mul_lt_mul_of_pos_right (by omega) (Nat.two_pow_pos g)
  mant := by
    rw [Nat.pow_succ', Nat.mul_div_mul_right _ _ (Nat.two_pow_pos g)]
    omega

theorem codedMagnitude_ulawDecode (u : Byte) :
    codedMagnitude (ulawDecode u) = (2 * codeMantissa u + 33) * 2 ^ codeSegment u := by
  have hbounds := expanded_bounds (codeSegment_le u) (codeMantissa_le u)
  rw [codedMagnitude_eq, ulawDecode_eq, ulawExpand_eq_four_mul]
  generalize (2 * codeMantissa u + 33) * 2 ^ codeSegment u = m at *
  split <;> omega

/-- 0x7F is the only byte with the sign of a negative sample and the magnitude 0. -/
theorem ulawDecode_neg_iff {u : Byte} (hu : u ≠ 0x7F) : ulawDecode u < 0 ↔ u.toNat < 128 := by
  have hnonneg := (ulawExpand_bounds (codeSegment_le u) (codeMantissa_le u)).1
  rw [ulawDecode_eq]
  split
  · rename_i hsign
    have hfields : 0 < codeSegment u ∨ 0 < codeMantissa u := by
      have hne : u.toNat ≠ 127 := fun h => hu (BitVec.eq_of_toNat_eq h)
      have hnat := toNat_eq_of_fields u
      rw [if_pos hsign] at hnat
      omega
    have hpos := ulawExpand_pos hfields
    omega
  · omega

theorem isCode_ulawDecode {u : Byte} (hu : u ≠ 0x7F) : IsCode (ulawDecode u) u where
  sign := (ulawDecode_neg_iff hu).symm
  fields := by
    rw [codedMagnitude_ulawDecode]
    exact isSegMant_expanded (Nat.lt_succ_of_le (codeSegment_le u))
      (Nat.lt_succ_of_le (codeMantissa_le u))

theorem ulawEncode_ulawDecode (u : Byte) :
    ulawEncode (ulawDecode u) = if u = 0x7F then 0xFF else u := by
  split
  · rename_i hu
    rw [hu]
    decide
  · rename_i hu
    exact (isCode_ulawEncode _).unique (isCode_ulawDecode hu)

/-! ## Companding (R268, R269) -/

/-- A decoded sample as the 16-bit operand ULAW_ENC takes. -/
theorem toInt_ofInt_ulawDecode (u : Byte) :
    (BitVec.ofInt 16 (ulawDecode u)).toInt = ulawDecode u := by
  have h := ulawDecode_bounds u
  exact BitVec.toInt_ofInt_eq_self (by decide) (by norm_num; omega) (by norm_num; omega)

theorem signExtend_ofInt_ulawDecode (u : Byte) :
    (BitVec.ofInt 16 (ulawDecode u)).signExtend 32 = toWord (ulawDecode u) := by
  rw [BitVec.signExtend, toInt_ofInt_ulawDecode, toWord]

/-- Settles O47: the byte of a sample carries its fields, and a byte is the byte of its decoding. -/
theorem compandingErrorIsBounded : Obligations.CompandingErrorIsBounded := by
  intro s hops answered
  refine ⟨fun x => ?_, fun u => ?_⟩
  · have hlow := BitVec.le_toInt x
    have hhigh := BitVec.toInt_lt (x := x)
    obtain ⟨hstep, hmax⟩ :=
      (isCode_ulawEncode x.toInt).decode_error (by omega) (by omega)
    refine ⟨ulawEncode x.toInt, ulawDecode (ulawEncode x.toInt), exec_ulawEnc x hops,
      exec_ulawDec hops _, hstep, hmax, ?_, ?_⟩
    all_goals
      rintro rfl
      decide
  · refine ⟨BitVec.ofInt 16 (ulawDecode u), ?_, ?_, ?_⟩
    · rw [signExtend_ofInt_ulawDecode]
      exact exec_ulawDec hops u
    · have hbyte : (ulawEncode (BitVec.ofInt 16 (ulawDecode u)).toInt).setWidth 32 =
          if u = 0x7F then (0xFF : Word) else u.setWidth 32 := by
        rw [toInt_ofInt_ulawDecode, ulawEncode_ulawDecode]
        split <;> rfl
      rw [← hbyte]
      exact exec_ulawEnc _ hops
    · rintro rfl
      decide

/-! ## The stream commands behind the checks (R270, R272, R322) -/

theorem exec_ulawEncStream {s : State} {pcm : Bytes} (hops : s.operands = [.bytes pcm])
    (hsize : pcm.length ≤ s.params.maxOperandBytes) (width : SampleWidth) (ch : Channels) :
    exec (.ulawEncStream width ch) s =
      .next (s.respond (Response.ofBytes (ulawEncodeStream width ch pcm))) := by
  rw [exec_runs _ s (by rw [hops]; rfl) (by rw [hops]; exact sizeOk_bytes hsize), ruleOf, hops,
    bytesArg]

theorem exec_ulawDecStream {s : State} {mu : Bytes} (hops : s.operands = [.bytes mu])
    (hsize : mu.length ≤ s.params.maxOperandBytes) (width : SampleWidth) (ch : Channels) :
    exec (.ulawDecStream width ch) s = .next (s.respond
      (if s.params.maxOperandBytes < mu.length * channelCount ch * sampleBytes width then
        Response.ofStatus .operandLimit
       else Response.ofBytes (ulawDecodeStream width ch mu))) := by
  rw [exec_runs _ s (by rw [hops]; rfl) (by rw [hops]; exact sizeOk_bytes hsize), ruleOf, hops,
    bytesArg, ulawDecStream_eq_respond]

/-! ## ULAW_ENC_STREAM (R272, R273) -/

theorem ulawEncodeStream_length (width : SampleWidth) (ch : Channels) (pcm : Bytes) :
    (ulawEncodeStream width ch pcm).length = pcm.length / pcmFrameBytes width ch := by
  simp [ulawEncodeStream]

theorem ulawEncodeStream_getElem? {width : SampleWidth} {ch : Channels} {pcm : Bytes} {k : Nat}
    (hk : k < (ulawEncodeStream width ch pcm).length) :
    (ulawEncodeStream width ch pcm)[k]? =
      some (ulawEncode (pcmSampleAt width pcm (k * pcmFrameBytes width ch))) := by
  rw [ulawEncodeStream_length] at hk
  simp [ulawEncodeStream, hk]

/-- Settles O48: the model's frame size and sample reader are those of the statement, case by case. -/
theorem encodeStreamTakesChannelZero : Obligations.EncodeStreamTakesChannelZero := by
  intro width ch pcm s hops hsize
  refine ⟨ulawEncodeStream width ch pcm, exec_ulawEncStream hops hsize width ch, ?_⟩
  have hlength := ulawEncodeStream_length width ch pcm
  have hbyte := fun k => ulawEncodeStream_getElem? (width := width) (ch := ch) (pcm := pcm) (k := k)
  cases width <;> cases ch <;> exact ⟨hlength, hbyte⟩

/-! ## ULAW_DEC_STREAM (R270, R271) -/

theorem pcmSample_length (width : SampleWidth) (v : Int) :
    (pcmSample width v).length = sampleBytes width := by
  cases width <;> rfl

/-- The samples of a decoded stream, one per channel for every byte. -/
def channelSamples (ch : Channels) (mu : Bytes) : List Int :=
  mu.flatMap fun u => List.replicate (channelCount ch) (ulawDecode u)

theorem ulawDecodeStream_eq (width : SampleWidth) (ch : Channels) (mu : Bytes) :
    ulawDecodeStream width ch mu = (channelSamples ch mu).flatMap (pcmSample width) := by
  rw [channelSamples, List.flatMap_assoc]
  simp only [List.flatMap_replicate]
  rfl

section Blocks
variable {α β : Type} {f : α → List β} {n : Nat} (hf : ∀ a, (f a).length = n)
include hf

theorem length_flatMap_of_const (l : List α) : (l.flatMap f).length = l.length * n := by
  simp [List.length_flatMap, hf]

/-- Blocks of one length: the k-th starts at k n. -/
theorem drop_flatMap_of_const (l : List α) (k : Nat) :
    (l.flatMap f).drop (k * n) = (l.drop k).flatMap f := by
  induction k generalizing l with
  | zero => simp
  | succ k ih =>
    cases l with
    | nil => simp
    | cons a as =>
      rw [List.flatMap_cons, List.drop_succ_cons, ← ih, Nat.succ_mul, Nat.add_comm, ← hf a,
        List.drop_length_add_append]

theorem exists_drop_flatMap_of_const {l : List α} {k : Nat} {a : α} (h : l[k]? = some a) :
    ∃ rest, (l.flatMap f).drop (k * n) = f a ++ rest := by
  rw [drop_flatMap_of_const hf, List.drop_eq_getElem?_toList_append, h]
  exact ⟨_, List.flatMap_cons⟩

end Blocks

theorem channelSamples_length (ch : Channels) (mu : Bytes) :
    (channelSamples ch mu).length = mu.length * channelCount ch :=
  length_flatMap_of_const (fun _ => List.length_replicate) mu

theorem channelSamples_getElem? {ch : Channels} {mu : Bytes} {k c : Nat} {u : Byte}
    (hu : mu[k]? = some u) (hc : c < channelCount ch) :
    (channelSamples ch mu)[k * channelCount ch + c]? = some (ulawDecode u) := by
  obtain ⟨rest, h⟩ := exists_drop_flatMap_of_const
    (f := fun u => List.replicate (channelCount ch) (ulawDecode u))
    (fun _ => List.length_replicate) hu
  rw [← List.getElem?_drop, channelSamples, h, List.getElem?_append_left (by simpa using hc)]
  simp [hc]

theorem ulawDecodeStream_length (width : SampleWidth) (ch : Channels) (mu : Bytes) :
    (ulawDecodeStream width ch mu).length = mu.length * channelCount ch * sampleBytes width := by
  rw [ulawDecodeStream_eq, length_flatMap_of_const (pcmSample_length width), channelSamples_length]

/-- The bytes of the stream from the sample of byte k in channel c on. -/
theorem exists_drop_ulawDecodeStream (width : SampleWidth) {ch : Channels} {mu : Bytes} {k c : Nat}
    {u : Byte} (hu : mu[k]? = some u) (hc : c < channelCount ch) :
    ∃ rest, (ulawDecodeStream width ch mu).drop ((k * channelCount ch + c) * sampleBytes width) =
      pcmSample width (ulawDecode u) ++ rest := by
  rw [ulawDecodeStream_eq]
  exact exists_drop_flatMap_of_const (pcmSample_length width) (channelSamples_getElem? hu hc)

theorem byteAt_eq_drop (S : Bytes) (k : Nat) : byteAt S k = byteAt (S.drop k) 0 :=
  (byteAt_drop S k 0).symm

theorem sle16_eq_drop (S : Bytes) (k : Nat) : sle16 S k = sle16 (S.drop k) 0 := by
  simp only [sle16, le16, byteAt_drop, Nat.add_zero, Nat.zero_add]

/-- An 8-bit sample is the high byte of the 16-bit one, offset by 128 (R116). -/
theorem byteAt_pcmSample_bits8 (u : Byte) (T : Bytes) :
    (byteAt (pcmSample .bits8 (ulawDecode u) ++ T) 0 : Int) = ulawDecode u / 256 + 128 := by
  have h := ulawDecode_bounds u
  have hshift : asr (ulawDecode u) 8 = ulawDecode u / 256 := rfl
  rw [pcmSample, List.cons_append, byteAt_cons_zero, byteOf_toNat, hshift]
  omega

theorem sle16_pcmSample_bits16 (u : Byte) (T : Bytes) :
    sle16 (pcmSample .bits16 (ulawDecode u) ++ T) 0 = ulawDecode u := by
  have h := ulawDecode_bounds u
  exact sle16_putLe16 (by omega) (by omega) T

/-- The sample of byte k in channel c, read from a 16-bit stream. -/
theorem sle16_ulawDecodeStream {ch : Channels} {mu : Bytes} {k c : Nat} {u : Byte}
    (hu : mu[k]? = some u) (hc : c < channelCount ch) :
    sle16 (ulawDecodeStream .bits16 ch mu) (2 * (k * channelCount ch + c)) = ulawDecode u := by
  obtain ⟨rest, h⟩ := exists_drop_ulawDecodeStream .bits16 hu hc
  rw [sle16_eq_drop, Nat.mul_comm 2]
  exact (congrArg (sle16 · 0) h).trans (sle16_pcmSample_bits16 u rest)

/-- The sample of byte k in channel c, read from an 8-bit stream. -/
theorem byteAt_ulawDecodeStream {ch : Channels} {mu : Bytes} {k c : Nat} {u : Byte}
    (hu : mu[k]? = some u) (hc : c < channelCount ch) :
    (byteAt (ulawDecodeStream .bits8 ch mu) (k * channelCount ch + c) : Int) =
      ulawDecode u / 256 + 128 := by
  obtain ⟨rest, h⟩ := exists_drop_ulawDecodeStream .bits8 hu hc
  rw [sampleBytes, Nat.mul_one] at h
  rw [byteAt_eq_drop, h, byteAt_pcmSample_bits8]

/-- Settles O49: the stream is one block per sample, so a sample is read at its block's offset. -/
theorem decodeStreamReplicatesChannels : Obligations.DecodeStreamReplicatesChannels := by
  intro width ch mu s hops hsize w n
  have hw : w = sampleBytes width := by cases width <;> rfl
  have hn : n = channelCount ch := by cases ch <;> rfl
  have hexec := exec_ulawDecStream hops hsize width ch
  rw [hw, hn]
  refine ⟨fun hfits => ?_, fun hlong => ?_⟩
  · rw [if_neg (Nat.not_lt.mpr hfits)] at hexec
    refine ⟨_, hexec, ulawDecodeStream_length width ch mu, fun k c u hu hc => ?_⟩
    cases width with
    | bits8 => exact byteAt_ulawDecodeStream hu hc
    | bits16 => exact sle16_ulawDecodeStream hu hc
  · rw [if_pos hlong] at hexec
    exact hexec

end Sys2Proof.Machine
end

section
/-! 44_mixer.md: the longest stream, the sums and the peak of MIX (R290 to R297), 16-bit samples
written one after the other, and the differences of SUB16 (R300 to R302). -/
namespace Sys2Proof.Machine

/-! ## The two commands behind the checks (R290, R300, R322) -/

theorem exec_mix {s : State} {streams : List Bytes} (hops : s.operands = [.list streams])
    (hcount : streams.length ≤ s.params.maxStreams)
    (hsize : ∀ b ∈ streams, b.length ≤ s.params.maxOperandBytes) (width : SampleWidth) :
    exec (.mix width) s = .next (s.respond (mixResponse width streams)) := by
  rw [exec_runs _ s (by rw [hops]; rfl) (by rw [hops]; exact sizeOk_list hcount hsize), ruleOf,
    hops, listArg]

theorem exec_sub16 {s : State} {src sub : Bytes} (hops : s.operands = [.bytes src, .bytes sub])
    (hsrc : src.length ≤ s.params.maxOperandBytes) (hsub : sub.length ≤ s.params.maxOperandBytes) :
    exec .sub16 s = .next (s.respond (Response.ofBytes (sub16Bytes src sub))) := by
  rw [exec_runs _ s (by rw [hops]; rfl) (by rw [hops]; exact sizeOk_bytesBytes hsrc hsub), ruleOf,
    hops, bytesArg, bytesArg2]

/-! ## Clamps and largest values -/

theorem clamp_eq_max_min {lo hi : Int} (h : lo ≤ hi) (v : Int) :
    clamp v lo hi = max lo (min hi v) := by
  unfold clamp
  split
  · omega
  · split <;> omega

theorem clampS16_eq_max_min (v : Int) : clampS16 v = max (-32768) (min 32767 v) :=
  clamp_eq_max_min (by decide) v

theorem clampS16_bounds (v : Int) : -32768 ≤ clampS16 v ∧ clampS16 v ≤ 32767 :=
  clamp_bounds (by decide) v

/-- A running maximum is its start or an element, and is at least each of them. -/
theorem foldl_max_spec {α : Type} [LinearOrder α] (a : α) (l : List α) :
    l.foldl max a ∈ a :: l ∧ ∀ b ∈ a :: l, b ≤ l.foldl max a :=
  List.max?_eq_some_iff.mp List.max?_cons'

/-! ## The length of the longest stream (R291, R297) -/

theorem longest_eq_foldl_max (streams : List Bytes) :
    longest streams = (streams.map List.length).foldl max 0 := by
  rw [longest, List.foldl_map]

theorem length_le_longest {streams : List Bytes} {b : Bytes} (hb : b ∈ streams) :
    b.length ≤ longest streams := by
  rw [longest_eq_foldl_max]
  exact (foldl_max_spec 0 _).2 _ (List.mem_cons_of_mem _ (List.mem_map_of_mem hb))

theorem longest_eq_zero_or_exists (streams : List Bytes) :
    longest streams = 0 ∨ ∃ b ∈ streams, b.length = longest streams := by
  have hmem := (foldl_max_spec 0 (streams.map List.length)).1
  rw [← longest_eq_foldl_max] at hmem
  simpa using hmem

theorem longest_replicate_nil (n : Nat) : longest (List.replicate n []) = 0 := by
  obtain h | ⟨b, hb, h⟩ := longest_eq_zero_or_exists (List.replicate n [])
  · exact h
  · rw [← h, List.eq_of_mem_replicate hb, List.length_nil]

theorem longest_singleton (b : Bytes) : longest [b] = b.length := Nat.zero_max _

/-! ## The sums at a position (R292, R295, R296) -/

theorem sampleOr0_bounds (b : Bytes) (i : Nat) :
    -32768 ≤ sampleOr0 b i ∧ sampleOr0 b i ≤ 32767 := by
  unfold sampleOr0
  split
  · exact sle16_bounds b (2 * i)
  · decide

theorem mixSum16_bounds (streams : List Bytes) (i : Nat) :
    -32768 ≤ mixSum16 streams i ∧ mixSum16 streams i ≤ 32767 :=
  List.foldlRecOn (motive := fun v => -32768 ≤ v ∧ v ≤ 32767) streams _ (by decide)
    fun _ _ _ _ => clampS16_bounds _

theorem mixSum16_singleton (b : Bytes) (i : Nat) : mixSum16 [b] i = sampleOr0 b i := by
  obtain ⟨hlow, hhigh⟩ := sampleOr0_bounds b i
  rw [mixSum16, List.foldl_cons, List.foldl_nil, Int.zero_add]
  exact clamp_of_mem hlow hhigh

/-- The 8-bit sum as a number: bytes are not negative, so only the upper clamp acts (R295). -/
def mixByteSum (streams : List Bytes) (i : Nat) : Nat :=
  streams.foldl (fun acc b => min 255 (acc + if i < b.length then byteAt b i else 0)) 0

theorem clamp_add_byteOr0 (acc : Nat) (b : Bytes) (i : Nat) :
    clamp (acc + byteOr0 b i) 0 255 =
      (min 255 (acc + if i < b.length then byteAt b i else 0) : Nat) := by
  rw [clamp_eq_max_min (by decide), byteOr0]
  split <;> omega

theorem mixSum8_eq_mixByteSum (streams : List Bytes) (i : Nat) :
    mixSum8 streams i = mixByteSum streams i :=
  List.foldl_hom Nat.cast fun acc b => clamp_add_byteOr0 acc b i

theorem mixByteSum_le (streams : List Bytes) (i : Nat) : mixByteSum streams i ≤ 255 :=
  List.foldlRecOn (motive := (· ≤ 255)) streams _ (by decide) fun _ _ _ _ => Nat.min_le_left ..

theorem mixByteSum_singleton {b : Bytes} {i : Nat} (hi : i < b.length) :
    mixByteSum [b] i = byteAt b i := by
  have hbyte := byteAt_lt b i
  rw [mixByteSum, List.foldl_cons, List.foldl_nil, if_pos hi]
  omega

theorem mixSums_bits8 (streams : List Bytes) :
    mixSums .bits8 streams =
      (List.range (longest streams)).map fun i => (mixByteSum streams i : Int) :=
  List.map_congr_left fun i _ => mixSum8_eq_mixByteSum streams i

/-! ## The peak (R293) -/

theorem mixPeak_nonneg (width : SampleWidth) (streams : List Bytes) : 0 ≤ mixPeak width streams :=
  (foldl_max_spec _ _).2 0 List.mem_cons_self

theorem le_mixPeak {width : SampleWidth} {streams : List Bytes} {v : Int}
    (hv : v ∈ mixSums width streams) : v ≤ mixPeak width streams :=
  (foldl_max_spec _ _).2 v (List.mem_cons_of_mem _ hv)

theorem mixPeak_eq_zero_or_mem (width : SampleWidth) (streams : List Bytes) :
    mixPeak width streams = 0 ∨ mixPeak width streams ∈ mixSums width streams :=
  List.mem_cons.mp (foldl_max_spec _ _).1

/-! ## 16-bit samples in a buffer of a given length (R291, R302) -/

/-- n bytes: the samples of the whole positions in order, and 0 for an odd last byte. -/
def pcm16 (n : Nat) (sample : Nat → Int) : Bytes :=
  (List.range (n / 2)).flatMap (fun i => putLe16 (sample i)) ++ List.replicate (n % 2) 0

theorem mixBytes_bits16 (streams : List Bytes) :
    mixBytes .bits16 streams = pcm16 (longest streams) (mixSum16 streams) := by
  rw [mixBytes, mixSums, List.flatMap_map, pcm16]

theorem sub16Bytes_eq_pcm16 (src sub : Bytes) :
    sub16Bytes src sub =
      pcm16 src.length fun i => clampS16 (sle16 src (2 * i) - sampleOr0 sub i) := rfl

theorem flatMap_putLe16_length (n : Nat) (sample : Nat → Int) :
    ((List.range n).flatMap fun i => putLe16 (sample i)).length = 2 * n := by
  rw [length_flatMap_of_const (fun _ => putLe16_length _), List.length_range, Nat.mul_comm]

@[simp] theorem pcm16_length (n : Nat) (sample : Nat → Int) : (pcm16 n sample).length = n := by
  rw [pcm16, List.length_append, flatMap_putLe16_length, List.length_replicate]
  exact Nat.div_add_mod n 2

/-- A sample in range is read back at its position. -/
theorem sle16_pcm16 {n i : Nat} {sample : Nat → Int} (hi : i < n / 2)
    (hrange : -32768 ≤ sample i ∧ sample i ≤ 32767) : sle16 (pcm16 n sample) (2 * i) = sample i := by
  obtain ⟨rest, hrest⟩ := exists_drop_flatMap_of_const (f := fun i => putLe16 (sample i))
    (fun _ => putLe16_length _) (List.getElem?_range hi)
  have hfits : i * 2 ≤ ((List.range (n / 2)).flatMap fun i => putLe16 (sample i)).length := by
    rw [flatMap_putLe16_length]
    omega
  rw [sle16_eq_drop, Nat.mul_comm, pcm16, List.drop_append_of_le_length hfits, hrest,
    List.append_assoc]
  exact sle16_putLe16 hrange.1 hrange.2 _

theorem byteAt_pcm16_last {n : Nat} (hodd : n % 2 = 1) (sample : Nat → Int) :
    byteAt (pcm16 n sample) (n - 1) = 0 := by
  have hlast : n - 1 = ((List.range (n / 2)).flatMap fun i => putLe16 (sample i)).length + 0 := by
    rw [flatMap_putLe16_length]
    omega
  rw [hlast, pcm16, byteAt_append_right, hodd]
  rfl

/-! ## Bytes written back as they were read (R297) -/

theorem sle16_emod (S : Bytes) (k : Nat) : sle16 S k % 65536 = le16 S k := by
  have hlow := byteAt_lt S k
  have hhigh := byteAt_lt S (k + 1)
  have hlt : le16 S k < 65536 := by
    unfold le16
    omega
  rw [sle16]
  obtain ⟨-, h⟩ | ⟨-, h⟩ := signed16_cases (le16 S k)
  all_goals
    rw [h]
    omega

theorem putLe16_sle16 (S : Bytes) (k : Nat) :
    putLe16 (sle16 S k) = [S.getD k 0, S.getD (k + 1) 0] := by
  have hlow := byteAt_lt S k
  have hhigh := byteAt_lt S (k + 1)
  have hmod := sle16_emod S k
  rw [le16] at hmod
  have hbyte : ∀ {c j}, (byteOf (sle16 S k) c).toNat = byteAt S j →
      byteOf (sle16 S k) c = S.getD j 0 := BitVec.eq_of_toNat_eq
  rw [putLe16, hbyte (c := 0) (j := k) (by rw [byteOf_toNat]; omega),
    hbyte (c := 1) (j := k + 1) (by rw [byteOf_toNat]; omega)]

theorem flatMap_putLe16_sampleOr0 {b : Bytes} {n : Nat} (hn : 2 * n ≤ b.length) :
    ((List.range n).flatMap fun i => putLe16 (sampleOr0 b i)) = b.take (2 * n) := by
  induction n with
  | zero => rfl
  | succ n ih =>
    have hsample : putLe16 (sampleOr0 b n) = [b[2 * n], b[2 * n + 1]] := by
      rw [sampleOr0, if_pos (by omega), putLe16_sle16, List.getD_eq_getElem, List.getD_eq_getElem]
    rw [List.range_succ, List.flatMap_append, ih (by omega), List.flatMap_singleton, hsample,
      Nat.mul_succ, ← List.take_concat_get' b (2 * n + 1) (by omega),
      ← List.take_concat_get' b (2 * n) (by omega), List.append_assoc]
    rfl

theorem byteOf_byteAt (S : Bytes) (k : Nat) : byteOf (byteAt S k) 0 = S.getD k 0 := by
  have hbyte := byteAt_lt S k
  refine byteOf_eq (by omega) ?_
  rw [Nat.mul_zero, Nat.pow_zero, Nat.div_one]
  exact Nat.mod_eq_of_lt hbyte

/-! ## The mixed bytes (R291) -/

theorem mixBytes_bits8 (streams : List Bytes) :
    mixBytes .bits8 streams =
      (List.range (longest streams)).map fun i => byteOf (mixByteSum streams i) 0 := by
  rw [mixBytes, mixSums_bits8, List.map_map]
  rfl

theorem mixBytes_length (width : SampleWidth) (streams : List Bytes) :
    (mixBytes width streams).length = longest streams := by
  cases width with
  | bits8 => rw [mixBytes_bits8, List.length_map, List.length_range]
  | bits16 => rw [mixBytes_bits16, pcm16_length]

/-- The result is empty, or as long as one of the streams. -/
theorem mixBytes_eq_nil_or_exists (width : SampleWidth) (streams : List Bytes) :
    mixBytes width streams = [] ∨ ∃ b ∈ streams, b.length = longest streams :=
  (longest_eq_zero_or_exists streams).imp_left fun h =>
    List.eq_nil_of_length_eq_zero ((mixBytes_length width streams).trans h)

theorem byteAt_mixBytes_bits8 {streams : List Bytes} {i : Nat} (hi : i < longest streams) :
    byteAt (mixBytes .bits8 streams) i = mixByteSum streams i := by
  have hle := mixByteSum_le streams i
  rw [mixBytes_bits8, byteAt, List.getD_eq_getElem _ _ (by simpa using hi), List.getElem_map,
    List.getElem_range, byteOf_natCast_toNat (by omega)]
  omega

theorem mixBytes_bits8_singleton (b : Bytes) : mixBytes .bits8 [b] = b := by
  refine List.ext_getElem ((mixBytes_length .bits8 [b]).trans (longest_singleton b)) ?_
  intro i _ hi
  simp only [mixBytes_bits8, List.getElem_map, List.getElem_range, mixByteSum_singleton hi,
    byteOf_byteAt, List.getD_eq_getElem _ _ hi]

theorem mixBytes_bits16_singleton (b : Bytes) :
    mixBytes .bits16 [b] = b.take (2 * (b.length / 2)) ++ List.replicate (b.length % 2) 0 := by
  rw [mixBytes_bits16, longest_singleton, pcm16, funext (mixSum16_singleton b),
    flatMap_putLe16_sampleOr0 (Nat.mul_div_le ..)]

/-! ## The responses (R290, R294, R295, R297) -/

theorem mixResponse_bits16 (streams : List Bytes) :
    mixResponse .bits16 streams =
      { Response.ofBytes (mixBytes .bits16 streams) with
        value := toWord (mixPeak .bits16 streams)
        ints := [(List.range (longest streams / 2)).map fun i => toWord (mixSum16 streams i),
          (List.range (longest streams / 2)).map fun i => toWord (mixSum16 streams i).natAbs] } := by
  simp only [mixResponse, mixAbs, mixSums, List.map_map]
  rfl

theorem mixResponse_bits8 (streams : List Bytes) :
    mixResponse .bits8 streams =
      { Response.ofBytes (mixBytes .bits8 streams) with
        value := toWord (mixPeak .bits8 streams)
        ints := [(List.range (longest streams)).map fun i => BitVec.ofNat 32 (mixByteSum streams i),
          []] } := by
  simp only [mixResponse, mixAbs, mixSums_bits8, List.map_map, List.map_nil, ← toWord_natCast]
  rfl

theorem mixResponse_of_longest_eq_zero {streams : List Bytes} (h : longest streams = 0)
    (width : SampleWidth) :
    mixResponse width streams = { Response.ofBytes [] with ints := [[], []] } := by
  have hsums : mixSums width streams = [] := by cases width <;> rw [mixSums, h] <;> rfl
  have habs : mixAbs width streams = [] := by
    cases width with
    | bits8 => rfl
    | bits16 => rw [mixAbs, hsums, List.map_nil]
  rw [mixResponse, List.eq_nil_of_length_eq_zero ((mixBytes_length width streams).trans h), mixPeak,
    hsums, habs]
  rfl

/-! ## The statements -/

/-- Settles O50: the model's sum at a position is the statement's, and each part of the response is
read from the sums. -/
theorem mixSixteenBitSums : Obligations.MixSixteenBitSums := by
  intro s streams hops hcount hsize sum
  have hsum : mixSum16 streams = sum := by
    funext i
    simp only [mixSum16, clampS16_eq_max_min, sampleOr0, sum]
  have hsums : mixSums .bits16 streams = (List.range (longest streams / 2)).map sum := by
    rw [mixSums, hsum]
  refine ⟨mixBytes .bits16 streams, mixPeak .bits16 streams, ?_⟩
  rw [mixBytes_length]
  refine ⟨?_, fun b => length_le_longest, mixBytes_eq_nil_or_exists _ _, fun i hi => ?_,
    fun hodd => ?_, mixPeak_nonneg _ _, fun i hi => ?_, ?_⟩
  · rw [exec_mix hops hcount hsize, mixResponse_bits16, hsum]
    rfl
  · rw [mixBytes_bits16, sle16_pcm16 hi (mixSum16_bounds streams i), hsum]
  · rw [mixBytes_bits16, byteAt_pcm16_last hodd]
  · refine le_mixPeak ?_
    rw [hsums]
    exact List.mem_map_of_mem (List.mem_range.mpr hi)
  · simpa [hsums] using mixPeak_eq_zero_or_mem .bits16 streams

/-- Settles O51: the sums are not negative, so they and the peak are the statement's numbers. -/
theorem mixEightBitSums : Obligations.MixEightBitSums := by
  intro s streams hops hcount hsize sum
  obtain ⟨peak, hpeak⟩ := Int.eq_ofNat_of_zero_le (mixPeak_nonneg .bits8 streams)
  refine ⟨mixBytes .bits8 streams, peak, ?_⟩
  rw [mixBytes_length]
  refine ⟨?_, fun b => length_le_longest, mixBytes_eq_nil_or_exists _ _,
    fun i => byteAt_mixBytes_bits8, fun i hi => ?_, ?_⟩
  · rw [exec_mix hops hcount hsize, mixResponse_bits8, hpeak, toWord_natCast]
    rfl
  · have hmem : (sum i : Int) ∈ mixSums .bits8 streams := by
      rw [mixSums_bits8]
      exact List.mem_map_of_mem (List.mem_range.mpr hi)
    have hle := le_mixPeak hmem
    omega
  · obtain h | h := mixPeak_eq_zero_or_mem .bits8 streams
    · exact .inl (by omega)
    · rw [mixSums_bits8, hpeak, List.mem_map] at h
      obtain ⟨i, hi, hval⟩ := h
      exact .inr ⟨i, List.mem_range.mp hi, Int.natCast_inj.mp hval⟩

/-- Settles O52: without a byte there is no position, and the one stream's samples are its sums. -/
theorem mixOfOneStreamIsACopy : Obligations.MixOfOneStreamIsACopy := by
  refine ⟨fun s width n hops hcount => ?_, fun s b hops hcount hsize => ?_⟩
  · have hempty : ∀ b ∈ List.replicate n ([] : Bytes), b.length ≤ s.params.maxOperandBytes := by
      intro b hb
      rw [List.eq_of_mem_replicate hb]
      exact Nat.zero_le _
    rw [exec_mix hops (by rwa [List.length_replicate]) hempty,
      mixResponse_of_longest_eq_zero (longest_replicate_nil n)]
    rfl
  · have hexec := exec_mix hops hcount (by simpa using hsize)
    exact ⟨⟨_, _, hexec .bits8, answered_respond s _, rfl,
        congrArg (fun out => [out]) (mixBytes_bits8_singleton b)⟩,
      ⟨_, _, hexec .bits16, answered_respond s _, rfl,
        congrArg (fun out => [out]) (mixBytes_bits16_singleton b)⟩⟩

/-- Settles O53: the result holds one clamped difference per position of the source. -/
theorem subtractClampsEachDifference : Obligations.SubtractClampsEachDifference := by
  intro s src sub hops hsrc hsub
  refine ⟨sub16Bytes src sub, exec_sub16 hops hsrc hsub, ?_⟩
  rw [sub16Bytes_eq_pcm16, pcm16_length]
  refine ⟨rfl, fun i hi => ?_, fun hodd => byteAt_pcm16_last hodd _⟩
  rw [sle16_pcm16 hi (clampS16_bounds _), clampS16_eq_max_min, sampleOr0]

end Sys2Proof.Machine
end

section
/-! 45_control.md: an operand over the instance's limits (R323), RD_REG of a reserved register (R321),
and the step as exec of the command taken (R322). -/
namespace Sys2Proof.Machine

open Sys2Proof.Laws

/-! ## An operand over the instance's limits (R323) -/

theorem operandFits_bytes_eq_false_iff {p : Params} {b : Bytes} :
    operandFits p (.bytes b) = false ↔ p.maxOperandBytes < b.length := by
  simp [operandFits]

theorem operandFits_pkt_eq_false_iff {p : Params} {q : Packet} :
    operandFits p (.pkt q) = false ↔ p.maxOperandBytes < q.payload.length := by
  simp [operandFits]

theorem operandFits_list_eq_false_iff {p : Params} {l : List Bytes} :
    operandFits p (.list l) = false ↔
      p.maxStreams < l.length ∨ ∃ b ∈ l, p.maxOperandBytes < b.length := by
  rw [operandFits, Bool.and_eq_false_iff, List.all_eq_false]
  simp

theorem exec_wrongSize {i : Instr} {s : State} (hshape : shapeOk (shapeOf i) s.operands = true)
    (hsize : sizeOk s.params s.operands = false) : exec i s = .next (s.refuse .operandLimit) := by
  simp [exec_eq_checked, checked, hshape, hsize]

/-- One operand over the limits is enough for OPERAND_LIMIT. -/
theorem exec_of_operand_not_fits {i : Instr} {s : State} {o : Operand}
    (hshape : shapeOk (shapeOf i) s.operands = true) (hmem : o ∈ s.operands)
    (hover : operandFits s.params o = false) :
    exec i s = .next (s.refuse .operandLimit) :=
  exec_wrongSize hshape (List.all_eq_false.mpr ⟨o, hmem, Bool.eq_false_iff.mp hover⟩)

/-- Settles O10: each form of oversize is one operand that does not fit. -/
theorem oversizeOperandIsRefused : Obligations.OversizeOperandIsRefused := by
  rintro i s hshape (⟨b, hmem, hlong⟩ | ⟨q, hmem, hlong⟩ | ⟨l, hmem, hover⟩)
  · exact exec_of_operand_not_fits hshape hmem (operandFits_bytes_eq_false_iff.mpr hlong)
  · exact exec_of_operand_not_fits hshape hmem (operandFits_pkt_eq_false_iff.mpr hlong)
  · exact exec_of_operand_not_fits hshape hmem (operandFits_list_eq_false_iff.mpr hover)

/-! ## RD_REG of a reserved register (R321) -/

theorem regValue_eq_none_of_reserved (s : State) {n : Nat} (hn : 6 ≤ n) : regValue s n = none := by
  match n, hn with
  | n + 6, _ => rfl

/-- Operands of the wrong shape and a reserved number get the same answer (R322). -/
theorem exec_rdReg_of_reserved {n : BitVec 16} (hn : 6 ≤ n.toNat) (s : State) :
    exec (.rdReg n) s = .next (s.refuse .illegalCommand) := by
  cases hshape : shapeOk .none s.operands with
  | false => exact exec_wrongShape hshape
  | true =>
    have hops : s.operands = [] := (shapeOk_none_iff _).mp hshape
    rw [exec_runs (.rdReg n) s hshape (by rw [hops, sizeOk_nil]), ruleOf, rdReg,
      regValue_eq_none_of_reserved s hn]

theorem decode_encode_rdReg_of_reserved {n : BitVec 16} (hn : 6 ≤ n.toNat) :
    decode (encode (.rdReg n)) = .error (.reservedRegister n) := by
  have hopc : fieldOpc (encode (.rdReg n)) = 0xF0 := EncodedOpcode.rdReg n
  have himm : fieldImm (encode (.rdReg n)) = n := fieldImm_packWord ..
  have hrow : decode (encode (.rdReg n)) = decodeRdRegRow (encode (.rdReg n)) := by
    rw [decode, hopc]
    rfl
  rw [hrow, decodeRdRegRow, himm, if_neg (Nat.not_le_of_gt hn)]

/-- Settles O16: exec refuses a reserved number, and so does the RD_REG row of the decoder. -/
theorem reservedRegisterIsRefused : Obligations.ReservedRegisterIsRefused := fun _ s hn =>
  ⟨exec_rdReg_of_reserved hn s, _, decode_encode_rdReg_of_reserved hn⟩

/-! ## The step runs the decoded command (R84, R322) -/

theorem runCommand_of_ok {c : Command} {i : Instr} (hd : decode c.word = .ok i) (s : State) :
    runCommand c s = exec i s := by
  rw [runCommand, hd]

/-- Settles O7: the chosen port's oldest command is taken and run, and its run is exec. -/
theorem stepRunsDecodedCommand : Obligations.StepRunsDecodedCommand :=
  fun _ _ _ _ _ hlegal hreset hp hq hd =>
    (step_of_choosePort hlegal hreset hp hq).trans (runCommand_of_ok hd _)

end Sys2Proof.Machine
end

section
/-! 70_reset_and_hazards.md: the step that performs a reset (R380 to R382), the register view right after
reset (R383), and the launch premise `clean` (R385). -/
namespace Sys2Proof.Machine

/-! ## The step that performs a reset (R382) -/

theorem step_of_resetPending {s : State} (hlegal : legalParams s.params = true)
    (hreset : s.resetPending = true) : step s = .next s.takeReset := by
  obtain ⟨hl, -⟩ | ⟨-, -, h⟩ | ⟨-, hr, -⟩ | ⟨-, hr, -⟩ := step_cases s
  case inr.inl => exact h
  case inl => simp [hlegal] at hl
  all_goals simp [hreset] at hr

/-- Settles O18: the step is `takeReset`, which keeps the history, the ports and the count, and takes the
rest from the reset state. -/
theorem resetDiscardsWithoutEvents : Obligations.ResetDiscardsWithoutEvents := fun s hlegal hreset =>
  ⟨s.takeReset, step_of_resetPending hlegal hreset, s.takeReset_history, s.channel_takeReset, rfl⟩

/-! ## The register view right after reset (R383) -/

/-- Of the five flags only FILLING is set. -/
theorem jbStatus_resetWith (p : Params) : jbStatus (State.resetWith p) = 1 := by
  simp [jbStatus, lastHasPayload, State.resetWith]

/-- Right after reset the answer of RD_REG is the whole history. -/
theorem exec_rdReg_resetWith {p : Params} {n : BitVec 16} {v : Word}
    (hv : regValue (State.resetWith p) n.toNat = some v) :
    ∃ t, exec (.rdReg n) (State.resetWith p) = .next t ∧
      t.history = [.response (Response.ofValue v)] :=
  ⟨_, exec_rdReg rfl hv, rfl⟩

/-- Settles O19, register by register. -/
theorem registersAfterReset : Obligations.RegistersAfterReset := by
  intro p _
  refine ⟨exec_rdReg_resetWith ?frmLen, exec_rdReg_resetWith ?jbStatus, exec_rdReg_resetWith ?jbCount,
    exec_rdReg_resetWith ?jbMaxpkt, exec_rdReg_resetWith ?jbInterval, exec_rdReg_resetWith ?frmMaxbuf⟩
  case jbStatus => exact congrArg some (jbStatus_resetWith p)
  case jbInterval => rfl
  all_goals exact congrArg some (toWord_natCast _)

/-! ## The launch premise (R385) -/

theorem clean_iff (p : Params) (s : State) : clean p s ↔
    s.params = p ∧ s.frmAcc = [] ∧ s.jbQueue = [] ∧ s.jbFilling = true ∧
    s.jbOverflowing = false ∧ s.jbRunning = false ∧ s.jbLastPacket = none ∧
    s.jbInterval.toNat = 20 ∧ s.channel = [] ∧ s.operands = [] := by
  have interval_iff : s.jbInterval.toNat = 20 ↔ s.jbInterval = 20 :=
    BitVec.toNat_inj (y := 20)
  rw [interval_iff]
  constructor
  all_goals
    rintro ⟨hp, hacc, hqueue, hfill, hover, hrun, hlast, hint, hchan, hidle⟩
    exact ⟨hp, hacc, hqueue, hfill, hover, hrun, hlast, hint, hchan, hidle⟩

theorem clean_resetWith (p : Params) : clean p (State.resetWith p) :=
  ⟨rfl, rfl, rfl, rfl, rfl, rfl, rfl, rfl, rfl, rfl⟩

/-- The reset mark empties the channel, whatever the run before left in it; the elements are those of the
reset state. -/
theorem clean_takeReset (s : State) : clean s.params s.takeReset :=
  { clean_resetWith s.params with channel := s.channel_takeReset }

/-- Settles O60: the reset state is clean, and a reset that the block performs is `takeReset`. -/
theorem everyResetLeavesACleanState : Obligations.EveryResetLeavesACleanState :=
  ⟨clean_iff, clean_resetWith, fun s hlegal hreset =>
    ⟨s.takeReset, step_of_resetPending hlegal hreset, clean_takeReset s⟩⟩

end Sys2Proof.Machine
end
